-- ==== Sys2Proof/Config.lean ====
section
/-!
DEFINITION. The implementation parameters of the FFAU (00_scope.md R7), fixed at the values that go with the
identification word (R2, R8; 93_implementation_defined.md P5). The spec leaves no value of a run open
(43_system_commands.md R208), so there is no free value here.
-/

namespace Sys2Proof.Config

/-- `W`, bits per limb (R7). -/
abbrev limbBits : Nat := 32

/-- `NMAX`, the largest single-width word count (R7). -/
abbrev nMax : Nat := 18

/-- `XLEN`, limbs per vector register (R7). -/
abbrev xLen : Nat := 36

/-- `NREG`, the number of vector registers (R7). -/
abbrev nReg : Nat := 8

/-- The least degree `M` of a binary descriptor (R7). -/
abbrev minDegree : Nat := 2

/-- The largest degree `M` of a binary descriptor (R7). -/
abbrev maxDegree : Nat := 576

/-- The largest BSQRN count (R7): all ones in the 12-bit immediate. -/
abbrev maxSquarings : Nat := 4095

/-- The identification word ID, ASCII "FFA1" (R2, R33). -/
abbrev idWord : BitVec 32 := 0x46464131#32

end Sys2Proof.Config
end

