-- ==== Sys2Proof/Word.lean ====
section
/-!
DEFINITION. The word types of the FFAU: limbs, command and port words, port addresses, vector register numbers.
-/

namespace Sys2Proof

/-- A limb: a 32-bit unsigned quantity, bit 0 least significant (00_scope.md R9). -/
abbrev Limb := BitVec 32

/-- A command word or a word of port data (30_encoding.md R80, 20_memory.md R50). -/
abbrev Word := BitVec 32

/-- A port byte address, 0x0000 to 0x1FFF (20_memory.md R50). -/
abbrev Addr := BitVec 13

/-- A vector register `V0` to `V7` (10_state.md R21). A register field with a value of 8 or more names no register
(30_encoding.md R81), so no instruction holds one. -/
abbrev VIdx := Fin 8

end Sys2Proof
end

