-- ==== Sys2Proof/Syntax.lean ====
section
/-!
DEFINITION. The 41 commands of the FFAU, one constructor per row of spec/opcode_table.json (30_encoding.md R84).
Operand order is the assembler's: destination, sources, immediate (R95). An immediate is the raw unsigned field of
the command word (R83); which of its values are legal is WellFormed's matter.
-/

namespace Sys2Proof

/-- One command. `d` is the destination register, `a` and `b` are the first and second source. -/
inductive Instr where
  /-- NOP, 43_system_commands.md R200. -/
  | nop
  /-- SETN n, R201. -/
  | setn (n : BitVec 5)
  /-- CLRERR, R202. -/
  | clrerr
  /-- SRESET, R203. -/
  | sreset
  /-- ADD Vd, Va, Vb, 40_integer_core.md R101. -/
  | add (d a b : VIdx)
  /-- SUB Vd, Va, Vb, R102. -/
  | sub (d a b : VIdx)
  /-- INC Vd, Va, R103. -/
  | inc (d a : VIdx)
  /-- DEC Vd, Va, R104. -/
  | dec (d a : VIdx)
  /-- MUL Vd, Va, Vb, R105. -/
  | mul (d a b : VIdx)
  /-- SQR Vd, Va, R106. -/
  | sqr (d a : VIdx)
  /-- SHL1[.C] Vd, Va, R107. -/
  | shl1 (d a : VIdx) (ci : Bool)
  /-- SHR1[.C] Vd, Va, R108. -/
  | shr1 (d a : VIdx) (ci : Bool)
  /-- SHLN[.C] Vd, Va, k, R109. -/
  | shln (d a : VIdx) (ci : Bool) (k : BitVec 5)
  /-- SHRN[.C] Vd, Va, k, R110. -/
  | shrn (d a : VIdx) (ci : Bool) (k : BitVec 5)
  /-- GTE Va, Vb, R111. -/
  | gte (a b : VIdx)
  /-- ISZERO Va, R112. -/
  | iszero (a : VIdx)
  /-- ISONE Va, R113. -/
  | isone (a : VIdx)
  /-- FSETP Va, 41_prime_field.md R131. -/
  | fsetp (a : VIdx)
  /-- FCHK Va, R134. -/
  | fchk (a : VIdx)
  /-- FADD Vd, Va, Vb, R135. -/
  | fadd (d a b : VIdx)
  /-- FSUB Vd, Va, Vb, R136. -/
  | fsub (d a b : VIdx)
  /-- FADD1 Vd, Va, R137. -/
  | fadd1 (d a : VIdx)
  /-- FNEG Vd, Va, R138. -/
  | fneg (d a : VIdx)
  /-- FHALF Vd, Va, R139. -/
  | fhalf (d a : VIdx)
  /-- FTWICE Vd, Va, R140. -/
  | ftwice (d a : VIdx)
  /-- FMUL Vd, Va, Vb, R141. -/
  | fmul (d a b : VIdx)
  /-- FSQR Vd, Va, R142. -/
  | fsqr (d a : VIdx)
  /-- FRED Vd, Va, R143. -/
  | fred (d a : VIdx)
  /-- FINV Vd, Va, R144. -/
  | finv (d a : VIdx)
  /-- BSETF Va, 42_binary_field.md R161. -/
  | bsetf (a : VIdx)
  /-- BCHK Va, R164. -/
  | bchk (a : VIdx)
  /-- BADD Vd, Va, Vb, R165. -/
  | badd (d a b : VIdx)
  /-- BMUL Vd, Va, Vb, R167. -/
  | bmul (d a b : VIdx)
  /-- BSQR Vd, Va, R169. -/
  | bsqr (d a : VIdx)
  /-- BSQRN Vd, Va, k, R170. -/
  | bsqrn (d a : VIdx) (k : BitVec 12)
  /-- BSQRT Vd, Va, R171. -/
  | bsqrt (d a : VIdx)
  /-- BRED Vd, Va, R168. -/
  | bred (d a : VIdx)
  /-- BINV Vd, Va, R172. -/
  | binv (d a : VIdx)
  /-- BTRACE Va, R173. -/
  | btrace (a : VIdx)
  /-- BHTRACE Vd, Va, R174. -/
  | bhtrace (d a : VIdx)
  /-- BMULX Vd, Va, Vb, R166. -/
  | bmulx (d a b : VIdx)
deriving DecidableEq, Repr

end Sys2Proof
end

