-- ==== Sys2Proof/WellFormed.lean ====
section
/-!
DEFINITION. Which immediates are legal (30_encoding.md R83). Register operands are legal by their type.
-/

namespace Sys2Proof

/-- R83: SETN takes 1 to 18, SHLN and SHRN take 1 to 31, BSQRN takes 1 to 4095. Every other operand is legal at every
value of its field. -/
def Instr.wellFormed : Instr → Bool
  | .setn n => decide (1 ≤ n.toNat ∧ n.toNat ≤ Config.nMax)
  | .shln _ _ _ k => decide (1 ≤ k.toNat)
  | .shrn _ _ _ k => decide (1 ≤ k.toNat)
  | .bsqrn _ _ k => decide (1 ≤ k.toNat ∧ k.toNat ≤ Config.maxSquarings)
  | .nop => true
  | .clrerr => true
  | .sreset => true
  | .add _ _ _ => true
  | .sub _ _ _ => true
  | .inc _ _ => true
  | .dec _ _ => true
  | .mul _ _ _ => true
  | .sqr _ _ => true
  | .shl1 _ _ _ => true
  | .shr1 _ _ _ => true
  | .gte _ _ => true
  | .iszero _ => true
  | .isone _ => true
  | .fsetp _ => true
  | .fchk _ => true
  | .fadd _ _ _ => true
  | .fsub _ _ _ => true
  | .fadd1 _ _ => true
  | .fneg _ _ => true
  | .fhalf _ _ => true
  | .ftwice _ _ => true
  | .fmul _ _ _ => true
  | .fsqr _ _ => true
  | .fred _ _ => true
  | .finv _ _ => true
  | .bsetf _ => true
  | .bchk _ => true
  | .badd _ _ _ => true
  | .bmul _ _ _ => true
  | .bsqr _ _ => true
  | .bsqrt _ _ => true
  | .bred _ _ => true
  | .binv _ _ => true
  | .btrace _ => true
  | .bhtrace _ _ => true
  | .bmulx _ _ _ => true

end Sys2Proof
end

