-- ==== Sys2Proof/Decode.lean ====
section
/-!
DEFINITION. The command word: its fields (30_encoding.md R81), the decode procedure (R85), the encoder (R95), both
written from the opcode map (R84) and the nine formats (R82). The decoder is total on all words and rejects by name;
every rejection is the one error E_ILLEGAL of R86 (the names are the model's own, log entry 9).
-/

namespace Sys2Proof

/-- The fields of a command word, at the same positions in every format (R81). -/
structure Fields where
  op : BitVec 8
  rd : BitVec 4
  rs1 : BitVec 4
  rs2 : BitVec 4
  imm : BitVec 12
deriving DecidableEq, Repr

/-- R81: OP is bits 31:24, RD 23:20, RS1 19:16, RS2 15:12, IMM 11:0. -/
def fieldsOf (w : Word) : Fields :=
  { op := w.extractLsb' 24 8
    rd := w.extractLsb' 20 4
    rs1 := w.extractLsb' 16 4
    rs2 := w.extractLsb' 12 4
    imm := w.extractLsb' 0 12 }

/-- The word with the given fields: `OP << 24 | RD << 20 | RS1 << 16 | RS2 << 12 | IMM` (R95). -/
def wordOf (f : Fields) : Word :=
  f.op ++ f.rd ++ f.rs1 ++ f.rs2 ++ f.imm

/-- Why the decode procedure rejects a word, in the order of R85's lines. -/
inductive DecodeError where
  /-- OP is not in the table of R84. -/
  | unassignedOpcode
  /-- A field the format says must be zero is not zero. -/
  | nonzeroField
  /-- A register field the format uses has a value of 8 or more. -/
  | registerNumber
  /-- An immediate outside the legal values of R83. -/
  | immediateRange
deriving DecidableEq, Repr

/-- The register a field value names, where it names one (R81). -/
def regOf (x : BitVec 4) : Option VIdx :=
  if h : x.toNat < 8 then some ⟨x.toNat, h⟩ else none

/-- The field value that names a register (R81). -/
def regField (r : VIdx) : BitVec 4 :=
  BitVec.ofNat 4 r.val

/-- An instruction with a checked immediate (R83, last lines of R85). -/
def checked (i : Instr) : Except DecodeError Instr :=
  if i.wellFormed then .ok i else .error .immediateRange

/-- Format Z: only OP (R82). -/
def decodeZ (f : Fields) (i : Instr) : Except DecodeError Instr :=
  if f.rd = 0 ∧ f.rs1 = 0 ∧ f.rs2 = 0 ∧ f.imm = 0 then .ok i else .error .nonzeroField

/-- Format I: OP and IMM[4:0] (R82). -/
def decodeI (f : Fields) (c : BitVec 5 → Instr) : Except DecodeError Instr :=
  if f.rd = 0 ∧ f.rs1 = 0 ∧ f.rs2 = 0 ∧ f.imm.extractLsb' 5 7 = 0 then checked (c (f.imm.extractLsb' 0 5))
  else .error .nonzeroField

/-- Format S1: OP and RS1 (R82). -/
def decodeS1 (f : Fields) (c : VIdx → Instr) : Except DecodeError Instr :=
  if f.rd = 0 ∧ f.rs2 = 0 ∧ f.imm = 0 then
    match regOf f.rs1 with
    | some a => .ok (c a)
    | none => .error .registerNumber
  else .error .nonzeroField

/-- Format S2: OP, RS1 and RS2 (R82). -/
def decodeS2 (f : Fields) (c : VIdx → VIdx → Instr) : Except DecodeError Instr :=
  if f.rd = 0 ∧ f.imm = 0 then
    match regOf f.rs1, regOf f.rs2 with
    | some a, some b => .ok (c a b)
    | _, _ => .error .registerNumber
  else .error .nonzeroField

/-- Format D1: OP, RD and RS1 (R82). -/
def decodeD1 (f : Fields) (c : VIdx → VIdx → Instr) : Except DecodeError Instr :=
  if f.rs2 = 0 ∧ f.imm = 0 then
    match regOf f.rd, regOf f.rs1 with
    | some d, some a => .ok (c d a)
    | _, _ => .error .registerNumber
  else .error .nonzeroField

/-- Format D2: OP, RD, RS1 and RS2 (R82). -/
def decodeD2 (f : Fields) (c : VIdx → VIdx → VIdx → Instr) : Except DecodeError Instr :=
  if f.imm = 0 then
    match regOf f.rd, regOf f.rs1, regOf f.rs2 with
    | some d, some a, some b => .ok (c d a b)
    | _, _, _ => .error .registerNumber
  else .error .nonzeroField

/-- Format DC: OP, RD, RS1 and IMM[5] (R82). -/
def decodeDC (f : Fields) (c : VIdx → VIdx → Bool → Instr) : Except DecodeError Instr :=
  if f.rs2 = 0 ∧ f.imm.extractLsb' 6 6 = 0 ∧ f.imm.extractLsb' 0 5 = 0 then
    match regOf f.rd, regOf f.rs1 with
    | some d, some a => .ok (c d a (f.imm.getLsbD 5))
    | _, _ => .error .registerNumber
  else .error .nonzeroField

/-- Format DS: OP, RD, RS1, IMM[5] and IMM[4:0] (R82). -/
def decodeDS (f : Fields) (c : VIdx → VIdx → Bool → BitVec 5 → Instr) : Except DecodeError Instr :=
  if f.rs2 = 0 ∧ f.imm.extractLsb' 6 6 = 0 then
    match regOf f.rd, regOf f.rs1 with
    | some d, some a => checked (c d a (f.imm.getLsbD 5) (f.imm.extractLsb' 0 5))
    | _, _ => .error .registerNumber
  else .error .nonzeroField

/-- Format DK: OP, RD, RS1 and IMM[11:0] (R82). -/
def decodeDK (f : Fields) (c : VIdx → VIdx → BitVec 12 → Instr) : Except DecodeError Instr :=
  if f.rs2 = 0 then
    match regOf f.rd, regOf f.rs1 with
    | some d, some a => checked (c d a f.imm)
    | _, _ => .error .registerNumber
  else .error .nonzeroField

/-- The opcode map of R84 with each row's format (R82), applied to a word's fields as R85 says. -/
def decodeFields (f : Fields) : Except DecodeError Instr :=
  match f.op with
  | 0x00 => decodeZ f .nop
  | 0x01 => decodeI f .setn
  | 0x02 => decodeZ f .clrerr
  | 0x03 => decodeZ f .sreset
  | 0x10 => decodeD2 f .add
  | 0x11 => decodeD2 f .sub
  | 0x12 => decodeD1 f .inc
  | 0x13 => decodeD1 f .dec
  | 0x14 => decodeD2 f .mul
  | 0x15 => decodeD1 f .sqr
  | 0x16 => decodeDC f .shl1
  | 0x17 => decodeDC f .shr1
  | 0x18 => decodeDS f .shln
  | 0x19 => decodeDS f .shrn
  | 0x1A => decodeS2 f .gte
  | 0x1B => decodeS1 f .iszero
  | 0x1C => decodeS1 f .isone
  | 0x20 => decodeS1 f .fsetp
  | 0x21 => decodeS1 f .fchk
  | 0x22 => decodeD2 f .fadd
  | 0x23 => decodeD2 f .fsub
  | 0x24 => decodeD1 f .fadd1
  | 0x25 => decodeD1 f .fneg
  | 0x26 => decodeD1 f .fhalf
  | 0x27 => decodeD1 f .ftwice
  | 0x28 => decodeD2 f .fmul
  | 0x29 => decodeD1 f .fsqr
  | 0x2A => decodeD1 f .fred
  | 0x2B => decodeD1 f .finv
  | 0x30 => decodeS1 f .bsetf
  | 0x31 => decodeS1 f .bchk
  | 0x32 => decodeD2 f .badd
  | 0x33 => decodeD2 f .bmul
  | 0x34 => decodeD1 f .bsqr
  | 0x35 => decodeDK f .bsqrn
  | 0x36 => decodeD1 f .bsqrt
  | 0x37 => decodeD1 f .bred
  | 0x38 => decodeD1 f .binv
  | 0x39 => decodeS1 f .btrace
  | 0x3A => decodeD1 f .bhtrace
  | 0x3B => decodeD2 f .bmulx
  | _ => .error .unassignedOpcode

/-- The decode procedure of R85 on a word written to CMD. -/
def decode (w : Word) : Except DecodeError Instr :=
  decodeFields (fieldsOf w)

/-- The fields of an instruction's command word: the opcode of R84, the register and immediate fields its format uses
(R82), zero elsewhere. -/
def encodeFields : Instr → Fields
  | .nop => ⟨0x00, 0, 0, 0, 0⟩
  | .setn n => ⟨0x01, 0, 0, 0, 0#7 ++ n⟩
  | .clrerr => ⟨0x02, 0, 0, 0, 0⟩
  | .sreset => ⟨0x03, 0, 0, 0, 0⟩
  | .add d a b => ⟨0x10, regField d, regField a, regField b, 0⟩
  | .sub d a b => ⟨0x11, regField d, regField a, regField b, 0⟩
  | .inc d a => ⟨0x12, regField d, regField a, 0, 0⟩
  | .dec d a => ⟨0x13, regField d, regField a, 0, 0⟩
  | .mul d a b => ⟨0x14, regField d, regField a, regField b, 0⟩
  | .sqr d a => ⟨0x15, regField d, regField a, 0, 0⟩
  | .shl1 d a ci => ⟨0x16, regField d, regField a, 0, 0#6 ++ BitVec.ofBool ci ++ 0#5⟩
  | .shr1 d a ci => ⟨0x17, regField d, regField a, 0, 0#6 ++ BitVec.ofBool ci ++ 0#5⟩
  | .shln d a ci k => ⟨0x18, regField d, regField a, 0, 0#6 ++ BitVec.ofBool ci ++ k⟩
  | .shrn d a ci k => ⟨0x19, regField d, regField a, 0, 0#6 ++ BitVec.ofBool ci ++ k⟩
  | .gte a b => ⟨0x1A, 0, regField a, regField b, 0⟩
  | .iszero a => ⟨0x1B, 0, regField a, 0, 0⟩
  | .isone a => ⟨0x1C, 0, regField a, 0, 0⟩
  | .fsetp a => ⟨0x20, 0, regField a, 0, 0⟩
  | .fchk a => ⟨0x21, 0, regField a, 0, 0⟩
  | .fadd d a b => ⟨0x22, regField d, regField a, regField b, 0⟩
  | .fsub d a b => ⟨0x23, regField d, regField a, regField b, 0⟩
  | .fadd1 d a => ⟨0x24, regField d, regField a, 0, 0⟩
  | .fneg d a => ⟨0x25, regField d, regField a, 0, 0⟩
  | .fhalf d a => ⟨0x26, regField d, regField a, 0, 0⟩
  | .ftwice d a => ⟨0x27, regField d, regField a, 0, 0⟩
  | .fmul d a b => ⟨0x28, regField d, regField a, regField b, 0⟩
  | .fsqr d a => ⟨0x29, regField d, regField a, 0, 0⟩
  | .fred d a => ⟨0x2A, regField d, regField a, 0, 0⟩
  | .finv d a => ⟨0x2B, regField d, regField a, 0, 0⟩
  | .bsetf a => ⟨0x30, 0, regField a, 0, 0⟩
  | .bchk a => ⟨0x31, 0, regField a, 0, 0⟩
  | .badd d a b => ⟨0x32, regField d, regField a, regField b, 0⟩
  | .bmul d a b => ⟨0x33, regField d, regField a, regField b, 0⟩
  | .bsqr d a => ⟨0x34, regField d, regField a, 0, 0⟩
  | .bsqrn d a k => ⟨0x35, regField d, regField a, 0, k⟩
  | .bsqrt d a => ⟨0x36, regField d, regField a, 0, 0⟩
  | .bred d a => ⟨0x37, regField d, regField a, 0, 0⟩
  | .binv d a => ⟨0x38, regField d, regField a, 0, 0⟩
  | .btrace a => ⟨0x39, 0, regField a, 0, 0⟩
  | .bhtrace d a => ⟨0x3A, regField d, regField a, 0, 0⟩
  | .bmulx d a b => ⟨0x3B, regField d, regField a, regField b, 0⟩

/-- The command word of an instruction (R80, R95). -/
def encode (i : Instr) : Word :=
  wordOf (encodeFields i)

/-- The instruction the decoder reads from the low `nbits` bits of `w`, the bits above zero. A command is one 32-bit
word (R80): a longer row is no command. -/
def decodeTableWord (nbits w : Nat) : Option Instr :=
  if nbits ≤ 32 then (decode (BitVec.ofNat 32 (w % 2 ^ nbits))).toOption else none

end Sys2Proof
end

