-- ==== Sys2Proof/Machine/State.lean ====
section
/-!
DEFINITION. The state of one FFAU (10_state.md R20), the two sides of its port (20_memory.md R50), the reasons a step
can stop (there is none), and the state after reset (10_state.md R42).
-/

namespace Sys2Proof.Machine

/-- `KIND`: which field descriptor is installed (R27). The code 3 never occurs. -/
inductive Kind where
  /-- 0, NONE. -/
  | none
  /-- 1, PRIME. -/
  | prime
  /-- 2, BINARY. -/
  | binary
deriving DecidableEq, Repr

/-- The 2-bit value of `KIND` (R27). -/
def Kind.code : Kind → BitVec 2
  | .none => 0
  | .prime => 1
  | .binary => 2

/-- `ERR`: the pending error (60_exceptions.md R221). The codes 6 and 7 never occur. -/
inductive ErrCode where
  /-- 0, no error pending. -/
  | none
  /-- 1, E_ILLEGAL: the word is not a legal command. -/
  | illegal
  /-- 2, E_DESC: the candidate descriptor fails its check. -/
  | desc
  /-- 3, E_ELEMENT: a single-width source operand is not canonical. -/
  | element
  /-- 4, E_INVZERO: the operand of an inversion is zero. The one fatal error (R227). -/
  | invZero
  /-- 5, E_NOFIELD: the installed descriptor is not of the kind the command needs. -/
  | noField
deriving DecidableEq, Repr

/-- The 3-bit value of `ERR` (R221). -/
def ErrCode.code : ErrCode → BitVec 3
  | .none => 0
  | .illegal => 1
  | .desc => 2
  | .element => 3
  | .invZero => 4
  | .noField => 5

/-- The two kinds of port request (20_memory.md R50). -/
inductive AccessKind where
  | read
  | write
deriving DecidableEq, Repr

/-- A port request (R50): its kind, byte address, width in bytes and write data. -/
structure Request where
  kind : AccessKind
  addr : Addr
  size : Nat
  wdata : Word
deriving DecidableEq, Repr

/-- The two statuses of a port response (R50). -/
inductive PortStatus where
  | ok
  | error
deriving DecidableEq, Repr

/-- A port response (R50). A read carries its data; the response to a write carries none (log entry 6). -/
structure Response where
  status : PortStatus
  rdata : Option Word
deriving DecidableEq, Repr

/-- What the world outside can do to the block (00_scope.md R15): one port access, or one reset by the `rst` pin. -/
inductive HostAction where
  | access (r : Request)
  | rst
deriving DecidableEq, Repr

/-- The state of the machine: the whole architectural state of R20, and the model's own two fields for the port. -/
structure State where
  /-- `V0` to `V7`, 36 limbs each, limb 0 least significant (R21). -/
  v : Vector (Vector Limb 36) 8
  /-- `CW`, the carry word (R24). -/
  cw : Word
  /-- `T`, the test flag (R25). -/
  t : Bool
  /-- `N`, the word count of the integer core (R26). -/
  n : BitVec 5
  /-- `KIND` (R27). -/
  kind : Kind
  /-- `FN`, the word count of the installed field (R27). -/
  fn : BitVec 5
  /-- `P[0..17]`, the prime modulus (R28). -/
  p : Vector Limb 18
  /-- `M`, the degree of the binary field (R29). -/
  m : BitVec 10
  /-- `K1` (R29). -/
  k1 : BitVec 10
  /-- `K2` (R29). -/
  k2 : BitVec 10
  /-- `K3` (R29). -/
  k3 : BitVec 10
  /-- `ERR`, the pending error (R30). -/
  err : ErrCode
  /-- `ECMD`, the command word that raised the pending or most recent error (R30). -/
  ecmd : Word
  /-- The MODEL's own: the host actions still to come, oldest first (log entry 1). -/
  inbox : List HostAction
  /-- The MODEL's own: the responses the port has given, oldest first (log entry 1). -/
  outbox : List Response
deriving DecidableEq, Repr

/-- Why a step could stop with a fault: never. Every word, access and reset has a defined outcome in every state
(43_system_commands.md R208, 93_implementation_defined.md part 2), a command error being a next state
(60_exceptions.md R224). Nothing raises a fault; log entry 7. -/
inductive Fault where
deriving DecidableEq, Repr

/-- Why the model would give no meaning to an instruction. -/
inductive Refusal where
  /-- Raised by no arm of `exec`: the constructor is the host's fixed name for a command without a meaning yet. Safe:
  it would stop a run, never let one go on wrongly. -/
  | notModelled (mnemonic : String)
deriving DecidableEq, Repr

/-- What a command, a host action or a step comes to. -/
abbrev Result := Host.Outcome State Fault Refusal

/-- The state after reset (R42, 70_reset_and_hazards.md R261): all zero but `N = 1`. The model's own fields are empty. -/
def State.reset : State :=
  { v := Vector.replicate 8 (Vector.replicate 36 0#32)
    cw := 0
    t := false
    n := 1
    kind := .none
    fn := 0
    p := Vector.replicate 18 0#32
    m := 0
    k1 := 0
    k2 := 0
    k3 := 0
    err := .none
    ecmd := 0
    inbox := []
    outbox := [] }

end Sys2Proof.Machine
end

