-- ==== Sys2Proof/Machine/Ops.lean ====
section
/-!
DEFINITION. The operations on state that the meanings share: limb vectors as integers (00_scope.md R9, R10), reading and
writing vector registers (10_state.md R22), raising an error and returning from one (60_exceptions.md R224, R226), reset
(70_reset_and_hazards.md R260, R262), the output pins (10_state.md R43).
-/

namespace Sys2Proof.Machine

/-- The integer a limb list stands for, index 0 least significant (R9). -/
def limbsVal : List Limb → Nat
  | [] => 0
  | x :: xs => x.toNat + 2 ^ 32 * limbsVal xs

/-- `a[0..len) <- z` of R10 on a limb list: limb `j` below `len` becomes bits `32j+31 : 32j` of `z`, the limbs from
`len` on stay. Limbs beyond the end of the list do not exist (log entry 5). -/
def writeLow : List Limb → Nat → Nat → List Limb
  | [], _, _ => []
  | x :: xs, 0, _ => x :: xs
  | _ :: xs, len + 1, z => BitVec.ofNat 32 z :: writeLow xs len (z / 2 ^ 32)

theorem writeLow_length (xs : List Limb) (len z : Nat) : (writeLow xs len z).length = xs.length := by
  induction xs generalizing len z with
  | nil => rfl
  | cons x xs ih => cases len <;> simp [writeLow, ih]

/-- `writeLow` on a register of fixed length. -/
def writeVec {k : Nat} (reg : Vector Limb k) (len z : Nat) : Vector Limb k :=
  ⟨(writeLow reg.toList len z).toArray, by simp [writeLow_length]⟩

/-- `V[r][j]` (R10): limb `j` of register `r`. A register has limbs 0 to 35 and no other; a limb that does not exist
reads as 0 (log entry 5). -/
def State.limb (s : State) (r : VIdx) (j : Nat) : Limb :=
  (s.v[r.val]).toList.getD j 0

/-- `val(r, len)` (R10): the integer in limbs `[0, len)` of register `r`. -/
def State.val (s : State) (r : VIdx) (len : Nat) : Nat :=
  limbsVal ((s.v[r.val]).toList.take len)

/-- `V[r][0..len) <- z` (R10): only those limbs of that register change (10_state.md R22). -/
def State.writeReg (s : State) (r : VIdx) (len z : Nat) : State :=
  { s with v := s.v.set r.val (writeVec s.v[r.val] len z) }

/-- `V[r][j] <- x` (R10): one limb, as a host write does (20_memory.md R53). -/
def State.writeLimb (s : State) (r : VIdx) (j : Fin 36) (x : Limb) : State :=
  { s with v := s.v.set r.val (s.v[r.val].set j.val x) }

/-- `CW <- c` (10_state.md R24). -/
def State.setCw (s : State) (c : Word) : State :=
  { s with cw := c }

/-- `T <- b` (10_state.md R25). -/
def State.setT (s : State) (b : Bool) : State :=
  { s with t := b }

/-- `raise E(w)` (60_exceptions.md R224): ERR and ECMD are written, nothing else changes. This is the whole of taking an
exception: nothing is saved elsewhere, no mode changes, control goes nowhere. -/
def State.raise (s : State) (e : ErrCode) (w : Word) : State :=
  { s with err := e, ecmd := w }

/-- Return from an error (60_exceptions.md R226, R227; 43_system_commands.md R202): ERR becomes 0 unless the error is the
fatal E_INVZERO; ECMD stays. -/
def State.clearErr (s : State) : State :=
  if s.err = .invZero then s else { s with err := .none }

/-- Reset, by the pin or by SRESET (70_reset_and_hazards.md R260, R262): every piece of architectural state takes its
reset value of R42. What the host will still do and what the port has answered are no state of the block and stay. -/
def State.resetArch (s : State) : State :=
  { State.reset with inbox := s.inbox, outbox := s.outbox }

/-- The pin `irq` (60_exceptions.md R230). -/
def State.irq (s : State) : Bool :=
  decide (s.err ≠ .none)

/-- The pin `busy` (10_state.md R43), as seen between two accesses, the only moments a state of the model stands for
(20_memory.md R51): the block is idle. -/
def State.busy (_ : State) : Bool :=
  false

/-- The port answers a request. -/
def State.respond (s : State) (status : PortStatus) (rdata : Option Word) : State :=
  { s with outbox := s.outbox ++ [⟨status, rdata⟩] }

/-- Apply an effect to the next state, where there is one. -/
def onNext (f : State → State) (r : Result) : Result :=
  match r with
  | .next s => .next (f s)
  | .fault e => .fault e
  | .refused e => .refused e

/-- R223: of a command's checks, listed in their order with whether each fails, the first that fails gives the error;
none fails, no error. -/
def firstFailure : List (Bool × ErrCode) → Option ErrCode
  | [] => none
  | (true, e) :: _ => some e
  | (false, _) :: rest => firstFailure rest

/-- End a command with word `w`: with its effect `t` where no check failed, else with the error raised on `s` and no
other effect (R223, R224). -/
def commit (failure : Option ErrCode) (w : Word) (s t : State) : Result :=
  match failure with
  | none => .next t
  | some e => .next (s.raise e w)

end Sys2Proof.Machine
end

