-- ==== Sys2Proof/Machine/Poly.lean ====
section
/-!
DEFINITION. The arithmetic the results are defined by: integers modulo m, with an exact difference that may be negative
(00_scope.md R10), powers modulo m, and polynomials over GF(2) held as naturals (R11). Methods are not architectural
(R12): these compute the formulas' values.
-/

namespace Sys2Proof.Machine

/-- `(x - y) mod m`, the value in `[0, m)` congruent to the exact difference, which may be negative (R10). -/
def subMod (x y m : Nat) : Nat :=
  (((x : Int) - (y : Int)) % (m : Int)).toNat

/-- `acc ** (2^i) * x ** (low i bits of e)` for a multiplication `mul`: square-and-multiply from bit `i - 1` of `e`
down. -/
def powLoop (mul : Nat → Nat → Nat) (x e : Nat) : Nat → Nat → Nat
  | 0, acc => acc
  | i + 1, acc => powLoop mul x e i (if e.testBit i then mul (mul acc acc) x else mul acc acc)

/-- `x * y mod p`. -/
def mulMod (p x y : Nat) : Nat :=
  x * y % p

/-- `x ** e mod p` (41_prime_field.md R144). -/
def powMod (p x e : Nat) : Nat :=
  powLoop (mulMod p) x e (e.log2 + 1) (1 % p)

/-- XOR over all `i` below the count with bit `i` of `b` set of `a << i`. -/
def clmulLoop (a b : Nat) : Nat → Nat
  | 0 => 0
  | i + 1 => if b.testBit i then clmulLoop a b i ^^^ (a <<< i) else clmulLoop a b i

/-- `clmul(a, b)`, the product of polynomials over GF(2) (R11). -/
def clmul (a b : Nat) : Nat :=
  clmulLoop a b (b.log2 + 1)

/-- Long division by `f` of degree `d`, from position `d + i - 1` of `a` down to `d`: where the bit is set, `f` shifted
under it is added. -/
def pmodLoop (f d : Nat) : Nat → Nat → Nat
  | 0, a => a
  | i + 1, a => pmodLoop f d i (if a.testBit (d + i) then a ^^^ (f <<< i) else a)

/-- `pmod(a, f)`, the remainder of `a` on division by `f ≠ 0` over GF(2) (R11): the same subtractions as R11's loop, one
position at a time. -/
def pmod (a f : Nat) : Nat :=
  pmodLoop f f.log2 (a.log2 + 1) a

/-- The product in GF(2)[t]/(f) (42_binary_field.md R167). -/
def gfMul (f x y : Nat) : Nat :=
  pmod (clmul x y) f

/-- One squaring in GF(2)[t]/(f) (R169). -/
def gfSqr (f x : Nat) : Nat :=
  pmod (clmul x x) f

/-- `k` squarings in GF(2)[t]/(f) (R170). -/
def gfSqrN (f : Nat) : Nat → Nat → Nat
  | 0, y => y
  | k + 1, y => gfSqrN f k (gfSqr f y)

/-- `x ** e` in GF(2)[t]/(f), by square-and-multiply (R172). -/
def gfPow (f x e : Nat) : Nat :=
  powLoop (gfMul f) x e (e.log2 + 1) (pmod 1 f)

/-- The loop `s <- s ^ y ; y <- sq y`, `k` times, for a map `sq`; answers `s` (R173, R174). -/
def traceLoop (sq : Nat → Nat) : Nat → Nat → Nat → Nat
  | 0, acc, _ => acc
  | k + 1, acc, y => traceLoop sq k (acc ^^^ y) (sq y)

/-- R173: `sum_{i=0}^{M-1} x ** (2^i)`. -/
def gfTrace (f m x : Nat) : Nat :=
  traceLoop (gfSqr f) m 0 x

/-- R174: `sum_{i=0}^{(M-1)/2} x ** (2^(2i))`. -/
def gfHalfTrace (f m x : Nat) : Nat :=
  traceLoop (fun u => gfSqr f (gfSqr f u)) ((m - 1) / 2 + 1) 0 x

end Sys2Proof.Machine
end

