-- ==== Sys2Proof/Machine/Operands.lean ====
section
/-!
DEFINITION. The operand forms: word counts, source operands at each width, the installed modulus and reduction
polynomial, the canonical checks and the order of a field command's checks.
-/

namespace Sys2Proof.Machine

/-- The word count of an integer-core command, `N` (40_integer_core.md R100). -/
def State.words (s : State) : Nat :=
  s.n.toNat

/-- `B = 2^(32 N)` (R100). -/
def State.base (s : State) : Nat :=
  2 ^ (32 * s.words)

/-- An integer-core source operand: `val(r, N)` (R100). -/
def State.srcN (s : State) (r : VIdx) : Nat :=
  s.val r s.words

/-- The word count of a field command, `FN` (41_prime_field.md R130, 42_binary_field.md R162). -/
def State.fieldWords (s : State) : Nat :=
  s.fn.toNat

/-- A single-width field operand: `val(r, FN)`. -/
def State.srcF (s : State) (r : VIdx) : Nat :=
  s.val r s.fieldWords

/-- A double-width field operand, of FRED and BRED: `val(r, 2 FN)`. -/
def State.srcFF (s : State) (r : VIdx) : Nat :=
  s.val r (2 * s.fieldWords)

/-- The modulus `p`: limbs `[0, FN)` of `P` (41_prime_field.md R130). -/
def State.modulus (s : State) : Nat :=
  limbsVal (s.p.toList.take s.fieldWords)

/-- The degree `M` as a number. -/
def State.degree (s : State) : Nat :=
  s.m.toNat

/-- The reduction polynomial `f`, a trinomial or a pentanomial (42_binary_field.md R160). -/
def State.fieldPoly (s : State) : Nat :=
  if s.k2 = 0 ∧ s.k3 = 0 then 2 ^ s.degree + 2 ^ s.k1.toNat + 1
  else 2 ^ s.degree + 2 ^ s.k3.toNat + 2 ^ s.k2.toNat + 2 ^ s.k1.toNat + 1

/-- A canonical prime-field element: below `p` (41_prime_field.md R133). -/
def State.canonP (s : State) (r : VIdx) : Bool :=
  decide (s.srcF r < s.modulus)

/-- A canonical binary-field element: no bit at position `M` or above (42_binary_field.md R163). -/
def State.canonB (s : State) (r : VIdx) : Bool :=
  decide (s.srcF r < 2 ^ s.degree)

/-- The checks of a prime-field command with single-width sources `srcs`, in order (R130, R223). -/
def State.primeChecks (s : State) (srcs : List VIdx) : List (Bool × ErrCode) :=
  [(decide (s.kind ≠ .prime), .noField), (!srcs.all s.canonP, .element)]

/-- The checks of a binary-field command with single-width sources `srcs`, in order (R162, R223). -/
def State.binaryChecks (s : State) (srcs : List VIdx) : List (Bool × ErrCode) :=
  [(decide (s.kind ≠ .binary), .noField), (!srcs.all s.canonB, .element)]

/-- The extra check of FINV and BINV, after the others: the operand is not zero (R223 step 4). -/
def State.zeroCheck (s : State) (r : VIdx) : List (Bool × ErrCode) :=
  [(decide (s.srcF r = 0), .invZero)]

/-- The candidate modulus of FSETP is odd, at least 3 and fills its top limb (41_prime_field.md R131). -/
def State.primeDescOk (s : State) (a : VIdx) : Bool :=
  decide (s.srcN a % 2 = 1 ∧ 3 ≤ s.srcN a ∧ s.limb a (s.words - 1) ≠ 0)

/-- The candidate exponents of BSETF, each limb a full 32-bit number: a trinomial or a pentanomial of a degree in range
(42_binary_field.md R161). -/
def binaryDescOk (m k1 k2 k3 : Nat) : Bool :=
  decide ((Config.minDegree ≤ m ∧ m ≤ Config.maxDegree) ∧
    ((k2 = 0 ∧ k3 = 0 ∧ 1 ≤ k1 ∧ k1 < m) ∨ (1 ≤ k1 ∧ k1 < k2 ∧ k2 < k3 ∧ k3 < m)))

/-- `ceil(m / 32)` (R161). -/
def wordsOfDegree (m : Nat) : Nat :=
  (m + 31) / 32

end Sys2Proof.Machine
end

