-- ==== Sys2Proof/Machine/Flags.lean ====
section
/-!
DEFINITION. Every value the spec gives `CW` and `T` (10_state.md R24, R25), and the carry-in of the shifts
(40_integer_core.md R115).
-/

namespace Sys2Proof.Machine

/-- A one-bit outcome as the carry word: 0 or 1, zero-extended (R24). -/
def flagWord (b : Bool) : Word :=
  if b then 1 else 0

/-- The part of an exact result that did not fit below `B`: `full div B` (R101, R109). -/
def carryOut (full base : Nat) : Word :=
  BitVec.ofNat 32 (full / base)

/-- The borrow of SUB, the positive number 1 (R102). -/
def borrowOut (x y : Nat) : Word :=
  flagWord (decide (x < y))

/-- The wrap of INC (R103). -/
def incWrap (x base : Nat) : Word :=
  flagWord (decide (x = base - 1))

/-- The wrap of DEC (R104). -/
def decWrap (x : Nat) : Word :=
  flagWord (decide (x = 0))

/-- The carry-in of a shift by `k`: the low `k` bits of `CW` if CI is set, else 0 (R115). -/
def State.shiftIn (s : State) (ci : Bool) (k : Nat) : Nat :=
  if ci then s.cw.toNat % 2 ^ k else 0

/-- A shift up by `k` with the carry-in below it, before it is cut to the array: `(x << k) | cin` (R107, R109). -/
def shiftUpFull (x k cin : Nat) : Nat :=
  (x <<< k) ||| cin

/-- A shift down by `k` in an array of `n` limbs with the carry-in above it: `(x >> k) | (cin << (32n - k))` (R108,
R110). -/
def shiftDownFull (n x k cin : Nat) : Nat :=
  (x >>> k) ||| (cin <<< (32 * n - k))

/-- The `k` bits a shift down pushes out of the bottom, right-aligned (R108, R110, R115). -/
def shiftDownOut (x k : Nat) : Word :=
  BitVec.ofNat 32 (x % 2 ^ k)

/-- GTE's verdict, unsigned (R111). -/
def gteFlag (x y : Nat) : Bool :=
  decide (y ≤ x)

/-- ISZERO's verdict (R112). -/
def isZeroFlag (x : Nat) : Bool :=
  decide (x = 0)

/-- ISONE's verdict (R113). -/
def isOneFlag (x : Nat) : Bool :=
  decide (x = 1)

/-- BTRACE's verdict: the constant coefficient of the trace sum (42_binary_field.md R173). -/
def traceFlag (sum : Nat) : Bool :=
  sum.testBit 0

end Sys2Proof.Machine
end

