-- ==== Sys2Proof/Machine/Effects.lean ====
section
/-!
DEFINITION. How a command ends, family by family: which limbs a result goes to, which flag it writes, which checks stand
before it. The meanings are one line each over these.
-/

namespace Sys2Proof.Machine

/-- An integer-core command with an `N`-limb result `z` and carry word `c`: never an error (40_integer_core.md R100). -/
def endCarry (s : State) (d : VIdx) (z : Nat) (c : Word) : Result :=
  .next ((s.writeReg d s.words z).setCw c)

/-- An integer-core command with a `2N`-limb result and no flag (R105, R106). -/
def endWide (s : State) (d : VIdx) (z : Nat) : Result :=
  .next (s.writeReg d (2 * s.words) z)

/-- A comparator: only `T` is written (R111 to R113). -/
def endTest (s : State) (b : Bool) : Result :=
  .next (s.setT b)

/-- A shift up by `k` (R107, R109, R115). -/
def shiftUp (s : State) (d a : VIdx) (ci : Bool) (k : Nat) : Result :=
  endCarry s d (shiftUpFull (s.srcN a) k (s.shiftIn ci k) % s.base)
    (carryOut (shiftUpFull (s.srcN a) k (s.shiftIn ci k)) s.base)

/-- A shift down by `k` (R108, R110, R115). -/
def shiftDown (s : State) (d a : VIdx) (ci : Bool) (k : Nat) : Result :=
  endCarry s d (shiftDownFull s.words (s.srcN a) k (s.shiftIn ci k)) (shiftDownOut (s.srcN a) k)

/-- A prime-field command with word `w`, single-width sources `srcs` and `FN`-limb result `z` (41_prime_field.md R130). -/
def endPrime (s : State) (w : Word) (srcs : List VIdx) (d : VIdx) (z : Nat) : Result :=
  commit (firstFailure (s.primeChecks srcs)) w s (s.writeReg d s.fieldWords z)

/-- A binary-field command with word `w`, single-width sources `srcs` and `FN`-limb result `z` (42_binary_field.md R162). -/
def endBinary (s : State) (w : Word) (srcs : List VIdx) (d : VIdx) (z : Nat) : Result :=
  commit (firstFailure (s.binaryChecks srcs)) w s (s.writeReg d s.fieldWords z)

/-- The end of FCHK and BCHK: the kind check leaves `T` alone; then `T` is the verdict, and a bad verdict raises E_ELEMENT
after `T` is written (41_prime_field.md R134, 42_binary_field.md R164, 90_conflicts.md C6). -/
def endElementCheck (s : State) (w : Word) (kind : Kind) (good : Bool) : Result :=
  if s.kind ≠ kind then .next (s.raise .noField w)
  else if good then .next (s.setT true)
  else .next ((s.setT false).raise .element w)

/-- The descriptor FSETP installs: the low `N` limbs of `P` are the candidate's and the others 0; the binary descriptor is
cleared (41_prime_field.md R131). -/
def State.installPrime (s : State) (a : VIdx) : State :=
  { s with
    p := writeVec (Vector.replicate 18 0#32) s.words (s.srcN a)
    kind := .prime, fn := s.n, m := 0, k1 := 0, k2 := 0, k3 := 0 }

/-- The descriptor BSETF installs; the modulus is cleared (42_binary_field.md R161). -/
def State.installBinary (s : State) (m k1 k2 k3 : Nat) : State :=
  { s with
    kind := .binary
    m := BitVec.ofNat 10 m, k1 := BitVec.ofNat 10 k1, k2 := BitVec.ofNat 10 k2, k3 := BitVec.ofNat 10 k3
    fn := BitVec.ofNat 5 (wordsOfDegree m)
    p := Vector.replicate 18 0#32 }

end Sys2Proof.Machine
end

