-- ==== Sys2Proof/Machine/BinaryField.lean ====
section
/-!
DEFINITION. The binary extension-field commands (42_binary_field.md). Each computes its formula for the installed
polynomial of R160, irreducible or not (R178). The word an error records is the command's own (log entry 4).
-/

namespace Sys2Proof.Machine

/-- BSETF: install a binary descriptor from limbs 0 to 3, or E_DESC and the old one stays (R161). -/
def execBsetf (a : VIdx) (s : State) : Result :=
  commit
    (firstFailure
      [(!binaryDescOk (s.limb a 0).toNat (s.limb a 1).toNat (s.limb a 2).toNat (s.limb a 3).toNat, .desc)])
    (encode (.bsetf a)) s
    (s.installBinary (s.limb a 0).toNat (s.limb a 1).toNat (s.limb a 2).toNat (s.limb a 3).toNat)

/-- BCHK: validate an imported value (R164). -/
def execBchk (a : VIdx) (s : State) : Result :=
  endElementCheck s (encode (.bchk a)) .binary (s.canonB a)

/-- BADD: limbwise exclusive-or (R165). -/
def execBadd (d a b : VIdx) (s : State) : Result :=
  endBinary s (encode (.badd d a b)) [a, b] d (s.srcF a ^^^ s.srcF b)

/-- BMUL (R167). -/
def execBmul (d a b : VIdx) (s : State) : Result :=
  endBinary s (encode (.bmul d a b)) [a, b] d (gfMul s.fieldPoly (s.srcF a) (s.srcF b))

/-- BSQR (R169). -/
def execBsqr (d a : VIdx) (s : State) : Result :=
  endBinary s (encode (.bsqr d a)) [a] d (gfSqr s.fieldPoly (s.srcF a))

/-- BSQRN: `k` squarings (R170). -/
def execBsqrn (d a : VIdx) (k : BitVec 12) (s : State) : Result :=
  endBinary s (encode (.bsqrn d a k)) [a] d (gfSqrN s.fieldPoly k.toNat (s.srcF a))

/-- BSQRT: `M - 1` squarings (R171). -/
def execBsqrt (d a : VIdx) (s : State) : Result :=
  endBinary s (encode (.bsqrt d a)) [a] d (gfSqrN s.fieldPoly (s.degree - 1) (s.srcF a))

/-- BRED: the double-width operand is not range-checked (R168). -/
def execBred (d a : VIdx) (s : State) : Result :=
  endBinary s (encode (.bred d a)) [] d (pmod (s.srcFF a) s.fieldPoly)

/-- BINV: the zero test comes last; the value is `x ** (2^M - 2)` whatever `f` is (R172). -/
def execBinv (d a : VIdx) (s : State) : Result :=
  commit (firstFailure (s.binaryChecks [a] ++ s.zeroCheck a)) (encode (.binv d a)) s
    (s.writeReg d s.fieldWords (gfPow s.fieldPoly (s.srcF a) (2 ^ s.degree - 2)))

/-- BTRACE: only `T` is written (R173). -/
def execBtrace (a : VIdx) (s : State) : Result :=
  commit (firstFailure (s.binaryChecks [a])) (encode (.btrace a)) s
    (s.setT (traceFlag (gfTrace s.fieldPoly s.degree (s.srcF a))))

/-- BHTRACE: an even `M` is E_NOFIELD, after the kind check and before the element check (R174, R162). -/
def execBhtrace (d a : VIdx) (s : State) : Result :=
  commit
    (firstFailure ([(decide (s.kind ≠ .binary), .noField), (decide (s.degree % 2 = 0), .noField)] ++ s.binaryChecks [a]))
    (encode (.bhtrace d a)) s
    (s.writeReg d s.fieldWords (gfHalfTrace s.fieldPoly s.degree (s.srcF a)))

/-- BMULX: the unreduced product, `2 FN` limbs (R166). -/
def execBmulx (d a b : VIdx) (s : State) : Result :=
  commit (firstFailure (s.binaryChecks [a, b])) (encode (.bmulx d a b)) s
    (s.writeReg d (2 * s.fieldWords) (clmul (s.srcF a) (s.srcF b)))

end Sys2Proof.Machine
end

