-- ==== Sys2Proof/Machine/IntegerCore.lean ====
section
/-!
DEFINITION. The fixed-width integer core (40_integer_core.md): no check, no error after decode, every aliasing of
registers allowed, since all sources are read before the write (R100, 70_reset_and_hazards.md R270).
-/

namespace Sys2Proof.Machine

/-- ADD (R101). -/
def execAdd (d a b : VIdx) (s : State) : Result :=
  endCarry s d ((s.srcN a + s.srcN b) % s.base) (carryOut (s.srcN a + s.srcN b) s.base)

/-- SUB (R102). -/
def execSub (d a b : VIdx) (s : State) : Result :=
  endCarry s d (subMod (s.srcN a) (s.srcN b) s.base) (borrowOut (s.srcN a) (s.srcN b))

/-- INC (R103). -/
def execInc (d a : VIdx) (s : State) : Result :=
  endCarry s d ((s.srcN a + 1) % s.base) (incWrap (s.srcN a) s.base)

/-- DEC (R104). -/
def execDec (d a : VIdx) (s : State) : Result :=
  endCarry s d (subMod (s.srcN a) 1 s.base) (decWrap (s.srcN a))

/-- MUL: the exact product, `2N` limbs; CW is not touched (R105). -/
def execMul (d a b : VIdx) (s : State) : Result :=
  endWide s d (s.srcN a * s.srcN b)

/-- SQR: the exact square, `2N` limbs (R106). -/
def execSqr (d a : VIdx) (s : State) : Result :=
  endWide s d (s.srcN a * s.srcN a)

/-- SHL1 (R107). -/
def execShl1 (d a : VIdx) (ci : Bool) (s : State) : Result :=
  shiftUp s d a ci 1

/-- SHR1 (R108). -/
def execShr1 (d a : VIdx) (ci : Bool) (s : State) : Result :=
  shiftDown s d a ci 1

/-- SHLN (R109). -/
def execShln (d a : VIdx) (ci : Bool) (k : BitVec 5) (s : State) : Result :=
  shiftUp s d a ci k.toNat

/-- SHRN (R110). -/
def execShrn (d a : VIdx) (ci : Bool) (k : BitVec 5) (s : State) : Result :=
  shiftDown s d a ci k.toNat

/-- GTE (R111). -/
def execGte (a b : VIdx) (s : State) : Result :=
  endTest s (gteFlag (s.srcN a) (s.srcN b))

/-- ISZERO (R112). -/
def execIszero (a : VIdx) (s : State) : Result :=
  endTest s (isZeroFlag (s.srcN a))

/-- ISONE (R113). -/
def execIsone (a : VIdx) (s : State) : Result :=
  endTest s (isOneFlag (s.srcN a))

end Sys2Proof.Machine
end

