-- ==== Sys2Proof/Machine/PrimeField.lean ====
section
/-!
DEFINITION. The prime-field commands (41_prime_field.md). Each computes its formula for the installed odd `p >= 3`,
prime or not (R132). The word an error records is the command's own (log entry 4).
-/

namespace Sys2Proof.Machine

/-- FSETP: install a prime descriptor, or E_DESC and the old one stays (R131). -/
def execFsetp (a : VIdx) (s : State) : Result :=
  commit (firstFailure [(!s.primeDescOk a, .desc)]) (encode (.fsetp a)) s (s.installPrime a)

/-- FCHK: validate an imported value (R134). -/
def execFchk (a : VIdx) (s : State) : Result :=
  endElementCheck s (encode (.fchk a)) .prime (s.canonP a)

/-- FADD (R135). -/
def execFadd (d a b : VIdx) (s : State) : Result :=
  endPrime s (encode (.fadd d a b)) [a, b] d ((s.srcF a + s.srcF b) % s.modulus)

/-- FSUB (R136). -/
def execFsub (d a b : VIdx) (s : State) : Result :=
  endPrime s (encode (.fsub d a b)) [a, b] d (subMod (s.srcF a) (s.srcF b) s.modulus)

/-- FADD1 (R137). -/
def execFadd1 (d a : VIdx) (s : State) : Result :=
  endPrime s (encode (.fadd1 d a)) [a] d ((s.srcF a + 1) % s.modulus)

/-- FNEG (R138). -/
def execFneg (d a : VIdx) (s : State) : Result :=
  endPrime s (encode (.fneg d a)) [a] d ((s.modulus - s.srcF a) % s.modulus)

/-- FHALF: the sum of the odd case is exact, one bit wider than the field (R139). -/
def execFhalf (d a : VIdx) (s : State) : Result :=
  endPrime s (encode (.fhalf d a)) [a] d (if s.srcF a % 2 = 0 then s.srcF a >>> 1 else (s.srcF a + s.modulus) >>> 1)

/-- FTWICE (R140). -/
def execFtwice (d a : VIdx) (s : State) : Result :=
  endPrime s (encode (.ftwice d a)) [a] d (2 * s.srcF a % s.modulus)

/-- FMUL (R141). -/
def execFmul (d a b : VIdx) (s : State) : Result :=
  endPrime s (encode (.fmul d a b)) [a, b] d (s.srcF a * s.srcF b % s.modulus)

/-- FSQR (R142). -/
def execFsqr (d a : VIdx) (s : State) : Result :=
  endPrime s (encode (.fsqr d a)) [a] d (s.srcF a * s.srcF a % s.modulus)

/-- FRED: the double-width operand is not range-checked (R143). -/
def execFred (d a : VIdx) (s : State) : Result :=
  endPrime s (encode (.fred d a)) [] d (s.srcFF a % s.modulus)

/-- FINV: the zero test comes last; the value is `x ** (p - 2) mod p` whatever `p` is (R144). -/
def execFinv (d a : VIdx) (s : State) : Result :=
  commit (firstFailure (s.primeChecks [a] ++ s.zeroCheck a)) (encode (.finv d a)) s
    (s.writeReg d s.fieldWords (powMod s.modulus (s.srcF a) (s.modulus - 2)))

end Sys2Proof.Machine
end

