-- ==== Sys2Proof/Machine/System.lean ====
section
/-!
DEFINITION. The system commands (43_system_commands.md).
-/

namespace Sys2Proof.Machine

/-- NOP: no effect (R200). -/
def execNop (s : State) : Result :=
  .next s

/-- SETN: `N <- n`; no limb moves, `FN` stays (R201). -/
def execSetn (n : BitVec 5) (s : State) : Result :=
  .next { s with n := n }

/-- CLRERR: the return from an error (R202). -/
def execClrerr (s : State) : Result :=
  .next s.clearErr

/-- SRESET: software reset, in every state (R203, 70_reset_and_hazards.md R262). -/
def execSreset (s : State) : Result :=
  .next s.resetArch

end Sys2Proof.Machine
end

