-- ==== Sys2Proof/Machine/Dispatch.lean ====
section
/-!
DEFINITION. What each command does: the last line of the decode procedure, "execute the command's rule" (30_encoding.md
R85). The error hold and the decoding stand before it, in Port.lean.
-/

namespace Sys2Proof.Machine

def exec (i : Instr) (s : State) : Host.Outcome State Fault Refusal :=
  match i with
  | .nop => Sys2Proof.Machine.execNop s
  | .setn n => Sys2Proof.Machine.execSetn n s
  | .clrerr => Sys2Proof.Machine.execClrerr s
  | .sreset => Sys2Proof.Machine.execSreset s
  | .add d a b => Sys2Proof.Machine.execAdd d a b s
  | .sub d a b => Sys2Proof.Machine.execSub d a b s
  | .inc d a => Sys2Proof.Machine.execInc d a s
  | .dec d a => Sys2Proof.Machine.execDec d a s
  | .mul d a b => Sys2Proof.Machine.execMul d a b s
  | .sqr d a => Sys2Proof.Machine.execSqr d a s
  | .shl1 d a ci => Sys2Proof.Machine.execShl1 d a ci s
  | .shr1 d a ci => Sys2Proof.Machine.execShr1 d a ci s
  | .shln d a ci k => Sys2Proof.Machine.execShln d a ci k s
  | .shrn d a ci k => Sys2Proof.Machine.execShrn d a ci k s
  | .gte a b => Sys2Proof.Machine.execGte a b s
  | .iszero a => Sys2Proof.Machine.execIszero a s
  | .isone a => Sys2Proof.Machine.execIsone a s
  | .fsetp a => Sys2Proof.Machine.execFsetp a s
  | .fchk a => Sys2Proof.Machine.execFchk a s
  | .fadd d a b => Sys2Proof.Machine.execFadd d a b s
  | .fsub d a b => Sys2Proof.Machine.execFsub d a b s
  | .fadd1 d a => Sys2Proof.Machine.execFadd1 d a s
  | .fneg d a => Sys2Proof.Machine.execFneg d a s
  | .fhalf d a => Sys2Proof.Machine.execFhalf d a s
  | .ftwice d a => Sys2Proof.Machine.execFtwice d a s
  | .fmul d a b => Sys2Proof.Machine.execFmul d a b s
  | .fsqr d a => Sys2Proof.Machine.execFsqr d a s
  | .fred d a => Sys2Proof.Machine.execFred d a s
  | .finv d a => Sys2Proof.Machine.execFinv d a s
  | .bsetf a => Sys2Proof.Machine.execBsetf a s
  | .bchk a => Sys2Proof.Machine.execBchk a s
  | .badd d a b => Sys2Proof.Machine.execBadd d a b s
  | .bmul d a b => Sys2Proof.Machine.execBmul d a b s
  | .bsqr d a => Sys2Proof.Machine.execBsqr d a s
  | .bsqrn d a k => Sys2Proof.Machine.execBsqrn d a k s
  | .bsqrt d a => Sys2Proof.Machine.execBsqrt d a s
  | .bred d a => Sys2Proof.Machine.execBred d a s
  | .binv d a => Sys2Proof.Machine.execBinv d a s
  | .btrace a => Sys2Proof.Machine.execBtrace a s
  | .bhtrace d a => Sys2Proof.Machine.execBhtrace d a s
  | .bmulx d a b => Sys2Proof.Machine.execBmulx d a b s

end Sys2Proof.Machine
end

