-- ==== Sys2Proof/Machine/Port.lean ====
section
/-!
DEFINITION. The host port: the register map (10_state.md R32), its views (R31 to R39), reads and writes (20_memory.md R52
to R56), the handling of a word written to CMD (60_exceptions.md R223, R225), and one host action (00_scope.md R15).
-/

namespace Sys2Proof.Machine

/-- A location of the register map (10_state.md R32). -/
inductive Loc where
  | id
  | cmd
  | status
  | cw
  | cfg
  | fdesc
  | fpoly
  | ecmd
  | p (j : Fin 18)
  | v (i : VIdx) (j : Fin 36)
  | unmapped
deriving DecidableEq, Repr

/-- The location of a 4-byte-aligned address: the control words, the modulus at 0x0100, the vector registers on a
256-byte stride from 0x1000 with 28 unused words after each (R32). -/
def locate (addr : Addr) : Loc :=
  let a := addr.toNat
  if a = 0x0000 then .id
  else if a = 0x0004 then .cmd
  else if a = 0x0008 then .status
  else if a = 0x000C then .cw
  else if a = 0x0010 then .cfg
  else if a = 0x0014 then .fdesc
  else if a = 0x0018 then .fpoly
  else if a = 0x001C then .ecmd
  else if hp : 0x0100 ≤ a ∧ (a - 0x0100) / 4 < 18 then .p ⟨(a - 0x0100) / 4, hp.2⟩
  else if hv : 0x1000 ≤ a ∧ (a - 0x1000) / 0x100 < 8 ∧ a % 0x100 / 4 < 36 then
    .v ⟨(a - 0x1000) / 0x100, hv.2.1⟩ ⟨a % 0x100 / 4, hv.2.2⟩
  else .unmapped

/-- STATUS (R31): ERR in bits 2:0, FATAL in bit 3, T in bit 4, KIND in bits 6:5. -/
def State.statusWord (s : State) : Word :=
  0#25 ++ s.kind.code ++ BitVec.ofBool s.t ++ BitVec.ofBool (decide (s.err = .invZero)) ++ s.err.code

/-- CFG (R35): N in bits 4:0, FN in bits 12:8. -/
def State.cfgWord (s : State) : Word :=
  0#19 ++ s.fn ++ 0#3 ++ s.n

/-- FDESC (R36): M in bits 9:0. -/
def State.fdescWord (s : State) : Word :=
  0#22 ++ s.m

/-- FPOLY (R37): K1 in bits 9:0, K2 in bits 19:10, K3 in bits 29:20. -/
def State.fpolyWord (s : State) : Word :=
  0#2 ++ s.k3 ++ s.k2 ++ s.k1

/-- What a location reads as, where it can be read (R31 to R39); CMD reads as 0 (R34, 20_memory.md R56). -/
def State.readLoc (s : State) : Loc → Option Word
  | .id => some Config.idWord
  | .cmd => some 0
  | .status => some s.statusWord
  | .cw => some s.cw
  | .cfg => some s.cfgWord
  | .fdesc => some s.fdescWord
  | .fpoly => some s.fpolyWord
  | .ecmd => some s.ecmd
  | .p j => some s.p[j.val]
  | .v i j => some (s.v[i.val])[j.val]
  | .unmapped => none

/-- The words that still act while an error is pending (60_exceptions.md R225). -/
def sresetWord : Word := 0x03000000#32

/-- See `sresetWord`. -/
def clrerrWord : Word := 0x02000000#32

/-- Error hold: what a word written to CMD does while `ERR != 0` (R225). -/
def hold (w : Word) (s : State) : Result :=
  if w = sresetWord then exec .sreset s
  else if w = clrerrWord ∧ s.err ≠ .invZero then exec .clrerr s
  else .next s

/-- A word written to CMD (R223): error hold; else decode, a failure being E_ILLEGAL; else the command's rule. -/
def issue (w : Word) (s : State) : Result :=
  if s.err ≠ .none then hold w s
  else
    match decode w with
    | .error _ => .next (s.raise .illegal w)
    | .ok i => exec i s

/-- A legal request: 4 bytes wide, at a multiple of 4 (20_memory.md R54). -/
def Request.legal (r : Request) : Bool :=
  decide (r.size = 4 ∧ r.addr.toNat % 4 = 0)

/-- A read (R52, R56): no state changes but that the port answers. -/
def portRead (addr : Addr) (s : State) : Result :=
  match s.readLoc (locate addr) with
  | some x => .next (s.respond .ok (some x))
  | none => .next (s.respond .error (some 0))

/-- A write (R53, R56): V limbs and CW take the word in every state of ERR, CMD takes it as a command, nothing else is
writable. The write that delivers a command is answered OK whatever the command comes to (60_exceptions.md R224). -/
def portWrite (addr : Addr) (x : Word) (s : State) : Result :=
  match locate addr with
  | .cmd => onNext (State.respond · .ok none) (issue x s)
  | .cw => .next ((s.setCw x).respond .ok none)
  | .v i j => .next ((s.writeLimb i j x).respond .ok none)
  | .id => .next (s.respond .error none)
  | .status => .next (s.respond .error none)
  | .cfg => .next (s.respond .error none)
  | .fdesc => .next (s.respond .error none)
  | .fpoly => .next (s.respond .error none)
  | .ecmd => .next (s.respond .error none)
  | .p _ => .next (s.respond .error none)
  | .unmapped => .next (s.respond .error none)

/-- An illegal request is answered ERROR: a read with data 0, a write with nothing changed and no command issued (R54). -/
def portReject (kind : AccessKind) (s : State) : Result :=
  match kind with
  | .read => .next (s.respond .error (some 0))
  | .write => .next (s.respond .error none)

/-- One port access (R50 to R56). -/
def access (r : Request) (s : State) : Result :=
  if r.legal then
    match r.kind with
    | .read => portRead r.addr s
    | .write => portWrite r.addr r.wdata s
  else portReject r.kind s

/-- One host action (00_scope.md R15): an access, or reset by the pin (70_reset_and_hazards.md R260). -/
def perform (h : HostAction) (s : State) : Result :=
  match h with
  | .access r => access r s
  | .rst => .next s.resetArch

/-- Take the next host action from the inbox. With none left the block is idle and keeps all its state
(60_exceptions.md R249; log entry 2). -/
def takeNext (s : State) : Result :=
  match s.inbox with
  | [] => .next s
  | h :: rest => perform h { s with inbox := rest }

/-- The host action that writes the word `w` to CMD (30_encoding.md R96). -/
def writeCmd (w : Word) : HostAction :=
  .access { kind := .write, addr := 0x0004, size := 4, wdata := w }

/-- The host's next action becomes the write of the low `nbits` bits of `w` to CMD. -/
def deliver (nbits w : Nat) (s : State) : State :=
  { s with inbox := writeCmd (BitVec.ofNat 32 (w % 2 ^ nbits)) :: s.inbox }

end Sys2Proof.Machine
end

