-- ==== Sys2Proof/Machine/Step.lean ====
section
/-!
DEFINITION. One step: the next host action (00_scope.md R15), a command running to completion within it (20_memory.md
R51).
-/

namespace Sys2Proof.Machine

/-- One step of the machine. -/
def step (s : State) : Host.Outcome State Fault Refusal :=
  takeNext s

/-- The state in which the next step delivers the command word in the low `nbits` bits of `w`: the FFAU fetches nothing,
so the word is put first among the host's coming writes to CMD (log entry 1). Nothing else changes; in an error hold the
delivered word is handled as the hold says. -/
def State.withFetchWord (s : State) (nbits w : Nat) : State :=
  deliver nbits w s

end Sys2Proof.Machine
end

