-- ==== Sys2Proof/Machine/Assembler.lean ====
section
/-!
DEFINITION. The assembler syntax of 30_encoding.md R95: a command line as its mnemonic, its `.C` suffix and its operands,
the line of each command, and the command of each line. A number is a natural number; how its digits are read is left to
the text the line came from.
-/

namespace Sys2Proof.Machine

/-- An operand of a command line (R95). -/
inductive AsmOperand where
  | reg (r : VIdx)
  | num (x : Nat)
deriving DecidableEq, Repr

/-- A command line (R95). -/
structure AsmLine where
  mnemonic : String
  carry : Bool
  operands : List AsmOperand
deriving DecidableEq, Repr

/-- The mnemonics of R84. -/
def mnemonic : Instr → String
  | .nop => "NOP"
  | .setn _ => "SETN"
  | .clrerr => "CLRERR"
  | .sreset => "SRESET"
  | .add _ _ _ => "ADD"
  | .sub _ _ _ => "SUB"
  | .inc _ _ => "INC"
  | .dec _ _ => "DEC"
  | .mul _ _ _ => "MUL"
  | .sqr _ _ => "SQR"
  | .shl1 _ _ _ => "SHL1"
  | .shr1 _ _ _ => "SHR1"
  | .shln _ _ _ _ => "SHLN"
  | .shrn _ _ _ _ => "SHRN"
  | .gte _ _ => "GTE"
  | .iszero _ => "ISZERO"
  | .isone _ => "ISONE"
  | .fsetp _ => "FSETP"
  | .fchk _ => "FCHK"
  | .fadd _ _ _ => "FADD"
  | .fsub _ _ _ => "FSUB"
  | .fadd1 _ _ => "FADD1"
  | .fneg _ _ => "FNEG"
  | .fhalf _ _ => "FHALF"
  | .ftwice _ _ => "FTWICE"
  | .fmul _ _ _ => "FMUL"
  | .fsqr _ _ => "FSQR"
  | .fred _ _ => "FRED"
  | .finv _ _ => "FINV"
  | .bsetf _ => "BSETF"
  | .bchk _ => "BCHK"
  | .badd _ _ _ => "BADD"
  | .bmul _ _ _ => "BMUL"
  | .bsqr _ _ => "BSQR"
  | .bsqrn _ _ _ => "BSQRN"
  | .bsqrt _ _ => "BSQRT"
  | .bred _ _ => "BRED"
  | .binv _ _ => "BINV"
  | .btrace _ => "BTRACE"
  | .bhtrace _ _ => "BHTRACE"
  | .bmulx _ _ _ => "BMULX"

/-- The operands of a command's line, destination first, then sources, then the immediate (R95). -/
def asmOperands : Instr → List AsmOperand
  | .nop => []
  | .setn n => [.num n.toNat]
  | .clrerr => []
  | .sreset => []
  | .add d a b => [.reg d, .reg a, .reg b]
  | .sub d a b => [.reg d, .reg a, .reg b]
  | .inc d a => [.reg d, .reg a]
  | .dec d a => [.reg d, .reg a]
  | .mul d a b => [.reg d, .reg a, .reg b]
  | .sqr d a => [.reg d, .reg a]
  | .shl1 d a _ => [.reg d, .reg a]
  | .shr1 d a _ => [.reg d, .reg a]
  | .shln d a _ k => [.reg d, .reg a, .num k.toNat]
  | .shrn d a _ k => [.reg d, .reg a, .num k.toNat]
  | .gte a b => [.reg a, .reg b]
  | .iszero a => [.reg a]
  | .isone a => [.reg a]
  | .fsetp a => [.reg a]
  | .fchk a => [.reg a]
  | .fadd d a b => [.reg d, .reg a, .reg b]
  | .fsub d a b => [.reg d, .reg a, .reg b]
  | .fadd1 d a => [.reg d, .reg a]
  | .fneg d a => [.reg d, .reg a]
  | .fhalf d a => [.reg d, .reg a]
  | .ftwice d a => [.reg d, .reg a]
  | .fmul d a b => [.reg d, .reg a, .reg b]
  | .fsqr d a => [.reg d, .reg a]
  | .fred d a => [.reg d, .reg a]
  | .finv d a => [.reg d, .reg a]
  | .bsetf a => [.reg a]
  | .bchk a => [.reg a]
  | .badd d a b => [.reg d, .reg a, .reg b]
  | .bmul d a b => [.reg d, .reg a, .reg b]
  | .bsqr d a => [.reg d, .reg a]
  | .bsqrn d a k => [.reg d, .reg a, .num k.toNat]
  | .bsqrt d a => [.reg d, .reg a]
  | .bred d a => [.reg d, .reg a]
  | .binv d a => [.reg d, .reg a]
  | .btrace a => [.reg a]
  | .bhtrace d a => [.reg d, .reg a]
  | .bmulx d a b => [.reg d, .reg a, .reg b]

/-- The suffix `.C` stands for CI = 1 (R95). -/
def asmCarry : Instr → Bool
  | .shl1 _ _ ci => ci
  | .shr1 _ _ ci => ci
  | .shln _ _ ci _ => ci
  | .shrn _ _ ci _ => ci
  | _ => false

/-- The line of a command (R95). -/
def disassemble (i : Instr) : AsmLine :=
  { mnemonic := mnemonic i, carry := asmCarry i, operands := asmOperands i }

/-- An operand's text (R95). -/
def AsmOperand.text : AsmOperand → String
  | .reg r => "V" ++ toString r.val
  | .num x => toString x

/-- A line's text (R95). -/
def AsmLine.text (l : AsmLine) : String :=
  let head := l.mnemonic ++ (if l.carry then ".C" else "")
  match l.operands with
  | [] => head
  | os => head ++ " " ++ ", ".intercalate (os.map AsmOperand.text)

/-- The commands a mnemonic can stand for with the given suffix and operands, before the immediates are checked (R95). -/
def assembleRaw (mn : String) (carry : Bool) (ops : List AsmOperand) : Option Instr :=
  match mn, carry, ops with
  | "NOP", false, [] => some .nop
  | "SETN", false, [.num n] => if n < 32 then some (.setn (BitVec.ofNat 5 n)) else none
  | "CLRERR", false, [] => some .clrerr
  | "SRESET", false, [] => some .sreset
  | "ADD", false, [.reg d, .reg a, .reg b] => some (.add d a b)
  | "SUB", false, [.reg d, .reg a, .reg b] => some (.sub d a b)
  | "INC", false, [.reg d, .reg a] => some (.inc d a)
  | "DEC", false, [.reg d, .reg a] => some (.dec d a)
  | "MUL", false, [.reg d, .reg a, .reg b] => some (.mul d a b)
  | "SQR", false, [.reg d, .reg a] => some (.sqr d a)
  | "SHL1", c, [.reg d, .reg a] => some (.shl1 d a c)
  | "SHR1", c, [.reg d, .reg a] => some (.shr1 d a c)
  | "SHLN", c, [.reg d, .reg a, .num k] => if k < 32 then some (.shln d a c (BitVec.ofNat 5 k)) else none
  | "SHRN", c, [.reg d, .reg a, .num k] => if k < 32 then some (.shrn d a c (BitVec.ofNat 5 k)) else none
  | "GTE", false, [.reg a, .reg b] => some (.gte a b)
  | "ISZERO", false, [.reg a] => some (.iszero a)
  | "ISONE", false, [.reg a] => some (.isone a)
  | "FSETP", false, [.reg a] => some (.fsetp a)
  | "FCHK", false, [.reg a] => some (.fchk a)
  | "FADD", false, [.reg d, .reg a, .reg b] => some (.fadd d a b)
  | "FSUB", false, [.reg d, .reg a, .reg b] => some (.fsub d a b)
  | "FADD1", false, [.reg d, .reg a] => some (.fadd1 d a)
  | "FNEG", false, [.reg d, .reg a] => some (.fneg d a)
  | "FHALF", false, [.reg d, .reg a] => some (.fhalf d a)
  | "FTWICE", false, [.reg d, .reg a] => some (.ftwice d a)
  | "FMUL", false, [.reg d, .reg a, .reg b] => some (.fmul d a b)
  | "FSQR", false, [.reg d, .reg a] => some (.fsqr d a)
  | "FRED", false, [.reg d, .reg a] => some (.fred d a)
  | "FINV", false, [.reg d, .reg a] => some (.finv d a)
  | "BSETF", false, [.reg a] => some (.bsetf a)
  | "BCHK", false, [.reg a] => some (.bchk a)
  | "BADD", false, [.reg d, .reg a, .reg b] => some (.badd d a b)
  | "BMUL", false, [.reg d, .reg a, .reg b] => some (.bmul d a b)
  | "BSQR", false, [.reg d, .reg a] => some (.bsqr d a)
  | "BSQRN", false, [.reg d, .reg a, .num k] => if k < 4096 then some (.bsqrn d a (BitVec.ofNat 12 k)) else none
  | "BSQRT", false, [.reg d, .reg a] => some (.bsqrt d a)
  | "BRED", false, [.reg d, .reg a] => some (.bred d a)
  | "BINV", false, [.reg d, .reg a] => some (.binv d a)
  | "BTRACE", false, [.reg a] => some (.btrace a)
  | "BHTRACE", false, [.reg d, .reg a] => some (.bhtrace d a)
  | "BMULX", false, [.reg d, .reg a, .reg b] => some (.bmulx d a b)
  | _, _, _ => none

/-- The command a line stands for, where it stands for a legal one (R95, R83). -/
def assemble (l : AsmLine) : Option Instr :=
  (assembleRaw l.mnemonic l.carry l.operands).filter Instr.wellFormed

end Sys2Proof.Machine
end

