-- ==== Sys2Proof/Machine/Program.lean ====
section
/-!
DEFINITION. Programs (43_system_commands.md R207): the host directives of 30_encoding.md R96 as host actions, and the
execution of a list of them as the fold of the access rules.
-/

namespace Sys2Proof.Machine

/-- `WR addr, value` (R96). -/
def hostWr (addr : Addr) (value : Word) : HostAction :=
  .access { kind := .write, addr := addr, size := 4, wdata := value }

/-- `RD addr` (R96). -/
def hostRd (addr : Addr) : HostAction :=
  .access { kind := .read, addr := addr, size := 4, wdata := 0 }

/-- A bare command line (R96). -/
def hostCmd (i : Instr) : HostAction :=
  writeCmd (encode i)

/-- The port address of limb `j` of `Vi` (20_memory.md R57). -/
def limbAddr (i : VIdx) (j : Nat) : Addr :=
  BitVec.ofNat 13 (0x1000 + 0x100 * i.val + 4 * j)

/-- `LOAD Vi, [a0, a1, ...]` (R96), from limb `j` on. -/
def hostLoadFrom (i : VIdx) : Nat → List Limb → List HostAction
  | _, [] => []
  | j, x :: xs => hostWr (limbAddr i j) x :: hostLoadFrom i (j + 1) xs

/-- `LOAD Vi, [a0, a1, ...]` (R96). -/
def hostLoad (i : VIdx) (limbs : List Limb) : List HostAction :=
  hostLoadFrom i 0 limbs

/-- The execution of a program from a state: the fold of the access rules over the list (R207). -/
def runProgram : List HostAction → State → Result
  | [], s => .next s
  | h :: rest, s =>
    match perform h s with
    | .next t => runProgram rest t
    | .fault e => .fault e
    | .refused e => .refused e

end Sys2Proof.Machine
end

