-- ==== Sys2Proof/Safety.lean ====
section
/-!
DEFINITION. The terms the claims are made in: the well-formedness of reachable states (10_state.md R41), what a command
leaves unchanged, which registers a field command reads and writes, and clean runs (43_system_commands.md R207).
-/

namespace Sys2Proof.Machine

/-- R41 for `KIND = 0`: no descriptor of either kind. -/
abbrev State.noDescriptor (s : State) : Prop :=
  s.fn = 0 ∧ s.p = Vector.replicate 18 0#32 ∧ s.m = 0 ∧ s.k1 = 0 ∧ s.k2 = 0 ∧ s.k3 = 0

/-- R41 for `KIND = 1` (R28): a modulus of `FN` limbs that is odd, at least 3 and fills its top limb. -/
abbrev State.primeDescriptor (s : State) : Prop :=
  (1 ≤ s.fieldWords ∧ s.fieldWords ≤ 18) ∧ (s.m = 0 ∧ s.k1 = 0 ∧ s.k2 = 0 ∧ s.k3 = 0) ∧
    s.p.toList.getD (s.fieldWords - 1) 0 ≠ 0 ∧ (∀ j : Fin 18, s.fieldWords ≤ j.val → s.p[j.val] = 0#32) ∧
    s.modulus % 2 = 1 ∧ 3 ≤ s.modulus

/-- R41 for `KIND = 2` (R29): a trinomial or a pentanomial of a degree in range. -/
abbrev State.binaryDescriptor (s : State) : Prop :=
  s.p = Vector.replicate 18 0#32 ∧ (2 ≤ s.degree ∧ s.degree ≤ 576) ∧ s.fieldWords = (s.degree + 31) / 32 ∧
    ((s.k2 = 0 ∧ s.k3 = 0 ∧ 1 ≤ s.k1.toNat ∧ s.k1.toNat < s.degree) ∨
      (1 ≤ s.k1.toNat ∧ s.k1.toNat < s.k2.toNat ∧ s.k2.toNat < s.k3.toNat ∧ s.k3.toNat < s.degree))

/-- The invariant of every state reachable from reset (10_state.md R41). That `KIND` and `ERR` take no other code holds by
their types. -/
abbrev State.wf (s : State) : Prop :=
  (1 ≤ s.words ∧ s.words ≤ 18) ∧ (s.kind = .none → s.noDescriptor) ∧ (s.kind = .prime → s.primeDescriptor) ∧
    (s.kind = .binary → s.binaryDescriptor)

/-- All but the vector registers, `CW` and `T` is the same: word count, descriptor, error record, and the port's side. -/
abbrev SameControl (s t : State) : Prop :=
  t.n = s.n ∧ t.kind = s.kind ∧ t.fn = s.fn ∧ t.p = s.p ∧ t.m = s.m ∧ t.k1 = s.k1 ∧ t.k2 = s.k2 ∧ t.k3 = s.k3 ∧
    t.err = s.err ∧ t.ecmd = s.ecmd ∧ t.inbox = s.inbox ∧ t.outbox = s.outbox

/-- No limb but limbs `[0, len)` of register `d` changes (10_state.md R22). -/
def OnlyLow (s t : State) (d : VIdx) (len : Nat) : Prop :=
  ∀ (r : VIdx) (j : Nat), (r = d ∧ j < len) ∨ t.limb r j = s.limb r j

/-- The frame of a field command that writes limbs `[0, len)` of `d` and no flag. -/
def OnlyResult (s t : State) (d : VIdx) (len : Nat) : Prop :=
  OnlyLow s t d len ∧ t.cw = s.cw ∧ t.t = s.t ∧ SameControl s t

/-- The frame of a command that writes nothing but `T`. -/
def OnlyT (s t : State) : Prop :=
  t.v = s.v ∧ t.cw = s.cw ∧ SameControl s t

/-- `raise E(w)` as R224 writes it: ERR and ECMD, and nothing else. -/
def Raises (i : Instr) (e : ErrCode) (s : State) : Prop :=
  exec i s = .next { s with err := e, ecmd := encode i }

/-- What R130 says of a prime-field command `i` with destination `d`, single-width sources `srcs` and result `z`: without a
prime descriptor it raises E_NOFIELD, with a source that is not canonical E_ELEMENT, and else it ends with `z`, which is
canonical, in the low `FN` limbs of `d` and nothing else changed. -/
def PrimeCommand (i : Instr) (d : VIdx) (srcs : List VIdx) (z : Nat) (s : State) : Prop :=
  (s.kind ≠ .prime → Raises i .noField s) ∧
    (s.kind = .prime → (∃ r ∈ srcs, s.modulus ≤ s.srcF r) → Raises i .element s) ∧
    (s.kind = .prime → (∀ r ∈ srcs, s.srcF r < s.modulus) →
      ∃ t, exec i s = .next t ∧ t.srcF d = z ∧ z < s.modulus ∧ OnlyResult s t d s.fieldWords)

/-- What R162 says of a binary-field command `i` with destination `d`, single-width sources `srcs` and an `FN`-limb result
`z`, by the same three cases. -/
def BinaryCommand (i : Instr) (d : VIdx) (srcs : List VIdx) (z : Nat) (s : State) : Prop :=
  (s.kind ≠ .binary → Raises i .noField s) ∧
    (s.kind = .binary → (∃ r ∈ srcs, 2 ^ s.degree ≤ s.srcF r) → Raises i .element s) ∧
    (s.kind = .binary → (∀ r ∈ srcs, s.srcF r < 2 ^ s.degree) →
      ∃ t, exec i s = .next t ∧ t.srcF d = z ∧ z < 2 ^ s.degree ∧ OnlyResult s t d s.fieldWords)

/-- The commands that write `CW` (10_state.md R24). -/
def writesCw : Instr → Bool
  | .add _ _ _ => true
  | .sub _ _ _ => true
  | .inc _ _ => true
  | .dec _ _ => true
  | .shl1 _ _ _ => true
  | .shr1 _ _ _ => true
  | .shln _ _ _ _ => true
  | .shrn _ _ _ _ => true
  | .sreset => true
  | _ => false

/-- The commands that write `T` (10_state.md R25). -/
def writesT : Instr → Bool
  | .gte _ _ => true
  | .iszero _ => true
  | .isone _ => true
  | .fchk _ => true
  | .bchk _ => true
  | .btrace _ => true
  | .sreset => true
  | _ => false

/-- `x ** e` in GF(2)[t]/(f) as `e` multiplications by `x` (42_binary_field.md R172). -/
def polyPower (f x : Nat) : Nat → Nat
  | 0 => pmod 1 f
  | e + 1 => gfMul f (polyPower f x e) x

/-- How many low limbs of its source registers a command reads (10_state.md R22; BSETF reads limbs 0 to 3). -/
def readLen (i : Instr) (s : State) : Nat :=
  match i with
  | .nop => 0
  | .setn _ => 0
  | .clrerr => 0
  | .sreset => 0
  | .add _ _ _ => s.words
  | .sub _ _ _ => s.words
  | .inc _ _ => s.words
  | .dec _ _ => s.words
  | .mul _ _ _ => s.words
  | .sqr _ _ => s.words
  | .shl1 _ _ _ => s.words
  | .shr1 _ _ _ => s.words
  | .shln _ _ _ _ => s.words
  | .shrn _ _ _ _ => s.words
  | .gte _ _ => s.words
  | .iszero _ => s.words
  | .isone _ => s.words
  | .fsetp _ => s.words
  | .fchk _ => s.fieldWords
  | .fadd _ _ _ => s.fieldWords
  | .fsub _ _ _ => s.fieldWords
  | .fadd1 _ _ => s.fieldWords
  | .fneg _ _ => s.fieldWords
  | .fhalf _ _ => s.fieldWords
  | .ftwice _ _ => s.fieldWords
  | .fmul _ _ _ => s.fieldWords
  | .fsqr _ _ => s.fieldWords
  | .fred _ _ => 2 * s.fieldWords
  | .finv _ _ => s.fieldWords
  | .bsetf _ => 4
  | .bchk _ => s.fieldWords
  | .badd _ _ _ => s.fieldWords
  | .bmul _ _ _ => s.fieldWords
  | .bsqr _ _ => s.fieldWords
  | .bsqrn _ _ _ => s.fieldWords
  | .bsqrt _ _ => s.fieldWords
  | .bred _ _ => 2 * s.fieldWords
  | .binv _ _ => s.fieldWords
  | .btrace _ => s.fieldWords
  | .bhtrace _ _ => s.fieldWords
  | .bmulx _ _ _ => s.fieldWords

/-- The registers a command names as sources (30_encoding.md R82). -/
def sources : Instr → List VIdx
  | .nop => []
  | .setn _ => []
  | .clrerr => []
  | .sreset => []
  | .add _ a b => [a, b]
  | .sub _ a b => [a, b]
  | .inc _ a => [a]
  | .dec _ a => [a]
  | .mul _ a b => [a, b]
  | .sqr _ a => [a]
  | .shl1 _ a _ => [a]
  | .shr1 _ a _ => [a]
  | .shln _ a _ _ => [a]
  | .shrn _ a _ _ => [a]
  | .gte a b => [a, b]
  | .iszero a => [a]
  | .isone a => [a]
  | .fsetp a => [a]
  | .fchk a => [a]
  | .fadd _ a b => [a, b]
  | .fsub _ a b => [a, b]
  | .fadd1 _ a => [a]
  | .fneg _ a => [a]
  | .fhalf _ a => [a]
  | .ftwice _ a => [a]
  | .fmul _ a b => [a, b]
  | .fsqr _ a => [a]
  | .fred _ a => [a]
  | .finv _ a => [a]
  | .bsetf a => [a]
  | .bchk a => [a]
  | .badd _ a b => [a, b]
  | .bmul _ a b => [a, b]
  | .bsqr _ a => [a]
  | .bsqrn _ a _ => [a]
  | .bsqrt _ a => [a]
  | .bred _ a => [a]
  | .binv _ a => [a]
  | .btrace a => [a]
  | .bhtrace _ a => [a]
  | .bmulx _ a b => [a, b]

/-- A polynomial over GF(2), other than 0 and 1, that is a product only with a factor 1 (42_binary_field.md R178). -/
def PolyIrreducible (f : Nat) : Prop :=
  2 ≤ f ∧ ∀ g h : Nat, clmul g h = f → g = 1 ∨ h = 1

/-- The end of a clean run: no error pending and no access answered ERROR (43_system_commands.md R207). -/
abbrev State.clean (s : State) : Prop :=
  s.err = .none ∧ ∀ r ∈ s.outbox, r.status = .ok

end Sys2Proof.Machine
end

