-- ==== Sys2Proof/Certificates/Slice0/Obligations.lean ====
section
/-!
DEFINITION. The statements about the FFAU, from the numbered rules of spec/. A statement about `exec` is about the last
line of the decode procedure (30_encoding.md R85), which a run reaches only with no error pending (60_exceptions.md R225):
hence its hypothesis `s.err = .none`. `s.wf` is the invariant of 10_state.md R41, kept by every step (WfKeptByStep).
In the statements about `step`, the lists `inbox` and `outbox` are the model's own fields (its choice, log entry 1), the
response to a write carries no data (its choice, log entry 6), and reset by the pin is one host action (log entry 3). In the
statements about commands, the word an error records is `encode` of the command (log entry 4; DecodeOfEncode and
EncodeOfDecode say that it is the word the host wrote).
-/

open Sys2Proof Sys2Proof.Machine

/-! ## Encoding -/

/-- R95, R85: the decoder reads every legal command back from its word. -/
def Obligations.DecodeOfEncode : Prop :=
  ∀ i : Instr, i.wellFormed = true → decode (encode i) = .ok i

/-- R85, R86: a word that decodes is the word of a legal command, so no two words are one command and no bit is dropped. -/
def Obligations.EncodeOfDecode : Prop :=
  ∀ (w : Word) (i : Instr), decode w = .ok i → encode i = w ∧ i.wellFormed = true

/-- A row of spec/opcode_table.json: mnemonic, match, mask and constraint (R85). -/
structure Sys2Proof.OpcodeRow where
  name : String
  bits : Word
  mask : Word
  legal : Word → Bool

/-- A word fits a row: `(w & mask) = match` and the row's constraint holds (R85). -/
def Sys2Proof.OpcodeRow.accepts (r : OpcodeRow) (w : Word) : Bool :=
  decide (w &&& r.mask = r.bits) && r.legal w

/-- The 41 rows of spec/opcode_table.json. -/
def Sys2Proof.opcodeRows : List OpcodeRow :=
  [⟨"NOP", 0x00000000, 0xFFFFFFFF, fun _ => true⟩,
    ⟨"SETN", 0x01000000, 0xFFFFFFE0, fun w => decide (1 ≤ w.toNat % 32 ∧ w.toNat % 32 ≤ 18)⟩,
    ⟨"CLRERR", 0x02000000, 0xFFFFFFFF, fun _ => true⟩,
    ⟨"SRESET", 0x03000000, 0xFFFFFFFF, fun _ => true⟩,
    ⟨"ADD", 0x10000000, 0xFF888FFF, fun _ => true⟩,
    ⟨"SUB", 0x11000000, 0xFF888FFF, fun _ => true⟩,
    ⟨"INC", 0x12000000, 0xFF88FFFF, fun _ => true⟩,
    ⟨"DEC", 0x13000000, 0xFF88FFFF, fun _ => true⟩,
    ⟨"MUL", 0x14000000, 0xFF888FFF, fun _ => true⟩,
    ⟨"SQR", 0x15000000, 0xFF88FFFF, fun _ => true⟩,
    ⟨"SHL1", 0x16000000, 0xFF88FFDF, fun _ => true⟩,
    ⟨"SHR1", 0x17000000, 0xFF88FFDF, fun _ => true⟩,
    ⟨"SHLN", 0x18000000, 0xFF88FFC0, fun w => decide (w.toNat % 32 ≠ 0)⟩,
    ⟨"SHRN", 0x19000000, 0xFF88FFC0, fun w => decide (w.toNat % 32 ≠ 0)⟩] ++
  [⟨"GTE", 0x1A000000, 0xFFF88FFF, fun _ => true⟩,
    ⟨"ISZERO", 0x1B000000, 0xFFF8FFFF, fun _ => true⟩,
    ⟨"ISONE", 0x1C000000, 0xFFF8FFFF, fun _ => true⟩,
    ⟨"FSETP", 0x20000000, 0xFFF8FFFF, fun _ => true⟩,
    ⟨"FCHK", 0x21000000, 0xFFF8FFFF, fun _ => true⟩,
    ⟨"FADD", 0x22000000, 0xFF888FFF, fun _ => true⟩,
    ⟨"FSUB", 0x23000000, 0xFF888FFF, fun _ => true⟩,
    ⟨"FADD1", 0x24000000, 0xFF88FFFF, fun _ => true⟩,
    ⟨"FNEG", 0x25000000, 0xFF88FFFF, fun _ => true⟩,
    ⟨"FHALF", 0x26000000, 0xFF88FFFF, fun _ => true⟩,
    ⟨"FTWICE", 0x27000000, 0xFF88FFFF, fun _ => true⟩,
    ⟨"FMUL", 0x28000000, 0xFF888FFF, fun _ => true⟩,
    ⟨"FSQR", 0x29000000, 0xFF88FFFF, fun _ => true⟩,
    ⟨"FRED", 0x2A000000, 0xFF88FFFF, fun _ => true⟩] ++
  [⟨"FINV", 0x2B000000, 0xFF88FFFF, fun _ => true⟩,
    ⟨"BSETF", 0x30000000, 0xFFF8FFFF, fun _ => true⟩,
    ⟨"BCHK", 0x31000000, 0xFFF8FFFF, fun _ => true⟩,
    ⟨"BADD", 0x32000000, 0xFF888FFF, fun _ => true⟩,
    ⟨"BMUL", 0x33000000, 0xFF888FFF, fun _ => true⟩,
    ⟨"BSQR", 0x34000000, 0xFF88FFFF, fun _ => true⟩,
    ⟨"BSQRN", 0x35000000, 0xFF88F000, fun w => decide (w.toNat % 4096 ≠ 0)⟩,
    ⟨"BSQRT", 0x36000000, 0xFF88FFFF, fun _ => true⟩,
    ⟨"BRED", 0x37000000, 0xFF88FFFF, fun _ => true⟩,
    ⟨"BINV", 0x38000000, 0xFF88FFFF, fun _ => true⟩,
    ⟨"BTRACE", 0x39000000, 0xFFF8FFFF, fun _ => true⟩,
    ⟨"BHTRACE", 0x3A000000, 0xFF88FFFF, fun _ => true⟩,
    ⟨"BMULX", 0x3B000000, 0xFF888FFF, fun _ => true⟩]

/-- R85: a word is a legal command exactly when it fits a row of the table, and the command is that row's. -/
def Obligations.DecodeAcceptsTableRows : Prop :=
  (∀ (w : Word) (i : Instr), decode w = .ok i → ∃ r ∈ opcodeRows, r.accepts w = true ∧ r.name = mnemonic i) ∧
    ∀ (w : Word), ∀ r ∈ opcodeRows, r.accepts w = true → ∃ i, decode w = .ok i ∧ mnemonic i = r.name

/-- R95: words of every family written out from R81 and R82 decode to the commands they stand for. -/
def Obligations.KnownWordsDecode : Prop :=
  decode 0b00000000000000000000000000000000 = .ok .nop ∧
    decode 0b00000001000000000000000000001000 = .ok (.setn 8) ∧
    decode 0b00010000001000000001000000000000 = .ok (.add 2 0 1) ∧
    decode 0b00011001000000000000000000100101 = .ok (.shrn 0 0 true 5) ∧
    decode 0b00011010000000010010000000000000 = .ok (.gte 1 2) ∧
    decode 0b00101001001000010000000000000000 = .ok (.fsqr 2 1) ∧
    decode 0b00110101000100000000000000000110 = .ok (.bsqrn 1 0 6)

/-- R95: the assembler gives a legal command back from its line. Numbers are numbers, not digits: the model's choice, log entry 17. -/
def Obligations.AssembleOfDisassemble : Prop :=
  ∀ i : Instr, i.wellFormed = true → assemble (disassemble i) = some i

/-! ## The step, errors and reset -/

/-- R34, R85, R223: a legal word written to CMD with no error pending runs its command; the step around it takes the
request from the inbox and answers it OK. Log entries 1 and 6. -/
def Obligations.StepRunsDecodedCommand : Prop :=
  ∀ (s : State) (w : Word) (i : Instr) (rest : List HostAction),
    s.inbox = .access ⟨.write, 0x0004, 4, w⟩ :: rest → s.err = .none → decode w = .ok i →
    step s =
      match exec i { s with inbox := rest } with
      | .next t => .next { t with outbox := t.outbox ++ [⟨.ok, none⟩] }
      | .fault e => .fault e
      | .refused e => .refused e

/-- R86: every word that fits no row raises E_ILLEGAL and does nothing else; the all-ones word is one; the all-zero word is
NOP. Log entries 1 and 6. -/
def Obligations.IllegalWordRaises : Prop :=
  (∀ (s : State) (w : Word) (rest : List HostAction),
    s.inbox = .access ⟨.write, 0x0004, 4, w⟩ :: rest → s.err = .none → (∀ r ∈ opcodeRows, r.accepts w = false) →
    step s = .next { s with err := .illegal, ecmd := w, inbox := rest, outbox := s.outbox ++ [⟨.ok, none⟩] }) ∧
    (∀ r ∈ opcodeRows, r.accepts 0xFFFFFFFF = false) ∧ decode 0x00000000 = .ok .nop

/-- R225: while an error is pending only SRESET and, for an error that is not fatal, CLRERR act; every other word is
dropped; host reads and host writes of CW and V limbs are not held. Log entries 1 and 6. -/
def Obligations.ErrorHold : Prop :=
  ∀ (s : State) (rest : List HostAction), s.err ≠ .none →
    (∀ w : Word, s.inbox = .access ⟨.write, 0x0004, 4, w⟩ :: rest →
      step s = .next
        (if w = 0x03000000 then { State.reset with inbox := rest, outbox := s.outbox ++ [⟨.ok, none⟩] }
        else if w = 0x02000000 ∧ s.err ≠ .invZero then
          { s with err := .none, inbox := rest, outbox := s.outbox ++ [⟨.ok, none⟩] }
        else { s with inbox := rest, outbox := s.outbox ++ [⟨.ok, none⟩] })) ∧
    (∀ (addr : Addr) (d x : Word), addr.toNat % 4 = 0 → s.inbox = .access ⟨.read, addr, 4, d⟩ :: rest →
      s.readLoc (locate addr) = some x →
      step s = .next { s with inbox := rest, outbox := s.outbox ++ [⟨.ok, some x⟩] }) ∧
    (∀ x : Word, s.inbox = .access ⟨.write, 0x000C, 4, x⟩ :: rest →
      step s = .next { s with cw := x, inbox := rest, outbox := s.outbox ++ [⟨.ok, none⟩] }) ∧
    (∀ (i : VIdx) (j : Fin 36) (x : Word), s.inbox = .access ⟨.write, limbAddr i j.val, 4, x⟩ :: rest →
      ∃ t, step s = .next t ∧ t.limb i j.val = x ∧ t.err = s.err)

/-- R203: SRESET puts every piece of state at its reset value of R42, in every state, ERR = 4 included; a step that
delivers its word does so too; no other word of its opcode is SRESET. -/
def Obligations.SresetResets : Prop :=
  ∀ s : State,
    (∃ t, exec .sreset s = .next t ∧ (∀ r j, t.limb r j = 0) ∧ t.cw = 0 ∧ t.t = false ∧ t.n = 1 ∧ t.kind = .none ∧
      t.fn = 0 ∧ (∀ j : Fin 18, t.p[j.val] = 0) ∧ t.m = 0 ∧ t.k1 = 0 ∧ t.k2 = 0 ∧ t.k3 = 0 ∧ t.err = .none ∧
      t.ecmd = 0 ∧ t.inbox = s.inbox ∧ t.outbox = s.outbox) ∧
    (∀ rest, s.inbox = .access ⟨.write, 0x0004, 4, 0x03000000⟩ :: rest →
      step s = .next { State.reset with inbox := rest, outbox := s.outbox ++ [⟨.ok, none⟩] }) ∧
    ∀ (w : Word) (rest : List HostAction), w.toNat / 2 ^ 24 = 3 → w ≠ 0x03000000 →
      s.inbox = .access ⟨.write, 0x0004, 4, w⟩ :: rest →
      step s = .next
        (if s.err = .none then
          { s with err := .illegal, ecmd := w, inbox := rest, outbox := s.outbox ++ [⟨.ok, none⟩] }
        else { s with inbox := rest, outbox := s.outbox ++ [⟨.ok, none⟩] })

/-- R42, R260, R262: after the pin and after SRESET every piece of state has the value R42 lists, and the port reads the
words it lists. Log entry 3. -/
def Obligations.PinResets : Prop :=
  (∀ (s : State) (rest : List HostAction), s.inbox = .rst :: rest →
    step s = .next { State.reset with inbox := rest, outbox := s.outbox }) ∧
    (∀ s : State, exec .sreset s = .next { State.reset with inbox := s.inbox, outbox := s.outbox }) ∧
    ((∀ r j, State.reset.limb r j = 0) ∧ State.reset.cw = 0 ∧ State.reset.t = false ∧ State.reset.n = 1 ∧
      State.reset.kind.code = 0 ∧ State.reset.fn = 0 ∧ (∀ j : Fin 18, State.reset.p[j.val] = 0) ∧ State.reset.m = 0 ∧
      State.reset.k1 = 0 ∧ State.reset.k2 = 0 ∧ State.reset.k3 = 0 ∧ State.reset.err.code = 0 ∧ State.reset.ecmd = 0) ∧
    (State.reset.readLoc (locate 0x0000) = some 0x46464131 ∧ State.reset.readLoc (locate 0x0008) = some 0 ∧
      State.reset.readLoc (locate 0x000C) = some 0 ∧ State.reset.readLoc (locate 0x0010) = some 1 ∧
      State.reset.readLoc (locate 0x0014) = some 0 ∧ State.reset.readLoc (locate 0x0018) = some 0 ∧
      State.reset.readLoc (locate 0x001C) = some 0 ∧
      (∀ j : Fin 18, State.reset.readLoc (locate (BitVec.ofNat 13 (0x0100 + 4 * j.val))) = some 0) ∧
      (∀ (i : VIdx) (j : Fin 36), State.reset.readLoc (locate (limbAddr i j.val)) = some 0) ∧ State.reset.irq = false)

/-- R41 at reset. -/
def Obligations.WfAtReset : Prop :=
  State.reset.wf

/-- R41: every step from a well-formed state keeps the invariant. -/
def Obligations.WfKeptByStep : Prop :=
  ∀ s t : State, s.wf → step s = .next t → t.wf

/-- R208, R274: a step answers a next state from every state; no fault, no refusal, no hang. -/
def Obligations.StepAnswersNext : Prop :=
  ∀ s : State, ∃ t, step s = .next t

/-- R207: a run of as many steps as there are host actions is the fold of the access rules over the list; it ends with all
of them taken and one response given for each access. Log entry 1. -/
def Obligations.RunIsFoldOfActions : Prop :=
  ∀ s : State,
    Sys2Proof.core.run s.inbox.length s = runProgram s.inbox { s with inbox := [] } ∧
      ∃ t, Sys2Proof.core.run s.inbox.length s = .next t ∧ t.inbox = [] ∧
        t.outbox.length = s.outbox.length + (s.inbox.filter (fun h => decide (h ≠ .rst))).length

/-- R227: from the fatal error only SRESET or the pin leads out, and both lead to the reset state. -/
def Obligations.FatalErrorStays : Prop :=
  ∀ s t : State, s.err = .invZero → step s = .next t →
    t.err = .invZero ∨
      ∃ rest, (s.inbox = .rst :: rest ∨ s.inbox = .access ⟨.write, 0x0004, 4, 0x03000000⟩ :: rest) ∧
        t = { State.reset with inbox := rest, outbox := t.outbox }

/-- R224, R229: a command that ends in an error has written ERR and ECMD and nothing else, but for the `T <- 0` of FCHK and
BCHK. -/
def Obligations.ErrorsArePrecise : Prop :=
  ∀ (i : Instr) (s t : State), s.err = .none → exec i s = .next t → t.err ≠ .none →
    t = { s with err := t.err, ecmd := encode i } ∨
      (t = { s with t := false, err := .element, ecmd := encode i } ∧ ∃ a, i = .fchk a ∨ i = .bchk a)

/-- R24, R25: no command but those R24 lists changes CW and no command but those R25 lists changes T, nor does one that
ends in an error, but for the E_ELEMENT of FCHK and BCHK, which writes T. -/
def Obligations.FlagWriters : Prop :=
  ∀ (i : Instr) (s t : State), s.err = .none → exec i s = .next t →
    (t.cw ≠ s.cw → writesCw i = true ∧ t.err = .none) ∧
    (t.t ≠ s.t → writesT i = true ∧ (t.err = .none ∨ (t.err = .element ∧ ∃ a, i = .fchk a ∨ i = .bchk a)))

/-- R26 to R29, R30: only SETN and SRESET write N; only FSETP, BSETF and SRESET write the descriptor; only CLRERR, SRESET
and a raised error write ERR; only SRESET and a raised error write ECMD. No command touches the port's side. -/
def Obligations.ControlWriters : Prop :=
  ∀ (i : Instr) (s t : State), exec i s = .next t →
    (t.n = s.n ∨ i = .sreset ∨ ∃ n, i = .setn n) ∧
    ((t.kind = s.kind ∧ t.fn = s.fn ∧ t.p = s.p ∧ t.m = s.m ∧ t.k1 = s.k1 ∧ t.k2 = s.k2 ∧ t.k3 = s.k3) ∨
      i = .sreset ∨ ∃ a, i = .fsetp a ∨ i = .bsetf a) ∧
    (t.err = s.err ∨ i = .sreset ∨ i = .clrerr ∨ (t.err ≠ .none ∧ t.ecmd = encode i)) ∧
    (t.ecmd = s.ecmd ∨ i = .sreset ∨ (t.err ≠ .none ∧ t.ecmd = encode i)) ∧ t.inbox = s.inbox ∧ t.outbox = s.outbox

/-- R22: a command's outcome does not depend on limbs above those it reads, nor on a register it does not name as a source:
two states that agree on everything else end alike, each limb either equal in both or untouched in both. -/
def Obligations.UnreadLimbsIgnored : Prop :=
  ∀ (i : Instr) (s s' t t' : State), s.wf → s' = { s with v := s'.v } →
    (∀ r ∈ sources i, ∀ j < readLen i s, s'.limb r j = s.limb r j) → exec i s = .next t → exec i s' = .next t' →
    t'.cw = t.cw ∧ t'.t = t.t ∧ SameControl t t' ∧
      ∀ r j, t'.limb r j = t.limb r j ∨ (t.limb r j = s.limb r j ∧ t'.limb r j = s'.limb r j)

/-- R230: `irq` is 1 exactly while ERR is not 0. -/
def Obligations.IrqFollowsErr : Prop :=
  ∀ s : State, s.irq = true ↔ s.err.code ≠ 0

/-! ## The port -/

/-- R32, R31, R33 to R39, R52: what each readable address answers; the read changes nothing else. Log entry 1. -/
def Obligations.ReadRegisterMap : Prop :=
  ∀ (s : State) (addr : Addr) (d x : Word) (rest : List HostAction),
    s.inbox = .access ⟨.read, addr, 4, d⟩ :: rest →
    ((addr = 0x0000 ∧ x = 0x46464131) ∨ (addr = 0x0004 ∧ x = 0) ∨
      (addr = 0x0008 ∧ x = BitVec.ofNat 32
        (s.err.code.toNat + 8 * (if s.err.code = 4 then 1 else 0) + 16 * s.t.toNat + 32 * s.kind.code.toNat)) ∨
      (addr = 0x000C ∧ x = s.cw) ∨ (addr = 0x0010 ∧ x = BitVec.ofNat 32 (s.n.toNat + 2 ^ 8 * s.fn.toNat)) ∨
      (addr = 0x0014 ∧ x = BitVec.ofNat 32 s.m.toNat) ∨
      (addr = 0x0018 ∧ x = BitVec.ofNat 32 (s.k1.toNat + 2 ^ 10 * s.k2.toNat + 2 ^ 20 * s.k3.toNat)) ∨
      (addr = 0x001C ∧ x = s.ecmd) ∨
      (∃ j : Fin 18, addr = BitVec.ofNat 13 (0x0100 + 4 * j.val) ∧ x = s.p[j.val]) ∨
      (∃ (i : VIdx) (j : Fin 36), addr = BitVec.ofNat 13 (0x1000 + 0x100 * i.val + 4 * j.val) ∧ x = s.limb i j.val)) →
    step s = .next { s with inbox := rest, outbox := s.outbox ++ [⟨.ok, some x⟩] }

/-- R53, R39: a write of CW or of a V limb stores its word, in every state of ERR, and changes nothing else. Log entries 1 and 6. -/
def Obligations.WriteRegisterMap : Prop :=
  ∀ (s : State) (x : Word) (rest : List HostAction),
    (s.inbox = .access ⟨.write, 0x000C, 4, x⟩ :: rest →
      step s = .next { s with cw := x, inbox := rest, outbox := s.outbox ++ [⟨.ok, none⟩] }) ∧
    ∀ (i : VIdx) (j : Fin 36),
      s.inbox = .access ⟨.write, BitVec.ofNat 13 (0x1000 + 0x100 * i.val + 4 * j.val), 4, x⟩ :: rest →
      ∃ t, step s = .next t ∧ t.limb i j.val = x ∧
        (∀ (r : VIdx) (k : Nat), (r = i ∧ k = j.val) ∨ t.limb r k = s.limb r k) ∧
        t = { s with v := t.v, inbox := rest, outbox := s.outbox ++ [⟨.ok, none⟩] }

/-- R54, R56: an access of another width or at an address that is no multiple of 4 is answered ERROR; unmapped addresses
answer ERROR to both kinds of access, read-only ones to a write; a read so answered gives 0; a read of CMD answers OK with
0. Nothing else changes and no command is issued. Log entries 1 and 6. -/
def Obligations.PortErrors : Prop :=
  (∀ (s : State) (r : Request) (rest : List HostAction), s.inbox = .access r :: rest →
    (r.size ≠ 4 ∨ r.addr.toNat % 4 ≠ 0) →
    step s = .next { s with
      inbox := rest, outbox := s.outbox ++ [⟨.error, if r.kind = .read then some 0 else none⟩] }) ∧
  ∀ (s : State) (addr : Addr) (x : Word) (rest : List HostAction), addr.toNat % 4 = 0 →
    ((0x0020 ≤ addr.toNat ∧ addr.toNat ≤ 0x00FC ∨ 0x0148 ≤ addr.toNat ∧ addr.toNat ≤ 0x0FFC ∨
        0x1000 ≤ addr.toNat ∧ addr.toNat ≤ 0x17FC ∧ 0x90 ≤ addr.toNat % 0x100 ∨ 0x1800 ≤ addr.toNat) →
      (s.inbox = .access ⟨.read, addr, 4, x⟩ :: rest →
        step s = .next { s with inbox := rest, outbox := s.outbox ++ [⟨.error, some 0⟩] }) ∧
      (s.inbox = .access ⟨.write, addr, 4, x⟩ :: rest →
        step s = .next { s with inbox := rest, outbox := s.outbox ++ [⟨.error, none⟩] })) ∧
    ((addr = 0x0000 ∨ addr = 0x0008 ∨ addr = 0x0010 ∨ addr = 0x0014 ∨ addr = 0x0018 ∨ addr = 0x001C ∨
        0x0100 ≤ addr.toNat ∧ addr.toNat ≤ 0x0144) →
      s.inbox = .access ⟨.write, addr, 4, x⟩ :: rest →
      step s = .next { s with inbox := rest, outbox := s.outbox ++ [⟨.error, none⟩] }) ∧
    (addr = 0x0004 → s.inbox = .access ⟨.read, addr, 4, x⟩ :: rest →
      step s = .next { s with inbox := rest, outbox := s.outbox ++ [⟨.ok, some 0⟩] })

/-! ## System commands -/

/-- R200, R201, R202: NOP has no effect; SETN sets the word count and nothing else; CLRERR clears ERR unless it is 0 or
the fatal 4, and keeps ECMD and all else; each has the encoding its rule gives it, and every other word of its opcode
raises E_ILLEGAL; while an error is pending no word but those of CLRERR and SRESET has an effect.
exec does not look at ERR (the model's choice, log entry 10), so its clauses hold with an error pending too, where a run drops
NOP and SETN, as the clause on `issue` says. -/
def Obligations.SystemCommandResults : Prop :=
  (∀ s : State,
    exec .nop s = .next s ∧
    (∀ n : BitVec 5, 1 ≤ n.toNat → n.toNat ≤ 18 → exec (.setn n) s = .next { s with n := n }) ∧
    (s.err = .none ∨ s.err = .invZero → exec .clrerr s = .next s) ∧
    (s.err = .illegal ∨ s.err = .desc ∨ s.err = .element ∨ s.err = .noField →
      exec .clrerr s = .next { s with err := .none }) ∧
    (s.err ≠ .none → ∀ w : Word, w ≠ 0x02000000 → w ≠ 0x03000000 → issue w s = .next s)) ∧
    ∀ w : Word,
      ((w.toNat / 2 ^ 24 = 0 ∧ w ≠ 0x00000000) ∨
        (w.toNat / 2 ^ 24 = 1 ∧ ¬ (1 ≤ w.toNat % 2 ^ 24 ∧ w.toNat % 2 ^ 24 ≤ 18)) ∨
        (w.toNat / 2 ^ 24 = 2 ∧ w ≠ 0x02000000) →
        ∀ s : State, issue w s = .next (if s.err = .none then { s with err := .illegal, ecmd := w } else s)) ∧
      (∀ n : BitVec 5, 1 ≤ n.toNat → n.toNat ≤ 18 → decode (0x01000000 + n.setWidth 32) = .ok (.setn n)) ∧
      decode 0x00000000 = .ok .nop ∧ decode 0x02000000 = .ok .clrerr

/-! ## Integer core -/

/-- R101. -/
def Obligations.AddResult : Prop :=
  ∀ (s : State) (d a b : VIdx), s.err = .none →
    ∃ t, exec (.add d a b) s = .next t ∧ t.srcN d = (s.srcN a + s.srcN b) % s.base ∧
      t.cw.toNat = (s.srcN a + s.srcN b) / s.base ∧ t.t = s.t ∧ OnlyLow s t d s.words ∧ SameControl s t

/-- R102. -/
def Obligations.SubResult : Prop :=
  ∀ (s : State) (d a b : VIdx), s.err = .none →
    ∃ t, exec (.sub d a b) s = .next t ∧
      t.srcN d = (if s.srcN b ≤ s.srcN a then s.srcN a - s.srcN b else s.srcN a + s.base - s.srcN b) ∧
      t.cw.toNat = (if s.srcN a < s.srcN b then 1 else 0) ∧ t.t = s.t ∧ OnlyLow s t d s.words ∧ SameControl s t

/-- R103, R104. -/
def Obligations.IncDecResult : Prop :=
  ∀ (s : State) (d a : VIdx), s.wf → s.err = .none →
    (∃ t, exec (.inc d a) s = .next t ∧ t.srcN d = (s.srcN a + 1) % s.base ∧
      t.cw.toNat = (if s.srcN a = s.base - 1 then 1 else 0) ∧ t.t = s.t ∧ OnlyLow s t d s.words ∧ SameControl s t) ∧
    ∃ t, exec (.dec d a) s = .next t ∧ t.srcN d = (if s.srcN a = 0 then s.base - 1 else s.srcN a - 1) ∧
      t.cw.toNat = (if s.srcN a = 0 then 1 else 0) ∧ t.t = s.t ∧ OnlyLow s t d s.words ∧ SameControl s t

/-- R105, R106: exact double-width products, no flag written; SQR is MUL of the register with itself. -/
def Obligations.MulSqrResult : Prop :=
  ∀ (s : State) (d a b : VIdx), s.wf → s.err = .none →
    (∃ t, exec (.mul d a b) s = .next t ∧ t.val d (2 * s.words) = s.srcN a * s.srcN b ∧
      OnlyResult s t d (2 * s.words)) ∧
    (∃ t, exec (.sqr d a) s = .next t ∧ t.val d (2 * s.words) = s.srcN a * s.srcN a ∧
      OnlyResult s t d (2 * s.words)) ∧
    exec (.sqr d a) s = exec (.mul d a a) s

/-- R107, R109: the shifts up; a distance of 0 does not decode.
That SHL1 equals SHLN by 1 the spec marks as derived (R107, from R109). -/
def Obligations.ShiftUpResult : Prop :=
  (∀ (s : State) (d a : VIdx) (ci : Bool) (k : BitVec 5) (cin full : Nat), s.wf → s.err = .none → 1 ≤ k.toNat →
    cin = (if ci then s.cw.toNat % 2 ^ k.toNat else 0) → full = ((s.srcN a <<< k.toNat) ||| cin) →
    ∃ t, exec (.shln d a ci k) s = .next t ∧ t.srcN d = full % s.base ∧ t.cw.toNat = full / s.base ∧
      t.cw.toNat = s.srcN a >>> (32 * s.words - k.toNat) ∧ t.t = s.t ∧ OnlyLow s t d s.words ∧ SameControl s t) ∧
  (∀ (s : State) (d a : VIdx) (ci : Bool) (cin : Nat), s.wf → s.err = .none →
    cin = (if ci then s.cw.toNat % 2 else 0) →
    ∃ t, exec (.shl1 d a ci) s = .next t ∧ t.srcN d = ((s.srcN a <<< 1) ||| cin) % s.base ∧
      t.cw.toNat = s.srcN a >>> (32 * s.words - 1) ∧ t.t = s.t ∧ OnlyLow s t d s.words ∧ SameControl s t ∧
      exec (.shl1 d a ci) s = exec (.shln d a ci 1) s) ∧
  ∀ (d a : VIdx) (ci : Bool), ∃ e, decode (encode (.shln d a ci 0)) = .error e

/-- R108, R110: the shifts down; a distance of 0 does not decode.
That SHR1 equals SHRN by 1 the spec marks as derived (R108, from R110). -/
def Obligations.ShiftDownResult : Prop :=
  (∀ (s : State) (d a : VIdx) (ci : Bool) (k : BitVec 5) (cin : Nat), s.wf → s.err = .none → 1 ≤ k.toNat →
    cin = (if ci then s.cw.toNat % 2 ^ k.toNat else 0) →
    ∃ t, exec (.shrn d a ci k) s = .next t ∧
      t.srcN d = ((s.srcN a >>> k.toNat) ||| (cin <<< (32 * s.words - k.toNat))) ∧
      t.cw.toNat = s.srcN a % 2 ^ k.toNat ∧ t.t = s.t ∧ OnlyLow s t d s.words ∧ SameControl s t) ∧
  (∀ (s : State) (d a : VIdx) (ci : Bool) (cin : Nat), s.wf → s.err = .none →
    cin = (if ci then s.cw.toNat % 2 else 0) →
    ∃ t, exec (.shr1 d a ci) s = .next t ∧ t.srcN d = ((s.srcN a >>> 1) ||| (cin <<< (32 * s.words - 1))) ∧
      t.cw.toNat = s.srcN a % 2 ∧ t.t = s.t ∧ OnlyLow s t d s.words ∧ SameControl s t ∧
      exec (.shr1 d a ci) s = exec (.shrn d a ci 1) s) ∧
  ∀ (d a : VIdx) (ci : Bool), ∃ e, decode (encode (.shrn d a ci 0)) = .error e

/-- R111 to R113: the comparators write T and nothing else. -/
def Obligations.ComparatorVerdicts : Prop :=
  ∀ (s : State) (a b : VIdx), s.err = .none →
    (∃ t, exec (.gte a b) s = .next t ∧ (t.t = true ↔ s.srcN b ≤ s.srcN a) ∧ OnlyT s t) ∧
    (∃ t, exec (.iszero a) s = .next t ∧ (t.t = true ↔ ∀ j < s.words, s.limb a j = 0) ∧ OnlyT s t) ∧
    ∃ t, exec (.isone a) s = .next t ∧ (t.t = true ↔ s.srcN a = 1) ∧ OnlyT s t

/-- R114: the exact result can always be rebuilt from the limbs and CW. -/
def Obligations.ExactResultRebuilt : Prop :=
  ∀ (s : State) (d a b : VIdx) (ci : Bool) (k : BitVec 5), s.wf → s.err = .none → 1 ≤ k.toNat →
    (∃ t, exec (.add d a b) s = .next t ∧ s.srcN a + s.srcN b = t.srcN d + t.cw.toNat * s.base) ∧
    (∃ t, exec (.sub d a b) s = .next t ∧ (s.srcN a : Int) - s.srcN b = t.srcN d - t.cw.toNat * s.base) ∧
    (∃ t, exec (.inc d a) s = .next t ∧ s.srcN a + 1 = t.srcN d + t.cw.toNat * s.base) ∧
    (∃ t, exec (.dec d a) s = .next t ∧ (s.srcN a : Int) - 1 = t.srcN d - t.cw.toNat * s.base) ∧
    (∃ t, exec (.shln d a ci k) s = .next t ∧
      s.srcN a * 2 ^ k.toNat + (if ci then s.cw.toNat % 2 ^ k.toNat else 0) = t.srcN d + t.cw.toNat * s.base) ∧
    ∃ t, exec (.shrn d a ci k) s = .next t ∧
      s.srcN a + (if ci then s.cw.toNat % 2 ^ k.toNat else 0) * s.base = t.srcN d * 2 ^ k.toNat + t.cw.toNat

/-- R115: a value held in two registers is shifted by shifting one after the other with `.C`, in the direction the bits
travel. -/
def Obligations.ShiftsChain : Prop :=
  ∀ (s : State) (lo hi : VIdx) (k : BitVec 5), s.wf → s.err = .none → lo ≠ hi → 1 ≤ k.toNat →
    (∃ t u, exec (.shln lo lo false k) s = .next t ∧ exec (.shln hi hi true k) t = .next u ∧
      (s.srcN lo + s.base * s.srcN hi) * 2 ^ k.toNat =
        u.srcN lo + s.base * u.srcN hi + s.base * s.base * u.cw.toNat) ∧
    ∃ t u, exec (.shrn hi hi false k) s = .next t ∧ exec (.shrn lo lo true k) t = .next u ∧
      s.srcN lo + s.base * s.srcN hi = (u.srcN lo + s.base * u.srcN hi) * 2 ^ k.toNat + u.cw.toNat

/-! ## Prime field -/

/-- R131: FSETP installs an odd modulus of at least 3 that fills its top limb, and refuses every other with E_DESC. -/
def Obligations.FsetpInstalls : Prop :=
  ∀ (s : State) (a : VIdx), s.wf → s.err = .none →
    ((s.srcN a % 2 = 1 ∧ 3 ≤ s.srcN a ∧ s.limb a (s.words - 1) ≠ 0) →
      ∃ t, exec (.fsetp a) s = .next t ∧ t.kind = .prime ∧ t.fn = s.n ∧
        (∀ j : Fin 18, t.p[j.val] = if j.val < s.words then s.limb a j.val else 0) ∧ t.modulus = s.srcN a ∧
        t = { s with p := t.p, kind := .prime, fn := s.n, m := 0, k1 := 0, k2 := 0, k3 := 0 }) ∧
    (¬ (s.srcN a % 2 = 1 ∧ 3 ≤ s.srcN a ∧ s.limb a (s.words - 1) ≠ 0) → Raises (.fsetp a) .desc s)

/-- R134. -/
def Obligations.FchkVerdict : Prop :=
  ∀ (s : State) (a : VIdx), s.err = .none →
    (s.kind ≠ .prime → Raises (.fchk a) .noField s) ∧
    (s.kind = .prime → s.srcF a < s.modulus → exec (.fchk a) s = .next { s with t := true }) ∧
    (s.kind = .prime → s.modulus ≤ s.srcF a →
      exec (.fchk a) s = .next { s with t := false, err := .element, ecmd := encode (.fchk a) })

/-- R135, R136. -/
def Obligations.FaddFsubResult : Prop :=
  ∀ (s : State) (d a b : VIdx), s.wf → s.err = .none →
    PrimeCommand (.fadd d a b) d [a, b] ((s.srcF a + s.srcF b) % s.modulus) s ∧
    PrimeCommand (.fsub d a b) d [a, b]
      (if s.srcF b ≤ s.srcF a then s.srcF a - s.srcF b else s.srcF a + s.modulus - s.srcF b) s

/-- R137, R138, R140; FNEG undoes itself and gives the additive inverse; FTWICE of canonical `x` is FADD of `x` and `x`. -/
def Obligations.Fadd1FnegFtwiceResult : Prop :=
  ∀ (s : State) (d e a : VIdx), s.wf → s.err = .none →
    PrimeCommand (.fadd1 d a) d [a] (if s.srcF a = s.modulus - 1 then 0 else s.srcF a + 1) s ∧
    PrimeCommand (.fneg d a) d [a] (if s.srcF a = 0 then 0 else s.modulus - s.srcF a) s ∧
    PrimeCommand (.ftwice d a) d [a] (if 2 * s.srcF a < s.modulus then 2 * s.srcF a else 2 * s.srcF a - s.modulus) s ∧
    (s.kind = .prime → s.srcF a < s.modulus →
      exec (.ftwice d a) s = exec (.fadd d a a) s ∧
      (∃ t u, exec (.fneg e a) s = .next t ∧ exec (.fneg d e) t = .next u ∧ u.srcF d = s.srcF a) ∧
      (e ≠ a → ∃ t u, exec (.fneg e a) s = .next t ∧ exec (.fadd d a e) t = .next u ∧ u.srcF d = 0))

/-- R139: FHALF, by its two cases; its value is the only canonical `z` with `2z ≡ x (mod p)`; FHALF undoes FTWICE.
That `z` is the only one the spec marks as derived (R139). -/
def Obligations.FhalfResult : Prop :=
  ∀ (s : State) (d e a : VIdx), s.wf → s.err = .none →
    PrimeCommand (.fhalf d a) d [a]
      (if s.srcF a % 2 = 0 then s.srcF a / 2 else (s.srcF a + s.modulus) / 2) s ∧
    (s.kind = .prime → s.srcF a < s.modulus →
      (∃ t, exec (.fhalf d a) s = .next t ∧ 2 * t.srcF d % s.modulus = s.srcF a ∧
        ∀ z < s.modulus, 2 * z % s.modulus = s.srcF a → z = t.srcF d) ∧
      ∃ t u, exec (.ftwice e a) s = .next t ∧ exec (.fhalf d e) t = .next u ∧ u.srcF d = s.srcF a)

/-- R141, R142; FMUL is the exact product followed by the reduction; FSQR of canonical `x` is FMUL of `x` and `x`.
The first of these the spec marks as derived (R141, from R105 and R143). -/
def Obligations.FmulFsqrResult : Prop :=
  ∀ (s : State) (d e a b : VIdx), s.wf → s.err = .none →
    PrimeCommand (.fmul d a b) d [a, b] (s.srcF a * s.srcF b % s.modulus) s ∧
    PrimeCommand (.fsqr d a) d [a] (s.srcF a * s.srcF a % s.modulus) s ∧
    (s.kind = .prime → s.srcF a < s.modulus → exec (.fsqr d a) s = exec (.fmul d a a) s) ∧
    (s.kind = .prime → s.words = s.fieldWords → s.srcF a < s.modulus → s.srcF b < s.modulus →
      ∃ t u w, exec (.mul e a b) s = .next t ∧ exec (.fred e e) t = .next u ∧ exec (.fmul d a b) s = .next w ∧
        u.srcF e = w.srcF d)

/-- R143: FRED reduces every double-width value; it raises nothing but E_NOFIELD. -/
def Obligations.FredResult : Prop :=
  ∀ (s : State) (d a : VIdx), s.wf → s.err = .none →
    PrimeCommand (.fred d a) d [] (s.val a (2 * s.fieldWords) % s.modulus) s

/-- R144: FINV of a non-zero canonical `x` is `x ** (p - 2) mod p`; of zero it is the fatal E_INVZERO. -/
def Obligations.FinvResult : Prop :=
  ∀ (s : State) (d a : VIdx), s.wf → s.err = .none →
    (s.kind = .prime → s.srcF a = 0 → Raises (.finv d a) .invZero s) ∧
    (s.srcF a ≠ 0 → PrimeCommand (.finv d a) d [a] (s.srcF a ^ (s.modulus - 2) % s.modulus) s) ∧
    (s.kind ≠ .prime → Raises (.finv d a) .noField s)

/-- R144, R145 (f): for a prime modulus FINV gives the multiplicative inverse. -/
def Obligations.FinvIsInverse : Prop :=
  ∀ (s : State) (d a : VIdx), s.wf → s.err = .none → s.kind = .prime → s.modulus.Prime → s.srcF a < s.modulus →
    s.srcF a ≠ 0 →
    ∃ t, exec (.finv d a) s = .next t ∧ s.srcF a * t.srcF d % s.modulus = 1

/-- R145 (a), (e), for any odd modulus: FADD and FMUL are commutative and associative, FMUL distributes over FADD, FSUB is
FADD of the negative; as sequences of commands with a scratch register. -/
def Obligations.PrimeFieldLaws : Prop :=
  ∀ (s : State) (d e g a b c : VIdx), s.wf → s.err = .none → s.kind = .prime → s.srcF a < s.modulus →
    s.srcF b < s.modulus → s.srcF c < s.modulus → e ≠ a → e ≠ c → g ≠ e →
    (exec (.fadd d a b) s = exec (.fadd d b a) s ∧ exec (.fmul d a b) s = exec (.fmul d b a) s) ∧
    (∃ t u t' u', exec (.fadd e a b) s = .next t ∧ exec (.fadd d e c) t = .next u ∧
      exec (.fadd e b c) s = .next t' ∧ exec (.fadd d a e) t' = .next u' ∧ u.srcF d = u'.srcF d) ∧
    (∃ t u t' u', exec (.fmul e a b) s = .next t ∧ exec (.fmul d e c) t = .next u ∧
      exec (.fmul e b c) s = .next t' ∧ exec (.fmul d a e) t' = .next u' ∧ u.srcF d = u'.srcF d) ∧
    (∃ t u t' u' w', exec (.fadd e b c) s = .next t ∧ exec (.fmul d a e) t = .next u ∧
      exec (.fmul e a b) s = .next t' ∧ exec (.fmul g a c) t' = .next u' ∧ exec (.fadd d e g) u' = .next w' ∧
      u.srcF d = w'.srcF d) ∧
    ∃ t u w, exec (.fneg e b) s = .next t ∧ exec (.fadd d a e) t = .next u ∧ exec (.fsub d a b) s = .next w ∧
      u.srcF d = w.srcF d

/-! ## Polynomials over GF(2) -/

/-- R11: `clmul` is the XOR of the shifts `a << i` over the set bits of `b`, and degrees add. -/
def Obligations.ClmulIsPolynomialProduct : Prop :=
  (∀ a b n : Nat, b < 2 ^ n →
    clmul a b = (List.range n).foldl (fun acc i => if b.testBit i then acc ^^^ (a <<< i) else acc) 0) ∧
    ∀ a b : Nat, a ≠ 0 → b ≠ 0 → clmul a b ≠ 0 ∧ (clmul a b).log2 = a.log2 + b.log2

/-- R11: `pmod(a, f)` is the unique polynomial of smaller degree than `f` that differs from `a` by a multiple of `f`, and
R11's loop computes it. -/
def Obligations.PmodIsRemainder : Prop :=
  ∀ a f : Nat, f ≠ 0 →
    pmod a f < 2 ^ f.log2 ∧ (∃ q, a ^^^ pmod a f = clmul q f) ∧
    (∀ r q : Nat, r < 2 ^ f.log2 → a ^^^ r = clmul q f → r = pmod a f) ∧
    (a < 2 ^ f.log2 → pmod a f = a) ∧
    (2 ^ f.log2 ≤ a → pmod a f = pmod (a ^^^ (f <<< (a.log2 - f.log2))) f)

/-- R175 (b), (c): multiplication in GF(2)[t]/(f) is commutative, associative, distributes over XOR and has the unit 1;
squaring is linear. -/
def Obligations.BinaryRingLaws : Prop :=
  ∀ f x y z : Nat, 2 ≤ f → x < 2 ^ f.log2 → y < 2 ^ f.log2 → z < 2 ^ f.log2 →
    gfMul f x y = gfMul f y x ∧ gfMul f (gfMul f x y) z = gfMul f x (gfMul f y z) ∧
    gfMul f x (y ^^^ z) = gfMul f x y ^^^ gfMul f x z ∧ gfMul f x 1 = x ∧
    gfSqr f (x ^^^ y) = gfSqr f x ^^^ gfSqr f y ∧ gfSqr f x = gfMul f x x

/-- R172: square-and-multiply gives the power `x ** e`, that is `e` multiplications by `x`. -/
def Obligations.SquareAndMultiplyIsPower : Prop :=
  ∀ f x e : Nat, 2 ≤ f → x < 2 ^ f.log2 → gfPow f x e = polyPower f x e

/-! ## Binary field -/

/-- R161: BSETF installs a trinomial or a pentanomial of a degree of 2 to 576, the limbs taken as full 32-bit numbers, and
refuses every other candidate with E_DESC. -/
def Obligations.BsetfInstalls : Prop :=
  ∀ (s : State) (a : VIdx) (m k1 k2 k3 : Nat), s.err = .none → m = (s.limb a 0).toNat → k1 = (s.limb a 1).toNat →
    k2 = (s.limb a 2).toNat → k3 = (s.limb a 3).toNat →
    ((2 ≤ m ∧ m ≤ 576 ∧ ((k2 = 0 ∧ k3 = 0 ∧ 1 ≤ k1 ∧ k1 < m) ∨ (1 ≤ k1 ∧ k1 < k2 ∧ k2 < k3 ∧ k3 < m))) →
      ∃ t, exec (.bsetf a) s = .next t ∧ t.kind = .binary ∧ t.m.toNat = m ∧ t.k1.toNat = k1 ∧ t.k2.toNat = k2 ∧
        t.k3.toNat = k3 ∧ 32 * t.fn.toNat < m + 32 ∧ m ≤ 32 * t.fn.toNat ∧ (∀ j : Fin 18, t.p[j.val] = 0) ∧
        t = { s with kind := .binary, m := t.m, k1 := t.k1, k2 := t.k2, k3 := t.k3, fn := t.fn, p := t.p }) ∧
    (¬ (2 ≤ m ∧ m ≤ 576 ∧ ((k2 = 0 ∧ k3 = 0 ∧ 1 ≤ k1 ∧ k1 < m) ∨ (1 ≤ k1 ∧ k1 < k2 ∧ k2 < k3 ∧ k3 < m))) →
      Raises (.bsetf a) .desc s)

/-- R164. -/
def Obligations.BchkVerdict : Prop :=
  ∀ (s : State) (a : VIdx), s.err = .none →
    (s.kind ≠ .binary → Raises (.bchk a) .noField s) ∧
    (s.kind = .binary → s.srcF a < 2 ^ s.degree → exec (.bchk a) s = .next { s with t := true }) ∧
    (s.kind = .binary → 2 ^ s.degree ≤ s.srcF a →
      exec (.bchk a) s = .next { s with t := false, err := .element, ecmd := encode (.bchk a) })

/-- R165: BADD, limb by limb. -/
def Obligations.BaddResult : Prop :=
  ∀ (s : State) (d a b : VIdx), s.wf → s.err = .none →
    BinaryCommand (.badd d a b) d [a, b] (s.srcF a ^^^ s.srcF b) s ∧
    (s.kind = .binary → s.srcF a < 2 ^ s.degree → s.srcF b < 2 ^ s.degree →
      ∃ t, exec (.badd d a b) s = .next t ∧ ∀ j < s.fieldWords, t.limb d j = s.limb a j ^^^ s.limb b j)

/-- R167, R169: BMUL and BSQR; BMUL is BMULX followed by BRED; BSQR of canonical `x` is BMUL of `x` and `x`, and its
unreduced square is `x` with a zero bit between neighbouring bits.
BMULX then BRED (R167) and the bits of the square (R169) the spec marks as derived, from R166, R168 and R11. -/
def Obligations.BmulBsqrResult : Prop :=
  ∀ (s : State) (d e a b : VIdx), s.wf → s.err = .none →
    BinaryCommand (.bmul d a b) d [a, b] (pmod (clmul (s.srcF a) (s.srcF b)) s.fieldPoly) s ∧
    BinaryCommand (.bsqr d a) d [a] (pmod (clmul (s.srcF a) (s.srcF a)) s.fieldPoly) s ∧
    (∀ i, (clmul (s.srcF a) (s.srcF a)).testBit (2 * i) = (s.srcF a).testBit i ∧
      (clmul (s.srcF a) (s.srcF a)).testBit (2 * i + 1) = false) ∧
    (s.kind = .binary → s.srcF a < 2 ^ s.degree → exec (.bsqr d a) s = exec (.bmul d a a) s) ∧
    (s.kind = .binary → s.srcF a < 2 ^ s.degree → s.srcF b < 2 ^ s.degree →
      ∃ t u w, exec (.bmulx e a b) s = .next t ∧ exec (.bred e e) t = .next u ∧ exec (.bmul d a b) s = .next w ∧
        u.srcF e = w.srcF d)

/-- R166: BMULX writes the whole product, of degree at most `2M - 2`, into `2 FN` limbs. -/
def Obligations.BmulxResult : Prop :=
  ∀ (s : State) (d a b : VIdx), s.wf → s.err = .none →
    (s.kind ≠ .binary → Raises (.bmulx d a b) .noField s) ∧
    (s.kind = .binary → (2 ^ s.degree ≤ s.srcF a ∨ 2 ^ s.degree ≤ s.srcF b) → Raises (.bmulx d a b) .element s) ∧
    (s.kind = .binary → s.srcF a < 2 ^ s.degree → s.srcF b < 2 ^ s.degree →
      ∃ t, exec (.bmulx d a b) s = .next t ∧ t.val d (2 * s.fieldWords) = clmul (s.srcF a) (s.srcF b) ∧
        clmul (s.srcF a) (s.srcF b) < 2 ^ (2 * s.degree - 1) ∧ OnlyResult s t d (2 * s.fieldWords))

/-- R168: BRED reduces every double-width polynomial; it raises nothing but E_NOFIELD. -/
def Obligations.BredResult : Prop :=
  ∀ (s : State) (d a : VIdx), s.wf → s.err = .none →
    BinaryCommand (.bred d a) d [] (pmod (s.val a (2 * s.fieldWords)) s.fieldPoly) s

/-- R170, R171: repeated squarings; BSQRN with a count of 1 is BSQR of a canonical `x`; a count of 0 does not decode. -/
def Obligations.BsqrnBsqrtResult : Prop :=
  (∀ (s : State) (d a : VIdx) (k : BitVec 12), s.wf → s.err = .none → 1 ≤ k.toNat →
    BinaryCommand (.bsqrn d a k) d [a] ((fun y => pmod (clmul y y) s.fieldPoly)^[k.toNat] (s.srcF a)) s ∧
    BinaryCommand (.bsqrt d a) d [a] ((fun y => pmod (clmul y y) s.fieldPoly)^[s.degree - 1] (s.srcF a)) s ∧
    (s.kind = .binary → s.srcF a < 2 ^ s.degree → exec (.bsqrn d a 1) s = exec (.bsqr d a) s)) ∧
  ∀ (d a : VIdx), ∃ e, decode (encode (.bsqrn d a 0)) = .error e

/-- R172: BINV of a non-zero canonical `x` is `x ** (2^M - 2)`; of zero it is the fatal E_INVZERO. -/
def Obligations.BinvResult : Prop :=
  ∀ (s : State) (d a : VIdx), s.wf → s.err = .none →
    (s.kind = .binary → s.srcF a = 0 → Raises (.binv d a) .invZero s) ∧
    (s.srcF a ≠ 0 → BinaryCommand (.binv d a) d [a] (polyPower s.fieldPoly (s.srcF a) (2 ^ s.degree - 2)) s) ∧
    (s.kind ≠ .binary → Raises (.binv d a) .noField s)

/-- R172, R175 (e): for an irreducible polynomial BINV gives the multiplicative inverse. -/
def Obligations.BinvIsInverse : Prop :=
  ∀ (s : State) (d a : VIdx), s.wf → s.err = .none → s.kind = .binary → PolyIrreducible s.fieldPoly →
    s.srcF a < 2 ^ s.degree → s.srcF a ≠ 0 →
    ∃ t, exec (.binv d a) s = .next t ∧ gfMul s.fieldPoly (s.srcF a) (t.srcF d) = 1

/-- R171, R175 (e): for an irreducible polynomial BSQRT undoes BSQR. -/
def Obligations.BsqrtUndoesBsqr : Prop :=
  ∀ (s : State) (d e a : VIdx), s.wf → s.err = .none → s.kind = .binary → PolyIrreducible s.fieldPoly →
    s.srcF a < 2 ^ s.degree →
    ∃ t u, exec (.bsqr e a) s = .next t ∧ exec (.bsqrt d e) t = .next u ∧ u.srcF d = s.srcF a

/-- R173: BTRACE writes to T the constant coefficient of the sum of `x ** (2^i)` for `i < M`, and nothing else. -/
def Obligations.BtraceVerdict : Prop :=
  ∀ (s : State) (a : VIdx), s.wf → s.err = .none →
    (s.kind ≠ .binary → Raises (.btrace a) .noField s) ∧
    (s.kind = .binary → 2 ^ s.degree ≤ s.srcF a → Raises (.btrace a) .element s) ∧
    (s.kind = .binary → s.srcF a < 2 ^ s.degree →
      ∃ t, exec (.btrace a) s = .next t ∧ OnlyT s t ∧
        t.t = ((List.range s.degree).foldl
          (fun acc i => acc ^^^ (fun y => pmod (clmul y y) s.fieldPoly)^[i] (s.srcF a)) 0).testBit 0)

/-- R174: BHTRACE gives the sum of `x ** (2^(2i))` for `i <= (M - 1)/2` when `M` is odd; an even `M` is E_NOFIELD. -/
def Obligations.BhtraceResult : Prop :=
  ∀ (s : State) (d a : VIdx), s.wf → s.err = .none →
    (s.kind = .binary → s.degree % 2 = 0 → Raises (.bhtrace d a) .noField s) ∧
    (s.degree % 2 = 1 →
      BinaryCommand (.bhtrace d a) d [a]
        ((List.range ((s.degree - 1) / 2 + 1)).foldl
          (fun acc i => acc ^^^ (fun y => pmod (clmul y y) s.fieldPoly)^[2 * i] (s.srcF a)) 0) s) ∧
    (s.kind ≠ .binary → Raises (.bhtrace d a) .noField s)
end

