-- ==== Sys2Proof/Laws/Arith.lean ====
section
/-!
SUPPORT. The small lemmas of the arithmetic: exact differences, powers modulo m, shifts with carry, and the one-line
equations of the polynomial loops.
-/

namespace Sys2Proof.Machine

/-- The difference of two values below `m`, brought back into `[0, m)` (00_scope.md R10). -/
theorem subMod_eq {x y m : Nat} (hx : x < m) (hy : y < m) : subMod x y m = if y ≤ x then x - y else x + m - y := by
  unfold subMod
  split
  · rw [Int.emod_eq_of_lt (by omega) (by omega)]
    omega
  · rw [show ((x : Int) - y) % m = (x : Int) - y + m by
      rw [← Int.add_emod_right, Int.emod_eq_of_lt (by omega) (by omega)]]
    omega

theorem subMod_lt {x y m : Nat} (hm : 0 < m) : subMod x y m < m := by
  have h1 := Int.emod_nonneg ((x : Int) - y) (show (m : Int) ≠ 0 by omega)
  have h2 := Int.emod_lt_of_pos ((x : Int) - y) (show (0 : Int) < m by omega)
  unfold subMod
  omega

/-- The low `i + 1` bits of `e`, from its bit `i` and the low `i` bits. -/
theorem mod_two_pow_succ_eq (e i : Nat) : e % 2 ^ (i + 1) = (if e.testBit i then 2 ^ i else 0) + e % 2 ^ i := by
  rw [Nat.mod_pow_succ, Nat.testBit_eq_decide_div_mod_eq]
  have : e / 2 ^ i % 2 < 2 := Nat.mod_lt _ (by omega)
  split
  · rename_i h
    rw [show e / 2 ^ i % 2 = 1 by simpa using h]
    omega
  · rename_i h
    rw [show e / 2 ^ i % 2 = 0 by simp at h; omega]
    omega

/-- Square-and-multiply over the low `i` bits of `e`. -/
theorem powLoop_mulMod (p x e i acc : Nat) :
    powLoop (mulMod p) x e i acc ≡ acc ^ 2 ^ i * x ^ (e % 2 ^ i) [MOD p] := by
  induction i generalizing acc with
  | zero => simp [powLoop, Nat.mod_one, Nat.ModEq]
  | succ i ih =>
    have hsq : mulMod p acc acc ≡ acc * acc [MOD p] := Nat.mod_modEq _ _
    have hpow : (acc * acc) ^ 2 ^ i = acc ^ 2 ^ (i + 1) := by
      rw [Nat.pow_succ, Nat.mul_comm (2 ^ i) 2, Nat.pow_mul, Nat.pow_two]
    rw [powLoop, mod_two_pow_succ_eq]
    refine (ih _).trans ?_
    cases e.testBit i with
    | false => simpa [hpow] using (hsq.pow (2 ^ i)).mul_right (x ^ (e % 2 ^ i))
    | true =>
      have hmul : mulMod p (mulMod p acc acc) x ≡ acc * acc * x [MOD p] :=
        (Nat.mod_modEq _ _).trans (hsq.mul_right x)
      have := (hmul.pow (2 ^ i)).mul_right (x ^ (e % 2 ^ i))
      rwa [Nat.mul_pow, hpow, Nat.mul_assoc, ← Nat.pow_add] at this

/-- A residue stays one through square-and-multiply. -/
theorem powLoop_mulMod_lt (p x e i acc : Nat) (hp : 0 < p) (h : acc < p) : powLoop (mulMod p) x e i acc < p := by
  induction i generalizing acc with
  | zero => exact h
  | succ i ih =>
    rw [powLoop]
    apply ih
    split <;> exact Nat.mod_lt _ hp

/-- `powMod` computes the power modulo `p`. -/
theorem powMod_eq (p x e : Nat) (hp : 0 < p) : powMod p x e = x ^ e % p := by
  have hlt : powMod p x e < p := powLoop_mulMod_lt p x e _ _ hp (Nat.mod_lt _ hp)
  have he : e % 2 ^ (e.log2 + 1) = e := Nat.mod_eq_of_lt Nat.lt_log2_self
  have h := powLoop_mulMod p x e (e.log2 + 1) (1 % p)
  rw [he] at h
  have h1 : (1 % p) ^ 2 ^ (e.log2 + 1) * x ^ e ≡ x ^ e [MOD p] := by
    simpa using ((Nat.mod_modEq 1 p).pow (2 ^ (e.log2 + 1))).mul_right (x ^ e)
  exact (Nat.mod_eq_of_lt hlt).symm.trans (h.trans h1)

/-- A shift up with its carry-in is exact arithmetic: `x * 2^k + cin` (40_integer_core.md R114). -/
theorem shiftUpFull_eq {x k cin : Nat} (h : cin < 2 ^ k) : shiftUpFull x k cin = x * 2 ^ k + cin := by
  rw [shiftUpFull, ← Nat.shiftLeft_add_eq_or_of_lt h, Nat.shiftLeft_eq]

/-- A shift down with its carry-in is exact arithmetic: `x / 2^k + cin * 2^(32n - k)` (R114). -/
theorem shiftDownFull_eq {n x k cin : Nat} (hx : x < 2 ^ (32 * n)) (hk : k ≤ 32 * n) :
    shiftDownFull n x k cin = x / 2 ^ k + cin * 2 ^ (32 * n - k) := by
  have hlt : x >>> k < 2 ^ (32 * n - k) := by
    rw [Nat.shiftRight_eq_div_pow, Nat.div_lt_iff_lt_mul (Nat.two_pow_pos k), ← Nat.pow_add, Nat.sub_add_cancel hk]
    exact hx
  rw [shiftDownFull, Nat.or_comm, ← Nat.shiftLeft_add_eq_or_of_lt hlt, Nat.shiftLeft_eq, Nat.shiftRight_eq_div_pow,
    Nat.add_comm]

/-- The carry-in of a shift by `k` has `k` bits (R115). -/
theorem State.shiftIn_lt (s : State) (ci : Bool) (k : Nat) : s.shiftIn ci k < 2 ^ k := by
  unfold State.shiftIn
  split
  · exact Nat.mod_lt _ (Nat.two_pow_pos k)
  · exact Nat.two_pow_pos k

@[simp] theorem flagWord_toNat (b : Bool) : (flagWord b).toNat = b.toNat := by
  cases b <;> rfl

@[simp] theorem clmulLoop_zero (a b : Nat) : clmulLoop a b 0 = 0 := rfl

theorem clmulLoop_succ (a b i : Nat) :
    clmulLoop a b (i + 1) = if b.testBit i then clmulLoop a b i ^^^ (a <<< i) else clmulLoop a b i := rfl

/-- Bits of `b` that are zero add nothing to the product, so the count may be any bound on `b`. -/
theorem clmulLoop_eq_of_le (a b : Nat) {i j : Nat} (hij : i ≤ j) (h : ∀ k, i ≤ k → b.testBit k = false) :
    clmulLoop a b j = clmulLoop a b i := by
  induction j with
  | zero => rw [Nat.le_zero.mp hij]
  | succ j ih =>
    rcases Nat.lt_or_ge i (j + 1) with hlt | hge
    · rw [clmulLoop_succ, h j (by omega)]
      simpa using ih (by omega)
    · rw [show i = j + 1 by omega]

/-- The product taken with any count of bits that covers `b`. -/
theorem clmul_eq_loop (a b i : Nat) (h : b < 2 ^ i) : clmul a b = clmulLoop a b i := by
  have hb : ∀ k, i ≤ k → b.testBit k = false := fun k hk =>
    Nat.testBit_lt_two_pow (Nat.lt_of_lt_of_le h (Nat.pow_le_pow_right (by omega) hk))
  have hb' : ∀ k, b.log2 + 1 ≤ k → b.testBit k = false := fun k hk =>
    Nat.testBit_lt_two_pow (Nat.lt_of_lt_of_le Nat.lt_log2_self (Nat.pow_le_pow_right (by omega) hk))
  unfold clmul
  rcases Nat.le_total i (b.log2 + 1) with hle | hle
  · exact clmulLoop_eq_of_le a b hle hb
  · exact (clmulLoop_eq_of_le a b hle hb').symm

/-- The product over the low `i` bits of `b` stays below the bit that bit `i` would reach. -/
theorem clmulLoop_lt (a b i : Nat) : clmulLoop a b i < 2 ^ (a.log2 + i) := by
  induction i with
  | zero => simp
  | succ i ih =>
    have hlow : clmulLoop a b i < 2 ^ (a.log2 + (i + 1)) :=
      Nat.lt_of_lt_of_le ih (Nat.pow_le_pow_right (by omega) (by omega))
    rw [clmulLoop_succ]
    split
    · refine Nat.xor_lt_two_pow hlow ?_
      rw [Nat.shiftLeft_eq, show a.log2 + (i + 1) = a.log2 + 1 + i by omega, Nat.pow_add]
      exact Nat.mul_lt_mul_of_pos_right Nat.lt_log2_self (Nat.two_pow_pos i)
    · exact hlow

/-- The product of two non-zero polynomials has the bit at the sum of their degrees. -/
theorem clmul_testBit_log2 {a b : Nat} (ha : a ≠ 0) (hb : b ≠ 0) : (clmul a b).testBit (a.log2 + b.log2) = true := by
  rw [clmul, clmulLoop_succ, if_pos (Nat.testBit_log2 hb), Nat.testBit_xor,
    Nat.testBit_lt_two_pow (clmulLoop_lt a b b.log2)]
  simp [Nat.testBit_shiftLeft, Nat.testBit_log2 ha]

@[simp] theorem pmodLoop_zero (f d a : Nat) : pmodLoop f d 0 a = a := rfl

theorem pmodLoop_succ (f d i a : Nat) :
    pmodLoop f d (i + 1) a = pmodLoop f d i (if a.testBit (d + i) then a ^^^ (f <<< i) else a) := rfl

/-- Long division leaves nothing at or above the divisor's top bit, where that bit is at `d`. -/
theorem pmodLoop_lt {f d : Nat} (hf : f < 2 ^ (d + 1)) (hd : f.testBit d = true) (i a : Nat) (ha : a < 2 ^ (d + i)) :
    pmodLoop f d i a < 2 ^ d := by
  induction i generalizing a with
  | zero => simpa using ha
  | succ i ih =>
    rw [pmodLoop_succ]
    apply ih
    have hshift : f <<< i < 2 ^ (d + (i + 1)) := by
      rw [Nat.shiftLeft_eq, show d + (i + 1) = d + 1 + i by omega, Nat.pow_add]
      exact Nat.mul_lt_mul_of_pos_right hf (Nat.two_pow_pos i)
    split
    · rename_i hb
      apply Nat.lt_pow_two_of_testBit
      intro k hk
      rcases Nat.eq_or_lt_of_le hk with rfl | hk
      · simp [Nat.testBit_xor, hb, Nat.testBit_shiftLeft, hd]
      · rw [Nat.testBit_xor, Nat.testBit_lt_two_pow (Nat.lt_of_lt_of_le ha (Nat.pow_le_pow_right (by omega) (by omega))),
          Nat.testBit_lt_two_pow (Nat.lt_of_lt_of_le hshift (Nat.pow_le_pow_right (by omega) (by omega)))]
        rfl
    · rename_i hb
      apply Nat.lt_pow_two_of_testBit
      intro k hk
      rcases Nat.eq_or_lt_of_le hk with rfl | hk
      · simpa using hb
      · exact Nat.testBit_lt_two_pow (Nat.lt_of_lt_of_le ha (Nat.pow_le_pow_right (by omega) (by omega)))

/-- A remainder has a smaller degree than the divisor (00_scope.md R11). -/
theorem pmod_lt (a : Nat) {f : Nat} (hf : f ≠ 0) : pmod a f < 2 ^ f.log2 :=
  pmodLoop_lt Nat.lt_log2_self (Nat.testBit_log2 hf) _ _
    (Nat.lt_of_lt_of_le Nat.lt_log2_self (Nat.pow_le_pow_right (by omega) (by omega)))

@[simp] theorem gfSqrN_zero (f y : Nat) : gfSqrN f 0 y = y := rfl

theorem gfSqrN_succ (f k y : Nat) : gfSqrN f (k + 1) y = gfSqrN f k (gfSqr f y) := rfl

@[simp] theorem traceLoop_zero (sq : Nat → Nat) (acc y : Nat) : traceLoop sq 0 acc y = acc := rfl

theorem traceLoop_succ (sq : Nat → Nat) (k acc y : Nat) :
    traceLoop sq (k + 1) acc y = traceLoop sq k (acc ^^^ y) (sq y) := rfl

end Sys2Proof.Machine
end

