-- ==== Sys2Proof/Laws/Decode.lean ====
section
/-!
SUPPORT. The small lemmas of the decoder and the encoder: fields and words determine each other, register fields and
registers too, and what each format's decoder accepts.
-/

namespace Sys2Proof

/-- A word is its five fields side by side (30_encoding.md R81). -/
theorem fieldsOf_wordOf (f : Fields) : fieldsOf (wordOf f) = f := by
  obtain ⟨op, rd, rs1, rs2, imm⟩ := f
  simp only [fieldsOf, wordOf, Fields.mk.injEq]
  refine ⟨?_, ?_, ?_, ?_, ?_⟩ <;>
    (apply BitVec.eq_of_getLsbD_eq
     intro i hi
     simp only [BitVec.getLsbD_extractLsb', BitVec.getLsbD_append]
     simp only [hi, decide_true, Bool.true_and]
     repeat' split
     all_goals first
       | omega
       | (congr 1; omega))

/-- The five fields cover the whole word (R81). -/
theorem wordOf_fieldsOf (w : Word) : wordOf (fieldsOf w) = w := by
  simp only [fieldsOf, wordOf]
  apply BitVec.eq_of_getLsbD_eq
  intro i hi
  simp only [BitVec.getLsbD_extractLsb', BitVec.getLsbD_append]
  repeat' split
  all_goals
    rw [decide_eq_true (by omega), Bool.true_and]
    congr 1
    omega

theorem encode_eq_iff {w : Word} {i : Instr} : encode i = w ↔ encodeFields i = fieldsOf w := by
  constructor
  · rintro rfl
    exact (fieldsOf_wordOf _).symm
  · intro h
    rw [encode, h, wordOf_fieldsOf]

@[simp] theorem decode_encode_fields (i : Instr) : decode (encode i) = decodeFields (encodeFields i) := by
  rw [decode, encode, fieldsOf_wordOf]

@[simp] theorem regOf_regField (r : VIdx) : regOf (regField r) = some r := by
  revert r
  decide

theorem regOf_eq_some {x : BitVec 4} {r : VIdx} (h : regOf x = some r) : x = regField r := by
  revert x r
  decide

theorem checked_eq_ok {i j : Instr} (h : checked i = .ok j) : j = i ∧ i.wellFormed = true := by
  unfold checked at h
  split at h
  · exact ⟨by simpa using h.symm, ‹_›⟩
  · cases h

theorem checked_of_wellFormed {i : Instr} (h : i.wellFormed = true) : checked i = .ok i := by
  simp [checked, h]

theorem decodeZ_eq_ok {f : Fields} {i j : Instr} (h : decodeZ f i = .ok j) :
    j = i ∧ f = ⟨f.op, 0, 0, 0, 0⟩ := by
  unfold decodeZ at h
  split at h
  · rename_i hz
    obtain ⟨h1, h2, h3, h4⟩ := hz
    exact ⟨by simpa using h.symm, by cases f; simp_all⟩
  · cases h

theorem decodeS1_eq_ok {f : Fields} {c : VIdx → Instr} {j : Instr} (h : decodeS1 f c = .ok j) :
    ∃ a, j = c a ∧ f = ⟨f.op, 0, regField a, 0, 0⟩ := by
  unfold decodeS1 at h
  split at h
  · rename_i hz
    obtain ⟨h1, h2, h3⟩ := hz
    split at h
    · rename_i a ha
      exact ⟨a, by simpa using h.symm, by have := regOf_eq_some ha; cases f; simp_all⟩
    · cases h
  · cases h

theorem decodeS2_eq_ok {f : Fields} {c : VIdx → VIdx → Instr} {j : Instr} (h : decodeS2 f c = .ok j) :
    ∃ a b, j = c a b ∧ f = ⟨f.op, 0, regField a, regField b, 0⟩ := by
  unfold decodeS2 at h
  split at h
  · rename_i hz
    obtain ⟨h1, h2⟩ := hz
    split at h
    · rename_i a b ha hb
      exact ⟨a, b, by simpa using h.symm, by
        have := regOf_eq_some ha; have := regOf_eq_some hb; cases f; simp_all⟩
    · cases h
  · cases h

theorem decodeD1_eq_ok {f : Fields} {c : VIdx → VIdx → Instr} {j : Instr} (h : decodeD1 f c = .ok j) :
    ∃ d a, j = c d a ∧ f = ⟨f.op, regField d, regField a, 0, 0⟩ := by
  unfold decodeD1 at h
  split at h
  · rename_i hz
    obtain ⟨h1, h2⟩ := hz
    split at h
    · rename_i d a hd ha
      exact ⟨d, a, by simpa using h.symm, by
        have := regOf_eq_some hd; have := regOf_eq_some ha; cases f; simp_all⟩
    · cases h
  · cases h

theorem decodeD2_eq_ok {f : Fields} {c : VIdx → VIdx → VIdx → Instr} {j : Instr} (h : decodeD2 f c = .ok j) :
    ∃ d a b, j = c d a b ∧ f = ⟨f.op, regField d, regField a, regField b, 0⟩ := by
  unfold decodeD2 at h
  split at h
  · rename_i hz
    split at h
    · rename_i d a b hd ha hb
      exact ⟨d, a, b, by simpa using h.symm, by
        have := regOf_eq_some hd; have := regOf_eq_some ha; have := regOf_eq_some hb; cases f; simp_all⟩
    · cases h
  · cases h

/-- The parts of an immediate cover it: seven zero bits and a word count (R82, format I). -/
theorem imm_of_format_I {x : BitVec 12} (h : x.extractLsb' 5 7 = 0) : x = 0#7 ++ x.extractLsb' 0 5 := by
  revert x
  decide +kernel

/-- The parts of an immediate cover it: six zero bits, CI, five bits (R82, formats DC and DS). -/
theorem imm_of_format_DS {x : BitVec 12} (h : x.extractLsb' 6 6 = 0) :
    x = 0#6 ++ BitVec.ofBool (x.getLsbD 5) ++ x.extractLsb' 0 5 := by
  revert x
  decide +kernel

theorem decodeI_eq_ok {f : Fields} {c : BitVec 5 → Instr} {j : Instr} (h : decodeI f c = .ok j) :
    ∃ n, j = c n ∧ j.wellFormed = true ∧ f = ⟨f.op, 0, 0, 0, 0#7 ++ n⟩ := by
  unfold decodeI at h
  split at h
  · rename_i hz
    obtain ⟨h1, h2, h3, h4⟩ := hz
    obtain ⟨hj, hwf⟩ := checked_eq_ok h
    exact ⟨_, hj, hj ▸ hwf, Fields.mk.injEq .. ▸ ⟨rfl, h1, h2, h3, imm_of_format_I h4⟩⟩
  · cases h

theorem decodeDC_eq_ok {f : Fields} {c : VIdx → VIdx → Bool → Instr} {j : Instr} (h : decodeDC f c = .ok j) :
    ∃ d a ci, j = c d a ci ∧ f = ⟨f.op, regField d, regField a, 0, 0#6 ++ BitVec.ofBool ci ++ 0#5⟩ := by
  unfold decodeDC at h
  split at h
  · rename_i hz
    obtain ⟨h1, h2, h3⟩ := hz
    split at h
    · rename_i d a hd ha
      refine ⟨d, a, _, by simpa using h.symm, ?_⟩
      have himm := imm_of_format_DS h2
      rw [h3] at himm
      exact Fields.mk.injEq .. ▸ ⟨rfl, regOf_eq_some hd, regOf_eq_some ha, h1, himm⟩
    · cases h
  · cases h

theorem decodeDS_eq_ok {f : Fields} {c : VIdx → VIdx → Bool → BitVec 5 → Instr} {j : Instr}
    (h : decodeDS f c = .ok j) :
    ∃ d a ci k, j = c d a ci k ∧ j.wellFormed = true ∧
      f = ⟨f.op, regField d, regField a, 0, 0#6 ++ BitVec.ofBool ci ++ k⟩ := by
  unfold decodeDS at h
  split at h
  · rename_i hz
    obtain ⟨h1, h2⟩ := hz
    split at h
    · rename_i d a hd ha
      obtain ⟨hj, hwf⟩ := checked_eq_ok h
      refine ⟨d, a, _, _, hj, hj ▸ hwf, ?_⟩
      have himm := imm_of_format_DS h2
      exact Fields.mk.injEq .. ▸ ⟨rfl, regOf_eq_some hd, regOf_eq_some ha, h1, himm⟩
    · cases h
  · cases h

theorem decodeDK_eq_ok {f : Fields} {c : VIdx → VIdx → BitVec 12 → Instr} {j : Instr} (h : decodeDK f c = .ok j) :
    ∃ d a k, j = c d a k ∧ j.wellFormed = true ∧ f = ⟨f.op, regField d, regField a, 0, k⟩ := by
  unfold decodeDK at h
  split at h
  · rename_i hz
    split at h
    · rename_i d a hd ha
      obtain ⟨hj, hwf⟩ := checked_eq_ok h
      exact ⟨d, a, _, hj, hj ▸ hwf, by
        have := regOf_eq_some hd; have := regOf_eq_some ha; cases f; simp_all⟩
    · cases h
  · cases h

end Sys2Proof
end

