-- ==== Sys2Proof/Laws/State.lean ====
section
/-!
SUPPORT. One lemma per field per update of State, so that no proof unfolds a record update.
-/

namespace Sys2Proof.Machine

section writeReg
variable (s : State) (r : VIdx) (len z : Nat)

@[simp] theorem State.writeReg_v : (s.writeReg r len z).v = s.v.set r.val (writeVec s.v[r.val] len z) := rfl
@[simp] theorem State.writeReg_cw : (s.writeReg r len z).cw = s.cw := rfl
@[simp] theorem State.writeReg_t : (s.writeReg r len z).t = s.t := rfl
@[simp] theorem State.writeReg_n : (s.writeReg r len z).n = s.n := rfl
@[simp] theorem State.writeReg_kind : (s.writeReg r len z).kind = s.kind := rfl
@[simp] theorem State.writeReg_fn : (s.writeReg r len z).fn = s.fn := rfl
@[simp] theorem State.writeReg_p : (s.writeReg r len z).p = s.p := rfl
@[simp] theorem State.writeReg_m : (s.writeReg r len z).m = s.m := rfl
@[simp] theorem State.writeReg_k1 : (s.writeReg r len z).k1 = s.k1 := rfl
@[simp] theorem State.writeReg_k2 : (s.writeReg r len z).k2 = s.k2 := rfl
@[simp] theorem State.writeReg_k3 : (s.writeReg r len z).k3 = s.k3 := rfl
@[simp] theorem State.writeReg_err : (s.writeReg r len z).err = s.err := rfl
@[simp] theorem State.writeReg_ecmd : (s.writeReg r len z).ecmd = s.ecmd := rfl
@[simp] theorem State.writeReg_inbox : (s.writeReg r len z).inbox = s.inbox := rfl
@[simp] theorem State.writeReg_outbox : (s.writeReg r len z).outbox = s.outbox := rfl

end writeReg

section writeLimb
variable (s : State) (r : VIdx) (j : Fin 36) (x : Limb)

@[simp] theorem State.writeLimb_v : (s.writeLimb r j x).v = s.v.set r.val (s.v[r.val].set j.val x) := rfl
@[simp] theorem State.writeLimb_cw : (s.writeLimb r j x).cw = s.cw := rfl
@[simp] theorem State.writeLimb_t : (s.writeLimb r j x).t = s.t := rfl
@[simp] theorem State.writeLimb_n : (s.writeLimb r j x).n = s.n := rfl
@[simp] theorem State.writeLimb_kind : (s.writeLimb r j x).kind = s.kind := rfl
@[simp] theorem State.writeLimb_fn : (s.writeLimb r j x).fn = s.fn := rfl
@[simp] theorem State.writeLimb_p : (s.writeLimb r j x).p = s.p := rfl
@[simp] theorem State.writeLimb_m : (s.writeLimb r j x).m = s.m := rfl
@[simp] theorem State.writeLimb_k1 : (s.writeLimb r j x).k1 = s.k1 := rfl
@[simp] theorem State.writeLimb_k2 : (s.writeLimb r j x).k2 = s.k2 := rfl
@[simp] theorem State.writeLimb_k3 : (s.writeLimb r j x).k3 = s.k3 := rfl
@[simp] theorem State.writeLimb_err : (s.writeLimb r j x).err = s.err := rfl
@[simp] theorem State.writeLimb_ecmd : (s.writeLimb r j x).ecmd = s.ecmd := rfl
@[simp] theorem State.writeLimb_inbox : (s.writeLimb r j x).inbox = s.inbox := rfl
@[simp] theorem State.writeLimb_outbox : (s.writeLimb r j x).outbox = s.outbox := rfl

end writeLimb

section setCw
variable (s : State) (c : Word)

@[simp] theorem State.setCw_v : (s.setCw c).v = s.v := rfl
@[simp] theorem State.setCw_cw : (s.setCw c).cw = c := rfl
@[simp] theorem State.setCw_t : (s.setCw c).t = s.t := rfl
@[simp] theorem State.setCw_n : (s.setCw c).n = s.n := rfl
@[simp] theorem State.setCw_kind : (s.setCw c).kind = s.kind := rfl
@[simp] theorem State.setCw_fn : (s.setCw c).fn = s.fn := rfl
@[simp] theorem State.setCw_p : (s.setCw c).p = s.p := rfl
@[simp] theorem State.setCw_m : (s.setCw c).m = s.m := rfl
@[simp] theorem State.setCw_k1 : (s.setCw c).k1 = s.k1 := rfl
@[simp] theorem State.setCw_k2 : (s.setCw c).k2 = s.k2 := rfl
@[simp] theorem State.setCw_k3 : (s.setCw c).k3 = s.k3 := rfl
@[simp] theorem State.setCw_err : (s.setCw c).err = s.err := rfl
@[simp] theorem State.setCw_ecmd : (s.setCw c).ecmd = s.ecmd := rfl
@[simp] theorem State.setCw_inbox : (s.setCw c).inbox = s.inbox := rfl
@[simp] theorem State.setCw_outbox : (s.setCw c).outbox = s.outbox := rfl

end setCw

section setT
variable (s : State) (b : Bool)

@[simp] theorem State.setT_v : (s.setT b).v = s.v := rfl
@[simp] theorem State.setT_cw : (s.setT b).cw = s.cw := rfl
@[simp] theorem State.setT_t : (s.setT b).t = b := rfl
@[simp] theorem State.setT_n : (s.setT b).n = s.n := rfl
@[simp] theorem State.setT_kind : (s.setT b).kind = s.kind := rfl
@[simp] theorem State.setT_fn : (s.setT b).fn = s.fn := rfl
@[simp] theorem State.setT_p : (s.setT b).p = s.p := rfl
@[simp] theorem State.setT_m : (s.setT b).m = s.m := rfl
@[simp] theorem State.setT_k1 : (s.setT b).k1 = s.k1 := rfl
@[simp] theorem State.setT_k2 : (s.setT b).k2 = s.k2 := rfl
@[simp] theorem State.setT_k3 : (s.setT b).k3 = s.k3 := rfl
@[simp] theorem State.setT_err : (s.setT b).err = s.err := rfl
@[simp] theorem State.setT_ecmd : (s.setT b).ecmd = s.ecmd := rfl
@[simp] theorem State.setT_inbox : (s.setT b).inbox = s.inbox := rfl
@[simp] theorem State.setT_outbox : (s.setT b).outbox = s.outbox := rfl

end setT

section raise
variable (s : State) (e : ErrCode) (w : Word)

@[simp] theorem State.raise_v : (s.raise e w).v = s.v := rfl
@[simp] theorem State.raise_cw : (s.raise e w).cw = s.cw := rfl
@[simp] theorem State.raise_t : (s.raise e w).t = s.t := rfl
@[simp] theorem State.raise_n : (s.raise e w).n = s.n := rfl
@[simp] theorem State.raise_kind : (s.raise e w).kind = s.kind := rfl
@[simp] theorem State.raise_fn : (s.raise e w).fn = s.fn := rfl
@[simp] theorem State.raise_p : (s.raise e w).p = s.p := rfl
@[simp] theorem State.raise_m : (s.raise e w).m = s.m := rfl
@[simp] theorem State.raise_k1 : (s.raise e w).k1 = s.k1 := rfl
@[simp] theorem State.raise_k2 : (s.raise e w).k2 = s.k2 := rfl
@[simp] theorem State.raise_k3 : (s.raise e w).k3 = s.k3 := rfl
@[simp] theorem State.raise_err : (s.raise e w).err = e := rfl
@[simp] theorem State.raise_ecmd : (s.raise e w).ecmd = w := rfl
@[simp] theorem State.raise_inbox : (s.raise e w).inbox = s.inbox := rfl
@[simp] theorem State.raise_outbox : (s.raise e w).outbox = s.outbox := rfl

end raise

section respond
variable (s : State) (st : PortStatus) (x : Option Word)

@[simp] theorem State.respond_v : (s.respond st x).v = s.v := rfl
@[simp] theorem State.respond_cw : (s.respond st x).cw = s.cw := rfl
@[simp] theorem State.respond_t : (s.respond st x).t = s.t := rfl
@[simp] theorem State.respond_n : (s.respond st x).n = s.n := rfl
@[simp] theorem State.respond_kind : (s.respond st x).kind = s.kind := rfl
@[simp] theorem State.respond_fn : (s.respond st x).fn = s.fn := rfl
@[simp] theorem State.respond_p : (s.respond st x).p = s.p := rfl
@[simp] theorem State.respond_m : (s.respond st x).m = s.m := rfl
@[simp] theorem State.respond_k1 : (s.respond st x).k1 = s.k1 := rfl
@[simp] theorem State.respond_k2 : (s.respond st x).k2 = s.k2 := rfl
@[simp] theorem State.respond_k3 : (s.respond st x).k3 = s.k3 := rfl
@[simp] theorem State.respond_err : (s.respond st x).err = s.err := rfl
@[simp] theorem State.respond_ecmd : (s.respond st x).ecmd = s.ecmd := rfl
@[simp] theorem State.respond_inbox : (s.respond st x).inbox = s.inbox := rfl
@[simp] theorem State.respond_outbox : (s.respond st x).outbox = s.outbox ++ [⟨st, x⟩] := rfl

end respond

section resetArch
variable (s : State) 

@[simp] theorem State.resetArch_v : (s.resetArch).v = Vector.replicate 8 (Vector.replicate 36 0#32) := rfl
@[simp] theorem State.resetArch_cw : (s.resetArch).cw = 0 := rfl
@[simp] theorem State.resetArch_t : (s.resetArch).t = false := rfl
@[simp] theorem State.resetArch_n : (s.resetArch).n = 1 := rfl
@[simp] theorem State.resetArch_kind : (s.resetArch).kind = .none := rfl
@[simp] theorem State.resetArch_fn : (s.resetArch).fn = 0 := rfl
@[simp] theorem State.resetArch_p : (s.resetArch).p = Vector.replicate 18 0#32 := rfl
@[simp] theorem State.resetArch_m : (s.resetArch).m = 0 := rfl
@[simp] theorem State.resetArch_k1 : (s.resetArch).k1 = 0 := rfl
@[simp] theorem State.resetArch_k2 : (s.resetArch).k2 = 0 := rfl
@[simp] theorem State.resetArch_k3 : (s.resetArch).k3 = 0 := rfl
@[simp] theorem State.resetArch_err : (s.resetArch).err = .none := rfl
@[simp] theorem State.resetArch_ecmd : (s.resetArch).ecmd = 0 := rfl
@[simp] theorem State.resetArch_inbox : (s.resetArch).inbox = s.inbox := rfl
@[simp] theorem State.resetArch_outbox : (s.resetArch).outbox = s.outbox := rfl

end resetArch

section installPrime
variable (s : State) (a : VIdx)

@[simp] theorem State.installPrime_v : (s.installPrime a).v = s.v := rfl
@[simp] theorem State.installPrime_cw : (s.installPrime a).cw = s.cw := rfl
@[simp] theorem State.installPrime_t : (s.installPrime a).t = s.t := rfl
@[simp] theorem State.installPrime_n : (s.installPrime a).n = s.n := rfl
@[simp] theorem State.installPrime_kind : (s.installPrime a).kind = .prime := rfl
@[simp] theorem State.installPrime_fn : (s.installPrime a).fn = s.n := rfl
@[simp] theorem State.installPrime_p : (s.installPrime a).p = writeVec (Vector.replicate 18 0#32) s.words (s.srcN a) := rfl
@[simp] theorem State.installPrime_m : (s.installPrime a).m = 0 := rfl
@[simp] theorem State.installPrime_k1 : (s.installPrime a).k1 = 0 := rfl
@[simp] theorem State.installPrime_k2 : (s.installPrime a).k2 = 0 := rfl
@[simp] theorem State.installPrime_k3 : (s.installPrime a).k3 = 0 := rfl
@[simp] theorem State.installPrime_err : (s.installPrime a).err = s.err := rfl
@[simp] theorem State.installPrime_ecmd : (s.installPrime a).ecmd = s.ecmd := rfl
@[simp] theorem State.installPrime_inbox : (s.installPrime a).inbox = s.inbox := rfl
@[simp] theorem State.installPrime_outbox : (s.installPrime a).outbox = s.outbox := rfl

end installPrime

section installBinary
variable (s : State) (m k1 k2 k3 : Nat)

@[simp] theorem State.installBinary_v : (s.installBinary m k1 k2 k3).v = s.v := rfl
@[simp] theorem State.installBinary_cw : (s.installBinary m k1 k2 k3).cw = s.cw := rfl
@[simp] theorem State.installBinary_t : (s.installBinary m k1 k2 k3).t = s.t := rfl
@[simp] theorem State.installBinary_n : (s.installBinary m k1 k2 k3).n = s.n := rfl
@[simp] theorem State.installBinary_kind : (s.installBinary m k1 k2 k3).kind = .binary := rfl
@[simp] theorem State.installBinary_fn : (s.installBinary m k1 k2 k3).fn = BitVec.ofNat 5 (wordsOfDegree m) := rfl
@[simp] theorem State.installBinary_p : (s.installBinary m k1 k2 k3).p = Vector.replicate 18 0#32 := rfl
@[simp] theorem State.installBinary_m : (s.installBinary m k1 k2 k3).m = BitVec.ofNat 10 m := rfl
@[simp] theorem State.installBinary_k1 : (s.installBinary m k1 k2 k3).k1 = BitVec.ofNat 10 k1 := rfl
@[simp] theorem State.installBinary_k2 : (s.installBinary m k1 k2 k3).k2 = BitVec.ofNat 10 k2 := rfl
@[simp] theorem State.installBinary_k3 : (s.installBinary m k1 k2 k3).k3 = BitVec.ofNat 10 k3 := rfl
@[simp] theorem State.installBinary_err : (s.installBinary m k1 k2 k3).err = s.err := rfl
@[simp] theorem State.installBinary_ecmd : (s.installBinary m k1 k2 k3).ecmd = s.ecmd := rfl
@[simp] theorem State.installBinary_inbox : (s.installBinary m k1 k2 k3).inbox = s.inbox := rfl
@[simp] theorem State.installBinary_outbox : (s.installBinary m k1 k2 k3).outbox = s.outbox := rfl

end installBinary

section clearErr
variable (s : State)

/-- Return from an error: a pending error other than the fatal one is cleared (60_exceptions.md R226, R227). -/
@[simp] theorem State.clearErr_err : s.clearErr.err = if s.err = .invZero then .invZero else .none := by
  unfold State.clearErr
  split <;> simp_all

@[simp] theorem State.clearErr_v : s.clearErr.v = s.v := by unfold State.clearErr; split <;> rfl
@[simp] theorem State.clearErr_cw : s.clearErr.cw = s.cw := by unfold State.clearErr; split <;> rfl
@[simp] theorem State.clearErr_t : s.clearErr.t = s.t := by unfold State.clearErr; split <;> rfl
@[simp] theorem State.clearErr_n : s.clearErr.n = s.n := by unfold State.clearErr; split <;> rfl
@[simp] theorem State.clearErr_kind : s.clearErr.kind = s.kind := by unfold State.clearErr; split <;> rfl
@[simp] theorem State.clearErr_fn : s.clearErr.fn = s.fn := by unfold State.clearErr; split <;> rfl
@[simp] theorem State.clearErr_p : s.clearErr.p = s.p := by unfold State.clearErr; split <;> rfl
@[simp] theorem State.clearErr_m : s.clearErr.m = s.m := by unfold State.clearErr; split <;> rfl
@[simp] theorem State.clearErr_k1 : s.clearErr.k1 = s.k1 := by unfold State.clearErr; split <;> rfl
@[simp] theorem State.clearErr_k2 : s.clearErr.k2 = s.k2 := by unfold State.clearErr; split <;> rfl
@[simp] theorem State.clearErr_k3 : s.clearErr.k3 = s.k3 := by unfold State.clearErr; split <;> rfl
@[simp] theorem State.clearErr_ecmd : s.clearErr.ecmd = s.ecmd := by unfold State.clearErr; split <;> rfl
@[simp] theorem State.clearErr_inbox : s.clearErr.inbox = s.inbox := by unfold State.clearErr; split <;> rfl
@[simp] theorem State.clearErr_outbox : s.clearErr.outbox = s.outbox := by unfold State.clearErr; split <;> rfl

end clearErr

/-- Two states with equal fields are equal. -/
theorem State.eq_of_fields {s t : State} (hv : s.v = t.v) (hcw : s.cw = t.cw) (ht : s.t = t.t) (hn : s.n = t.n)
    (hkind : s.kind = t.kind) (hfn : s.fn = t.fn) (hp : s.p = t.p) (hm : s.m = t.m) (hk1 : s.k1 = t.k1)
    (hk2 : s.k2 = t.k2) (hk3 : s.k3 = t.k3) (herr : s.err = t.err) (hecmd : s.ecmd = t.ecmd)
    (hin : s.inbox = t.inbox) (hout : s.outbox = t.outbox) : s = t := by
  cases s
  cases t
  simp_all

end Sys2Proof.Machine
end

