-- ==== Sys2Proof/Laws/Limbs.lean ====
section
/-!
SUPPORT. Limb vectors as integers: what a read gives after a write, and what a write leaves alone (00_scope.md R10,
10_state.md R22).
-/

namespace Sys2Proof.Machine

@[simp] theorem limbsVal_nil : limbsVal [] = 0 := rfl

@[simp] theorem limbsVal_cons (x : Limb) (xs : List Limb) : limbsVal (x :: xs) = x.toNat + 2 ^ 32 * limbsVal xs := rfl

theorem limbsVal_lt (xs : List Limb) : limbsVal xs < 2 ^ (32 * xs.length) := by
  induction xs with
  | nil => simp
  | cons x xs ih =>
    have hx := x.isLt
    rw [limbsVal_cons, List.length_cons, Nat.mul_succ, Nat.pow_add]
    have : 2 ^ 32 * (limbsVal xs + 1) ≤ 2 ^ 32 * 2 ^ (32 * xs.length) := Nat.mul_le_mul_left _ ih
    rw [Nat.mul_comm (2 ^ (32 * xs.length))]
    omega

/-- The low limbs after a write are the low bits of what was written. -/
theorem limbsVal_take_writeLow (xs : List Limb) (len z : Nat) (h : len ≤ xs.length) :
    limbsVal ((writeLow xs len z).take len) = z % 2 ^ (32 * len) := by
  induction len generalizing xs z with
  | zero => simp [Nat.mod_one]
  | succ len ih =>
    cases xs with
    | nil => simp at h
    | cons x xs =>
      have h' : len ≤ xs.length := by simpa using h
      simp only [writeLow, List.take_succ_cons, limbsVal_cons, ih xs _ h', BitVec.toNat_ofNat]
      rw [Nat.mul_succ, Nat.add_comm (32 * len), Nat.pow_add]
      exact (Nat.mod_mul).symm

/-- One limb after a write: a slice of what was written below `len`, what it was from `len` on. -/
theorem getD_writeLow (xs : List Limb) (len z j : Nat) (hj : j < xs.length) :
    (writeLow xs len z).getD j 0 = if j < len then BitVec.ofNat 32 (z / 2 ^ (32 * j)) else xs.getD j 0 := by
  induction xs generalizing len z j with
  | nil => simp at hj
  | cons x xs ih =>
    cases len with
    | zero => simp [writeLow]
    | succ len =>
      cases j with
      | zero => simp [writeLow]
      | succ j =>
        have hj' : j < xs.length := by simpa using hj
        have := ih len (z / 2 ^ 32) j hj'
        simp only [writeLow, List.getD_cons_succ, this, Nat.div_div_eq_div_mul, ← Nat.pow_add, Nat.mul_succ,
          Nat.add_comm (32 * j)]
        simp

/-- One limb of the integer a limb list stands for. -/
theorem getD_eq_ofNat_limbsVal (xs : List Limb) (len j : Nat) (hj : j < len) (hlen : j < xs.length) :
    xs.getD j 0 = BitVec.ofNat 32 (limbsVal (xs.take len) / 2 ^ (32 * j)) := by
  induction xs generalizing len j with
  | nil => simp at hlen
  | cons x xs ih =>
    obtain ⟨len, rfl⟩ : ∃ l, len = l + 1 := ⟨len - 1, by omega⟩
    have hx := x.isLt
    cases j with
    | zero =>
      apply BitVec.eq_of_toNat_eq
      simp only [List.getD_cons_zero, List.take_succ_cons, limbsVal_cons, BitVec.toNat_ofNat]
      omega
    | succ j =>
      have hlen' : j < xs.length := by simpa using hlen
      have hdiv : (x.toNat + 2 ^ 32 * limbsVal (xs.take len)) / 2 ^ 32 = limbsVal (xs.take len) := by omega
      rw [List.getD_cons_succ, ih len j (by omega) hlen', List.take_succ_cons, limbsVal_cons, Nat.mul_succ,
        Nat.add_comm (32 * j), Nat.pow_add, ← Nat.div_div_eq_div_mul, hdiv]

/-- Equal low limbs stand for equal integers. -/
theorem limbsVal_take_congr (xs ys : List Limb) (len : Nat) (hlen : xs.length = ys.length)
    (h : ∀ j < len, xs.getD j 0 = ys.getD j 0) : limbsVal (xs.take len) = limbsVal (ys.take len) := by
  induction xs generalizing ys len with
  | nil =>
    cases ys with
    | nil => rfl
    | cons y ys => simp at hlen
  | cons x xs ih =>
    cases ys with
    | nil => simp at hlen
    | cons y ys =>
      cases len with
      | zero => simp
      | succ len =>
        have hx : x = y := by simpa using h 0 (Nat.succ_pos _)
        have hxs := ih ys len (by simpa using hlen) fun j hj => by simpa using h (j + 1) (by omega)
        simp [hx, hxs]

@[simp] theorem writeVec_toList {k : Nat} (reg : Vector Limb k) (len z : Nat) :
    (writeVec reg len z).toList = writeLow reg.toList len z := by
  simp [writeVec, Vector.toList]

/-- `0 <= val(r, len) < 2^(32 len)` (R10). -/
theorem State.val_lt (s : State) (r : VIdx) (len : Nat) : s.val r len < 2 ^ (32 * len) := by
  refine Nat.lt_of_lt_of_le (limbsVal_lt _) (Nat.pow_le_pow_right (by omega) ?_)
  simp only [List.length_take]
  omega

/-- `val` reads only limbs. -/
theorem State.val_congr (s t : State) (r r' : VIdx) (len : Nat) (h : ∀ j < len, s.limb r j = t.limb r' j) :
    s.val r len = t.val r' len :=
  limbsVal_take_congr _ _ _ (by simp) h

/-- A limb is a slice of the integer its register's low limbs stand for. -/
theorem State.limb_eq_ofNat_val (s : State) (r : VIdx) (len j : Nat) (hj : j < len) (h36 : j < 36) :
    s.limb r j = BitVec.ofNat 32 (s.val r len / 2 ^ (32 * j)) :=
  getD_eq_ofNat_limbsVal _ _ _ hj (by simpa using h36)

/-- A limb above the top of a register does not exist and reads as 0 (log entry 5). -/
theorem State.limb_of_ge (s : State) (r : VIdx) (j : Nat) (h : 36 ≤ j) : s.limb r j = 0 := by
  unfold State.limb
  rw [List.getD_eq_default]
  simpa using h

/-- One limb of a written state: below `len` in the written register a slice of what was written, else what it was. -/
theorem State.limb_writeReg (s : State) (d r : VIdx) (len z j : Nat) :
    (s.writeReg d len z).limb r j =
      if r = d ∧ j < len ∧ j < 36 then BitVec.ofNat 32 (z / 2 ^ (32 * j)) else s.limb r j := by
  by_cases h36 : j < 36
  · by_cases hr : r = d
    · subst hr
      simp only [State.limb, State.writeReg_v, Vector.getElem_set_self, writeVec_toList]
      rw [getD_writeLow _ _ _ _ (by simpa using h36)]
      simp [h36]
    · have hne : d.val ≠ r.val := fun h => hr (Fin.ext h.symm)
      simp [State.limb, hr, Vector.getElem_set_ne _ _ hne]
  · rw [State.limb_of_ge _ _ _ (by omega), if_neg (by omega), State.limb_of_ge _ _ _ (by omega)]

/-- The written limbs stand for what was written (R10). -/
theorem State.val_writeReg_self (s : State) (d : VIdx) (len z : Nat) (h : len ≤ 36) :
    (s.writeReg d len z).val d len = z % 2 ^ (32 * len) := by
  simp only [State.val, State.writeReg_v, Vector.getElem_set_self, writeVec_toList]
  exact limbsVal_take_writeLow _ _ _ (by simpa using h)

/-- What fits is read back as it was written. -/
theorem State.val_writeReg_of_lt (s : State) (d : VIdx) (len z : Nat) (h : len ≤ 36) (hz : z < 2 ^ (32 * len)) :
    (s.writeReg d len z).val d len = z := by
  rw [s.val_writeReg_self d len z h, Nat.mod_eq_of_lt hz]

/-- A write leaves every other register alone (10_state.md R22). -/
theorem State.val_writeReg_ne (s : State) (d r : VIdx) (len z len' : Nat) (h : r ≠ d) :
    (s.writeReg d len z).val r len' = s.val r len' := by
  have hne : d.val ≠ r.val := fun e => h (Fin.ext e.symm)
  simp [State.val, Vector.getElem_set_ne _ _ hne]

/-- `limb` and `val` read only the vector registers. -/
theorem State.limb_of_v_eq {s t : State} (h : t.v = s.v) (r : VIdx) (j : Nat) : t.limb r j = s.limb r j := by
  simp [State.limb, h]

theorem State.val_of_v_eq {s t : State} (h : t.v = s.v) (r : VIdx) (len : Nat) : t.val r len = s.val r len := by
  simp [State.val, h]

end Sys2Proof.Machine
end

