-- ==== Sys2Proof/Laws/Effects.lean ====
section
/-!
SUPPORT. For each shared operation, what it can do, said once: the meanings' results and frames follow from these.
-/

namespace Sys2Proof.Machine

@[simp] theorem firstFailure_nil : firstFailure [] = none := rfl

@[simp] theorem firstFailure_cons (b : Bool) (e : ErrCode) (rest : List (Bool × ErrCode)) :
    firstFailure ((b, e) :: rest) = if b then some e else firstFailure rest := by
  cases b <;> rfl

@[simp] theorem commit_none (w : Word) (s t : State) : commit none w s t = .next t := rfl

@[simp] theorem commit_some (e : ErrCode) (w : Word) (s t : State) : commit (some e) w s t = .next (s.raise e w) := rfl

/-- A command ends in its effect or in one raised error, never in anything else (60_exceptions.md R223, R224). -/
theorem commit_cases {f : Option ErrCode} {w : Word} {s t u : State} (h : commit f w s t = .next u) :
    (f = none ∧ u = t) ∨ ∃ e, f = some e ∧ u = s.raise e w := by
  cases f with
  | none => exact .inl ⟨rfl, by simpa using h.symm⟩
  | some e => exact .inr ⟨e, rfl, by simpa using h.symm⟩

/-- `commit` always answers a next state. -/
theorem commit_next (f : Option ErrCode) (w : Word) (s t : State) : ∃ u, commit f w s t = .next u := by
  cases f <;> exact ⟨_, rfl⟩

@[simp] theorem onNext_next (f : State → State) (s : State) : onNext f (.next s) = .next (f s) := rfl

/-- What a write to the low limbs of one register leaves alone. -/
theorem onlyLow_writeReg (s : State) (d : VIdx) (len z : Nat) : OnlyLow s (s.writeReg d len z) d len := by
  intro r j
  rw [State.limb_writeReg]
  by_cases h : r = d ∧ j < len ∧ j < 36
  · exact .inl ⟨h.1, h.2.1⟩
  · exact .inr (if_neg h)

/-- The frame of a register result (10_state.md R22): only those limbs of that register. -/
theorem onlyResult_writeReg (s : State) (d : VIdx) (len z : Nat) : OnlyResult s (s.writeReg d len z) d len :=
  ⟨onlyLow_writeReg s d len z, rfl, rfl, by simp [SameControl]⟩

/-- The frame of a result with a carry word. -/
theorem onlyLow_writeReg_setCw (s : State) (d : VIdx) (len z : Nat) (c : Word) :
    OnlyLow s ((s.writeReg d len z).setCw c) d len :=
  onlyLow_writeReg s d len z

/-- All that an integer-core command with a carry word does (40_integer_core.md R100). -/
theorem endCarry_spec {s t : State} {d : VIdx} {z : Nat} {c : Word} (h : endCarry s d z c = .next t) :
    t = (s.writeReg d s.words z).setCw c ∧ t.val d s.words = z % s.base ∧ t.cw = c ∧ t.t = s.t ∧
      OnlyLow s t d s.words ∧ SameControl s t := by
  obtain rfl : (s.writeReg d s.words z).setCw c = t := by simpa [endCarry] using h
  have hn : s.words ≤ 36 := by have := s.n.isLt; simp only [State.words]; omega
  exact ⟨rfl, s.val_writeReg_self d s.words z hn, rfl, rfl, onlyLow_writeReg_setCw s d _ z c, by simp [SameControl]⟩

/-- All that an integer-core command with a double-width result does (R105). -/
theorem endWide_spec {s t : State} {d : VIdx} {z : Nat} (hwf : s.words ≤ 18) (h : endWide s d z = .next t) :
    t = s.writeReg d (2 * s.words) z ∧ t.val d (2 * s.words) = z % 2 ^ (32 * (2 * s.words)) ∧
      OnlyResult s t d (2 * s.words) := by
  obtain rfl : s.writeReg d (2 * s.words) z = t := by simpa [endWide] using h
  exact ⟨rfl, s.val_writeReg_self d _ z (by omega), onlyResult_writeReg ..⟩

/-- All that a comparator does (R111). -/
theorem endTest_spec {s t : State} {b : Bool} (h : endTest s b = .next t) : t = s.setT b ∧ t.t = b ∧ OnlyT s t := by
  obtain rfl : s.setT b = t := by simpa [endTest] using h
  exact ⟨rfl, rfl, rfl, rfl, by simp [SameControl]⟩

/-- A prime-field command whose checks pass (41_prime_field.md R130). -/
theorem firstFailure_primeChecks {s : State} {srcs : List VIdx} (hk : s.kind = .prime)
    (hc : ∀ r ∈ srcs, s.srcF r < s.modulus) : firstFailure (s.primeChecks srcs) = none := by
  simp [State.primeChecks, hk, State.canonP]
  simpa using hc

/-- A prime-field command passes its checks only with a prime descriptor and canonical sources. -/
theorem of_firstFailure_primeChecks {s : State} {srcs : List VIdx} (h : firstFailure (s.primeChecks srcs) = none) :
    s.kind = .prime ∧ ∀ r ∈ srcs, s.srcF r < s.modulus := by
  simp only [State.primeChecks, firstFailure_cons, firstFailure_nil] at h
  split at h
  · cases h
  · rename_i hk
    split at h
    · cases h
    · rename_i hc
      exact ⟨by simpa using hk, by simpa [State.canonP] using hc⟩

/-- A binary-field command whose checks pass (42_binary_field.md R162). -/
theorem firstFailure_binaryChecks {s : State} {srcs : List VIdx} (hk : s.kind = .binary)
    (hc : ∀ r ∈ srcs, s.srcF r < 2 ^ s.degree) : firstFailure (s.binaryChecks srcs) = none := by
  simp [State.binaryChecks, hk, State.canonB]
  simpa using hc

/-- A binary-field command passes its checks only with a binary descriptor and canonical sources. -/
theorem of_firstFailure_binaryChecks {s : State} {srcs : List VIdx} (h : firstFailure (s.binaryChecks srcs) = none) :
    s.kind = .binary ∧ ∀ r ∈ srcs, s.srcF r < 2 ^ s.degree := by
  simp only [State.binaryChecks, firstFailure_cons, firstFailure_nil] at h
  split at h
  · cases h
  · rename_i hk
    split at h
    · cases h
    · rename_i hc
      exact ⟨by simpa using hk, by simpa [State.canonB] using hc⟩

/-- A prime-field command that passes its checks writes its result and nothing else. -/
theorem endPrime_pass {s : State} {w : Word} {srcs : List VIdx} {d : VIdx} {z : Nat} (hk : s.kind = .prime)
    (hc : ∀ r ∈ srcs, s.srcF r < s.modulus) : endPrime s w srcs d z = .next (s.writeReg d s.fieldWords z) := by
  rw [endPrime, firstFailure_primeChecks hk hc, commit_none]

/-- What a prime-field command can do: its result after its checks, or one raised error. -/
theorem endPrime_cases {s t : State} {w : Word} {srcs : List VIdx} {d : VIdx} {z : Nat}
    (h : endPrime s w srcs d z = .next t) :
    (s.kind = .prime ∧ (∀ r ∈ srcs, s.srcF r < s.modulus) ∧ t = s.writeReg d s.fieldWords z) ∨
      ∃ e, firstFailure (s.primeChecks srcs) = some e ∧ t = s.raise e w := by
  rcases commit_cases h with ⟨hf, rfl⟩ | h
  · exact .inl ⟨(of_firstFailure_primeChecks hf).1, (of_firstFailure_primeChecks hf).2, rfl⟩
  · exact .inr h

/-- A binary-field command that passes its checks writes its result and nothing else. -/
theorem endBinary_pass {s : State} {w : Word} {srcs : List VIdx} {d : VIdx} {z : Nat} (hk : s.kind = .binary)
    (hc : ∀ r ∈ srcs, s.srcF r < 2 ^ s.degree) : endBinary s w srcs d z = .next (s.writeReg d s.fieldWords z) := by
  rw [endBinary, firstFailure_binaryChecks hk hc, commit_none]

/-- What a binary-field command can do: its result after its checks, or one raised error. -/
theorem endBinary_cases {s t : State} {w : Word} {srcs : List VIdx} {d : VIdx} {z : Nat}
    (h : endBinary s w srcs d z = .next t) :
    (s.kind = .binary ∧ (∀ r ∈ srcs, s.srcF r < 2 ^ s.degree) ∧ t = s.writeReg d s.fieldWords z) ∨
      ∃ e, firstFailure (s.binaryChecks srcs) = some e ∧ t = s.raise e w := by
  rcases commit_cases h with ⟨hf, rfl⟩ | h
  · exact .inl ⟨(of_firstFailure_binaryChecks hf).1, (of_firstFailure_binaryChecks hf).2, rfl⟩
  · exact .inr h

/-- What FCHK and BCHK can do (41_prime_field.md R134, 42_binary_field.md R164). -/
theorem endElementCheck_cases {s t : State} {w : Word} {kind : Kind} {good : Bool}
    (h : endElementCheck s w kind good = .next t) :
    (s.kind ≠ kind ∧ t = s.raise .noField w) ∨ (s.kind = kind ∧ good = true ∧ t = s.setT true) ∨
      (s.kind = kind ∧ good = false ∧ t = (s.setT false).raise .element w) := by
  unfold endElementCheck at h
  split at h
  · exact .inl ⟨‹_›, by simpa using h.symm⟩
  · rename_i hk
    have hk' : s.kind = kind := by simpa using hk
    split at h
    · exact .inr (.inl ⟨hk', ‹_›, by simpa using h.symm⟩)
    · exact .inr (.inr ⟨hk', by simpa using ‹¬good = true›, by simpa using h.symm⟩)

end Sys2Proof.Machine
end

