-- ==== Sys2Proof/Laws/PerInstr.lean ====
section
/-!
SUPPORT. Statements about all instructions, one lemma per constructor.
-/

namespace Sys2Proof.Laws

/-- The opcode map of 30_encoding.md R84. -/
def opcode : Instr → BitVec 8
  | .nop => 0x00
  | .setn _ => 0x01
  | .clrerr => 0x02
  | .sreset => 0x03
  | .add _ _ _ => 0x10
  | .sub _ _ _ => 0x11
  | .inc _ _ => 0x12
  | .dec _ _ => 0x13
  | .mul _ _ _ => 0x14
  | .sqr _ _ => 0x15
  | .shl1 _ _ _ => 0x16
  | .shr1 _ _ _ => 0x17
  | .shln _ _ _ _ => 0x18
  | .shrn _ _ _ _ => 0x19
  | .gte _ _ => 0x1A
  | .iszero _ => 0x1B
  | .isone _ => 0x1C
  | .fsetp _ => 0x20
  | .fchk _ => 0x21
  | .fadd _ _ _ => 0x22
  | .fsub _ _ _ => 0x23
  | .fadd1 _ _ => 0x24
  | .fneg _ _ => 0x25
  | .fhalf _ _ => 0x26
  | .ftwice _ _ => 0x27
  | .fmul _ _ _ => 0x28
  | .fsqr _ _ => 0x29
  | .fred _ _ => 0x2A
  | .finv _ _ => 0x2B
  | .bsetf _ => 0x30
  | .bchk _ => 0x31
  | .badd _ _ _ => 0x32
  | .bmul _ _ _ => 0x33
  | .bsqr _ _ => 0x34
  | .bsqrn _ _ _ => 0x35
  | .bsqrt _ _ => 0x36
  | .bred _ _ => 0x37
  | .binv _ _ => 0x38
  | .btrace _ => 0x39
  | .bhtrace _ _ => 0x3A
  | .bmulx _ _ _ => 0x3B

/-- Bits 31:24 of an instruction's command word are its opcode of R84. -/
def EncodeOpcode.Statement (i : Instr) : Prop :=
  (encode i).extractLsb' 24 8 = opcode i

/-- The opcode of an encoded instruction is the opcode field it was built from. -/
theorem EncodeOpcode.of_fields {i : Instr} (h : (encodeFields i).op = opcode i) : EncodeOpcode.Statement i := by
  rw [EncodeOpcode.Statement, ← h]
  exact congrArg Fields.op (fieldsOf_wordOf (encodeFields i))

namespace EncodeOpcode

theorem nop : Statement (.nop) := of_fields rfl
theorem setn (n : BitVec 5) : Statement (.setn n) := of_fields rfl
theorem clrerr : Statement (.clrerr) := of_fields rfl
theorem sreset : Statement (.sreset) := of_fields rfl
theorem add (d a b : VIdx) : Statement (.add d a b) := of_fields rfl
theorem sub (d a b : VIdx) : Statement (.sub d a b) := of_fields rfl
theorem inc (d a : VIdx) : Statement (.inc d a) := of_fields rfl
theorem dec (d a : VIdx) : Statement (.dec d a) := of_fields rfl
theorem mul (d a b : VIdx) : Statement (.mul d a b) := of_fields rfl
theorem sqr (d a : VIdx) : Statement (.sqr d a) := of_fields rfl
theorem shl1 (d a : VIdx) (ci : Bool) : Statement (.shl1 d a ci) := of_fields rfl
theorem shr1 (d a : VIdx) (ci : Bool) : Statement (.shr1 d a ci) := of_fields rfl
theorem shln (d a : VIdx) (ci : Bool) (k : BitVec 5) : Statement (.shln d a ci k) := of_fields rfl
theorem shrn (d a : VIdx) (ci : Bool) (k : BitVec 5) : Statement (.shrn d a ci k) := of_fields rfl
theorem gte (a b : VIdx) : Statement (.gte a b) := of_fields rfl
theorem iszero (a : VIdx) : Statement (.iszero a) := of_fields rfl
theorem isone (a : VIdx) : Statement (.isone a) := of_fields rfl
theorem fsetp (a : VIdx) : Statement (.fsetp a) := of_fields rfl
theorem fchk (a : VIdx) : Statement (.fchk a) := of_fields rfl
theorem fadd (d a b : VIdx) : Statement (.fadd d a b) := of_fields rfl
theorem fsub (d a b : VIdx) : Statement (.fsub d a b) := of_fields rfl
theorem fadd1 (d a : VIdx) : Statement (.fadd1 d a) := of_fields rfl
theorem fneg (d a : VIdx) : Statement (.fneg d a) := of_fields rfl
theorem fhalf (d a : VIdx) : Statement (.fhalf d a) := of_fields rfl
theorem ftwice (d a : VIdx) : Statement (.ftwice d a) := of_fields rfl
theorem fmul (d a b : VIdx) : Statement (.fmul d a b) := of_fields rfl
theorem fsqr (d a : VIdx) : Statement (.fsqr d a) := of_fields rfl
theorem fred (d a : VIdx) : Statement (.fred d a) := of_fields rfl
theorem finv (d a : VIdx) : Statement (.finv d a) := of_fields rfl
theorem bsetf (a : VIdx) : Statement (.bsetf a) := of_fields rfl
theorem bchk (a : VIdx) : Statement (.bchk a) := of_fields rfl
theorem badd (d a b : VIdx) : Statement (.badd d a b) := of_fields rfl
theorem bmul (d a b : VIdx) : Statement (.bmul d a b) := of_fields rfl
theorem bsqr (d a : VIdx) : Statement (.bsqr d a) := of_fields rfl
theorem bsqrn (d a : VIdx) (k : BitVec 12) : Statement (.bsqrn d a k) := of_fields rfl
theorem bsqrt (d a : VIdx) : Statement (.bsqrt d a) := of_fields rfl
theorem bred (d a : VIdx) : Statement (.bred d a) := of_fields rfl
theorem binv (d a : VIdx) : Statement (.binv d a) := of_fields rfl
theorem btrace (a : VIdx) : Statement (.btrace a) := of_fields rfl
theorem bhtrace (d a : VIdx) : Statement (.bhtrace d a) := of_fields rfl
theorem bmulx (d a b : VIdx) : Statement (.bmulx d a b) := of_fields rfl

end EncodeOpcode

end Sys2Proof.Laws
end

