-- ==== Sys2Proof/Laws/Port.lean ====
section
/-!
SUPPORT. What one step can do: the cases of a host action, of a port write and of a word written to CMD, said once.
-/

namespace Sys2Proof.Machine

/-- With no host action left the block is idle (60_exceptions.md R249). -/
theorem step_of_inbox_nil {s : State} (h : s.inbox = []) : step s = .next s := by
  unfold step takeNext
  rw [h]

/-- A step takes the first host action from the inbox. -/
theorem step_of_inbox_cons {s : State} {h : HostAction} {rest : List HostAction} (hs : s.inbox = h :: rest) :
    step s = perform h { s with inbox := rest } := by
  unfold step takeNext
  rw [hs]

/-- Either the block is idle, or it performs the first host action. -/
theorem step_cases {s t : State} (h : step s = .next t) :
    (s.inbox = [] ∧ t = s) ∨ ∃ a rest, s.inbox = a :: rest ∧ perform a { s with inbox := rest } = .next t := by
  cases hs : s.inbox with
  | nil => exact .inl ⟨rfl, by simpa [step_of_inbox_nil hs] using h.symm⟩
  | cons a rest => exact .inr ⟨a, rest, rfl, by rw [← step_of_inbox_cons hs, h]⟩

/-- A word written to CMD without a pending error: an illegal word raises E_ILLEGAL, a legal one runs (60_exceptions.md
R223). -/
theorem issue_of_decode_ok {s : State} {w : Word} {i : Instr} (he : s.err = .none) (hd : decode w = .ok i) :
    issue w s = exec i s := by
  simp [issue, he, hd]

theorem issue_of_decode_error {s : State} {w : Word} {e : DecodeError} (he : s.err = .none) (hd : decode w = .error e) :
    issue w s = .next (s.raise .illegal w) := by
  simp [issue, he, hd]

/-- A word written to CMD while an error is pending (60_exceptions.md R225). -/
theorem issue_of_err {s : State} {w : Word} (he : s.err ≠ .none) : issue w s = hold w s := by
  simp [issue, he]

/-- All that a word written to CMD can do: drop, reset or return in an error hold, else E_ILLEGAL or the command's rule
(R223, R225). -/
theorem issue_cases {s t : State} {w : Word} (h : issue w s = .next t) :
    (s.err ≠ .none ∧ (t = s ∨ (w = sresetWord ∧ t = s.resetArch) ∨
      (w = clrerrWord ∧ s.err ≠ .invZero ∧ t = s.clearErr))) ∨
    (s.err = .none ∧ ((∃ e, decode w = .error e) ∧ t = s.raise .illegal w ∨ ∃ i, decode w = .ok i ∧ exec i s = .next t)) := by
  by_cases he : s.err = .none
  · refine .inr ⟨he, ?_⟩
    cases hd : decode w with
    | error e => exact .inl ⟨⟨e, rfl⟩, by simpa [issue_of_decode_error he hd] using h.symm⟩
    | ok i => exact .inr ⟨i, rfl, by rw [← issue_of_decode_ok he hd, h]⟩
  · refine .inl ⟨he, ?_⟩
    rw [issue_of_err he] at h
    unfold hold at h
    split at h
    · exact .inr (.inl ⟨‹_›, by simpa [exec, execSreset] using h.symm⟩)
    · split at h
      · rename_i hw
        exact .inr (.inr ⟨hw.1, hw.2, by simpa [exec, execClrerr] using h.symm⟩)
      · exact .inl (by simpa using h.symm)

/-- A read changes nothing but the port's answers (20_memory.md R52). -/
theorem portRead_cases {s t : State} {addr : Addr} (h : portRead addr s = .next t) :
    ∃ st x, t = s.respond st x := by
  unfold portRead at h
  split at h
  · exact ⟨_, _, by simpa using h.symm⟩
  · exact ⟨_, _, by simpa using h.symm⟩

/-- All that a write can do: a command, a new CW, a new limb, or nothing but the port's answer (R53, R56). -/
theorem portWrite_cases {s t : State} {addr : Addr} {x : Word} (h : portWrite addr x s = .next t) :
    (locate addr = .cmd ∧ ∃ u, issue x s = .next u ∧ t = u.respond .ok none) ∨
    (locate addr = .cw ∧ t = (s.setCw x).respond .ok none) ∨
    (∃ i j, locate addr = .v i j ∧ t = (s.writeLimb i j x).respond .ok none) ∨
    t = s.respond .error none := by
  unfold portWrite at h
  split at h
  · rename_i hl
    cases hi : issue x s with
    | next u => exact .inl ⟨hl, u, rfl, by simpa [hi] using h.symm⟩
    | fault e => cases e
    | refused e => simp [hi, onNext] at h
  · exact .inr (.inl ⟨‹_›, by simpa using h.symm⟩)
  · exact .inr (.inr (.inl ⟨_, _, ‹_›, by simpa using h.symm⟩))
  all_goals exact .inr (.inr (.inr (by simpa using h.symm)))

/-- All that a host action can do (00_scope.md R15). -/
theorem perform_cases {s t : State} {a : HostAction} (h : perform a s = .next t) :
    (a = .rst ∧ t = s.resetArch) ∨ (∃ st x, t = s.respond st x) ∨
    (∃ w u, issue w s = .next u ∧ t = u.respond .ok none) ∨
    (∃ x, t = (s.setCw x).respond .ok none) ∨ (∃ i j x, t = (s.writeLimb i j x).respond .ok none) := by
  cases a with
  | rst => exact .inl ⟨rfl, by simpa [perform] using h.symm⟩
  | access r =>
    simp only [perform, access] at h
    split at h
    · split at h
      · obtain ⟨st, x, rfl⟩ := portRead_cases h
        exact .inr (.inl ⟨st, x, rfl⟩)
      · rcases portWrite_cases h with ⟨-, u, hu, rfl⟩ | ⟨-, rfl⟩ | ⟨i, j, -, rfl⟩ | rfl
        · exact .inr (.inr (.inl ⟨_, u, hu, rfl⟩))
        · exact .inr (.inr (.inr (.inl ⟨_, rfl⟩)))
        · exact .inr (.inr (.inr (.inr ⟨i, j, _, rfl⟩)))
        · exact .inr (.inl ⟨_, _, rfl⟩)
    · unfold portReject at h
      split at h
      · exact .inr (.inl ⟨_, _, by simpa using h.symm⟩)
      · exact .inr (.inl ⟨_, _, by simpa using h.symm⟩)

end Sys2Proof.Machine
end

