-- ==== Sys2Proof/Tests/Slice0.lean ====
section
/-!
SUPPORT. Tests: ill-formed terms refused, words written out from 30_encoding.md decoded, one or two single steps for each
command with results from 95_test_vectors.md, and for each obligation with hypotheses a state and operands that meet them.
-/

open Sys2Proof Sys2Proof.Machine

namespace Sys2Proof.Tests

-- One thread: each kernel evaluation would otherwise wait on a thread of its own.
set_option Elab.async false

/-! ## Helpers -/

/-- A look at the next state, where there is one. -/
def probe {α : Type} (r : Result) (f : State → α) : Option α :=
  match r with
  | .next t => some (f t)
  | .fault _ => none
  | .refused _ => none

/-- One step that delivers the command word `w`, and a look at its end. -/
def run {α : Type} (s : State) (w : Nat) (f : State → α) : Option α :=
  probe (step (s.withFetchWord 32 w)) f

/-- One step that takes one port access, and a look at its end. -/
def port {α : Type} (s : State) (r : Request) (f : State → α) : Option α :=
  probe (step { s with inbox := [.access r] }) f

/-- The reset state with `N`, `CW`, `V0` and `V1` set. -/
def intState (n : BitVec 5) (cw : Word) (x y : Nat) : State :=
  (({ State.reset with n := n, cw := cw } : State).writeReg 0 36 x).writeReg 1 36 y

/-- A state with the one-limb modulus `p`, `V1 = x`, `V2 = y` and something in `V3`. -/
def primeState (p x y : Nat) : State :=
  ((({ State.reset with kind := .prime, fn := 1, p := writeVec State.reset.p 1 p } : State).writeReg 1 36 x).writeReg 2 36
    y).writeReg 3 36 0x5555555500000099

/-- A state with a one-limb binary descriptor, `V1 = x`, `V2 = y` and something in `V3`. -/
def binState (m k1 k2 k3 : BitVec 10) (x y : Nat) : State :=
  ((({ State.reset with kind := .binary, fn := 1, m := m, k1 := k1, k2 := k2, k3 := k3 } : State).writeReg 1 36
    x).writeReg 2 36 y).writeReg 3 36 0x5555555500000099

/-- The one-limb prime of 41_prime_field.md, `2^32 - 5`. -/
def p32 : Nat := 0xFFFFFFFB

/-- The field of 42_binary_field.md's examples, `f = 0x11B`. -/
def aes (x y : Nat) : State := binState 8 1 3 4 x y

/-- The field `f = 0x83` of degree 7. -/
def m7 (x y : Nat) : State := binState 7 1 0 0 x y

/-- What most field tests look at: the low limb of `V3`, the limb above it, and the error. -/
def v3 (t : State) : Nat × Limb × ErrCode :=
  (t.val 3 1, t.limb 3 1, t.err)

/-! ## Well-formedness (30_encoding.md R83) -/

theorem test_setn_zero_refused : (Instr.setn 0).wellFormed = false := by decide
theorem test_setn_nineteen_refused : (Instr.setn 19).wellFormed = false := by decide
theorem test_setn_bounds_accepted : (Instr.setn 1).wellFormed && (Instr.setn 18).wellFormed = true := by decide
theorem test_shln_zero_refused : (Instr.shln 1 0 false 0).wellFormed = false := by decide
theorem test_shrn_zero_refused : (Instr.shrn 1 0 true 0).wellFormed = false := by decide
theorem test_bsqrn_zero_refused : (Instr.bsqrn 1 0 0).wellFormed = false := by decide
theorem test_bsqrn_largest_accepted : (Instr.bsqrn 1 0 4095).wellFormed = true := by decide

/-! ## The parameters (00_scope.md R7, R8) -/

theorem test_xlen : Config.xLen = 2 * Config.nMax := rfl
theorem test_nmax_covers_degree : wordsOfDegree Config.maxDegree = Config.nMax := by decide
theorem test_max_squarings : Config.maxSquarings = 2 ^ 12 - 1 := rfl
theorem test_limb_width : (0 : Limb).toNat = 0 ∧ Config.limbBits = 32 := by decide

/-! ## Decoding: one word for every command, written out from R81 to R84 -/

theorem test_decode_system :
    ∀ x ∈ [(0b00000000000000000000000000000000, Instr.nop), (0b00000001000000000000000000010010, .setn 18),
      (0b00000010000000000000000000000000, .clrerr), (0b00000011000000000000000000000000, .sreset)],
      decodeTableWord 32 x.1 = some x.2 := by decide

theorem test_decode_integer_arithmetic :
    ∀ x ∈ [(0b00010000001000000001000000000000, Instr.add 2 0 1), (0b00010001011100110101000000000000, .sub 7 3 5),
      (0b00010010000100000000000000000000, .inc 1 0), (0b00010011000001110000000000000000, .dec 0 7),
      (0b00010100010000010010000000000000, .mul 4 1 2), (0b00010101000100000000000000000000, .sqr 1 0)],
      decodeTableWord 32 x.1 = some x.2 := by decide

theorem test_decode_integer_shifts :
    ∀ x ∈ [(0b00010110000100000000000000100000, Instr.shl1 1 0 true), (0b00010111000100000000000000000000, .shr1 1 0 false),
      (0b00011000000100000000000000111111, .shln 1 0 true 31), (0b00011001000000000000000000000101, .shrn 0 0 false 5)],
      decodeTableWord 32 x.1 = some x.2 := by decide

theorem test_decode_integer_tests :
    ∀ x ∈ [(0b00011010000000010010000000000000, Instr.gte 1 2), (0b00011011000000110000000000000000, .iszero 3),
      (0b00011100000001110000000000000000, .isone 7)],
      decodeTableWord 32 x.1 = some x.2 := by decide

theorem test_decode_prime :
    ∀ x ∈ [(0b00100000000001000000000000000000, Instr.fsetp 4), (0b00100001000000010000000000000000, .fchk 1),
      (0b00100010001100010010000000000000, .fadd 3 1 2), (0b00100011001100010010000000000000, .fsub 3 1 2),
      (0b00100100001100010000000000000000, .fadd1 3 1), (0b00100101001100010000000000000000, .fneg 3 1),
      (0b00100110001100010000000000000000, .fhalf 3 1), (0b00100111001100010000000000000000, .ftwice 3 1),
      (0b00101000001100010010000000000000, .fmul 3 1 2), (0b00101001001000010000000000000000, .fsqr 2 1),
      (0b00101010001100010000000000000000, .fred 3 1), (0b00101011001100010000000000000000, .finv 3 1)],
      decodeTableWord 32 x.1 = some x.2 := by decide

theorem test_decode_binary :
    ∀ x ∈ [(0b00110000000001000000000000000000, Instr.bsetf 4), (0b00110001000000010000000000000000, .bchk 1),
      (0b00110010001100010010000000000000, .badd 3 1 2), (0b00110011001100010010000000000000, .bmul 3 1 2),
      (0b00110100001100010000000000000000, .bsqr 3 1), (0b00110101000100000000100000000110, .bsqrn 1 0 2054),
      (0b00110110001100010000000000000000, .bsqrt 3 1), (0b00110111001100010000000000000000, .bred 3 1),
      (0b00111000001100010000000000000000, .binv 3 1), (0b00111001000000010000000000000000, .btrace 1),
      (0b00111010001100010000000000000000, .bhtrace 3 1), (0b00111011001100010010000000000000, .bmulx 3 1 2)],
      decodeTableWord 32 x.1 = some x.2 := by decide

/-- 95_test_vectors.md D2 to D35: a used field of a wrong value, an unused field that is not zero, an unassigned opcode. -/
theorem test_decode_refuses :
    ∀ w ∈ [0x00000001, 0x00100000, 0x01000000, 0x01000013, 0x01000028, 0x01010008, 0x02000001, 0x04000000, 0x0F000000,
      0x10801000, 0x10208000, 0x10F01000, 0x10201001, 0x12101000, 0x16100010, 0x16100040, 0x18100000, 0x18100020,
      0x18100040, 0x19100801, 0x1A112000, 0x1B038000, 0x1D000000, 0x1F000000, 0x35100000, 0xFFFFFFFF],
      decodeTableWord 32 w = none := by decide

/-- R95, the example column. -/
theorem test_assemble_text :
    (disassemble (.shrn 0 0 true 5)).text = "SHRN.C V0, V0, 5" ∧ (disassemble (.gte 1 2)).text = "GTE V1, V2" := by
  decide +kernel

/-! ## System commands (95_test_vectors.md, section 2.4; 43_system_commands.md) -/

theorem test_nop : run (intState 2 7 5 6) 0x00000000 (fun t => { t with outbox := [] }) = some (intState 2 7 5 6) := by
  decide +kernel
theorem test_setn : run State.reset 0x01000012 (fun t => t.cfgWord) = some 0x00000012 := by decide +kernel
theorem test_clrerr : run { State.reset with err := .element, ecmd := 0x21010000 } 0x02000000
    (fun t => (t.err, t.ecmd)) = some (.none, 0x21010000) := by decide +kernel
theorem test_clrerr_fatal : run { State.reset with err := .invZero } 0x02000000 (fun t => t.err) = some .invZero := by
  decide +kernel
theorem test_sreset_fatal : run { intState 2 7 5 6 with err := .invZero } 0x03000000
    (fun t => { t with outbox := [] }) = some State.reset := by decide +kernel
theorem test_hold_drops : run { intState 1 0 5 7 with err := .desc } 0x10201000
    (fun t => (t.limb 2 0, t.err, t.ecmd, t.outbox)) = some (0, .desc, 0, [⟨.ok, none⟩]) := by decide +kernel
theorem test_illegal : run State.reset 0x01000013 (fun t => (t.n, t.err, t.ecmd)) = some (1, .illegal, 0x01000013) := by
  decide +kernel

/-! ## Integer core (95_test_vectors.md I1 to I35) -/

theorem test_add_I1 : run (intState 2 0 0xFFFFFFFFFFFFFFFF 1) 0x10201000 (fun t => (t.val 2 2, t.cw)) = some (0, 1) := by
  decide +kernel
theorem test_add_aliased_I3 : run (intState 1 0x55 0x80000001 0) 0x10000000 (fun t => (t.val 0 36, t.cw)) = some (2, 1) := by
  decide +kernel
theorem test_sub_I6 : run (intState 2 0 0 1) 0x11201000 (fun t => (t.val 2 36, t.cw)) = some (0xFFFFFFFFFFFFFFFF, 1) := by
  decide +kernel
theorem test_sub_I8 : run (intState 2 0 0x100000000 1) 0x11001000 (fun t => (t.val 0 2, t.cw)) = some (0xFFFFFFFF, 0) := by
  decide +kernel
theorem test_inc_I9 : run (intState 2 0 0xFFFFFFFFFFFFFFFF 0) 0x12000000 (fun t => (t.val 0 2, t.cw)) = some (0, 1) := by
  decide +kernel
theorem test_inc_I10 : run (intState 2 1 0xFFFFFFFF 0) 0x12100000 (fun t => (t.val 1 2, t.cw)) = some (0x100000000, 0) := by
  decide +kernel
theorem test_dec_I11 : run (intState 1 0 0 0) 0x13000000 (fun t => (t.val 0 36, t.cw)) = some (0xFFFFFFFF, 1) := by
  decide +kernel
theorem test_dec_I12 : run (intState 2 1 0x100000000 0) 0x13100000 (fun t => (t.val 1 2, t.cw)) = some (0xFFFFFFFF, 0) := by
  decide +kernel
theorem test_mul_I13 : run (intState 1 0x77 0xFFFFFFFF 0xFFFFFFFF) 0x14201000 (fun t => (t.val 2 2, t.cw)) =
    some (0xFFFFFFFE00000001, 0x77) := by decide +kernel
theorem test_mul_aliased_I15 :
    run (intState 2 0 0xCCCCCCCCBBBBBBBBAAAAAAAA0123456789ABCDEF 0xFEDCBA9876543210) 0x14001000 (fun t => t.val 0 36) =
      some 0xCCCCCCCC0121FA00AD77D7422236D88FE5618CF0 := by decide +kernel
theorem test_sqr_I16 : run (intState 2 0 0x0123456789ABCDEF 0) 0x15100000 (fun t => t.val 1 4) =
    some 0x00014B66DC33F6ACDCA5E20890F2A521 := by decide +kernel
theorem test_shl1_I19 : run (intState 2 0xFFFFFFFF 0x8000000000000001 0) 0x16100020 (fun t => (t.val 1 2, t.cw)) =
    some (3, 1) := by decide +kernel
theorem test_shl1_I20 : run (intState 2 0xFFFFFFFE 0x8000000000000001 0) 0x16100020 (fun t => (t.val 1 2, t.cw)) =
    some (2, 1) := by decide +kernel
theorem test_shr1_I21 : run (intState 1 0 3 0) 0x17100000 (fun t => (t.val 1 1, t.cw)) = some (1, 1) := by decide +kernel
theorem test_shr1_I22 : run (intState 2 1 3 0) 0x17100020 (fun t => (t.val 1 2, t.cw)) = some (0x8000000000000001, 1) := by
  decide +kernel
theorem test_shln_I23 : run (intState 1 0 0x12345678 0) 0x1810001F (fun t => (t.val 1 1, t.cw)) = some (0, 0x091A2B3C) := by
  decide +kernel
theorem test_shln_I24 : run (intState 1 0xFFFFFFFF 0x12345678 0) 0x18100024 (fun t => (t.val 1 1, t.cw)) =
    some (0x2345678F, 1) := by decide +kernel
theorem test_shrn_I26 : run (intState 1 0 0x12345678 0) 0x1910001F (fun t => (t.val 1 1, t.cw)) = some (0, 0x12345678) := by
  decide +kernel
theorem test_shrn_I27 : run (intState 2 0x1A5 0x89ABCDEF12345678 0) 0x19000028 (fun t => (t.val 0 2, t.cw)) =
    some (0xA589ABCDEF123456, 0x78) := by decide +kernel
theorem test_gte_I30 : run (intState 2 0 0xFFFFFFFF 0x100000000) 0x1A001000 (fun t => t.t) = some false := by
  decide +kernel
theorem test_gte_I31 : run (intState 2 0 0x100000000 0xFFFFFFFF) 0x1A001000 (fun t => t.t) = some true := by decide +kernel
theorem test_iszero_I32 : run (intState 2 0 0x50000000000000000 0) 0x1B000000 (fun t => t.t) = some true := by
  decide +kernel
theorem test_iszero_I33 : run (intState 2 0 0x100000000 0) 0x1B000000 (fun t => t.t) = some false := by decide +kernel
theorem test_isone_I35 : run (intState 2 0 0x100000001 0) 0x1C000000 (fun t => t.t) = some false := by decide +kernel
theorem test_isone_I36 : run (intState 1 0 0x100000001 0) 0x1C000000 (fun t => t.t) = some true := by decide +kernel

/-! ## Prime field (95_test_vectors.md F1 to F22; 41_prime_field.md R131) -/

theorem test_fsetp : run (intState 1 0 p32 0) 0x20000000 (fun t => (t.statusWord, t.cfgWord, t.p[0], t.modulus)) =
    some (0x20, 0x101, 0xFFFFFFFB, p32) := by decide +kernel
theorem test_fsetp_even : run (intState 1 0 0xFFFFFFFA 0) 0x20000000 (fun t => (t.kind, t.err, t.ecmd)) =
    some (.none, .desc, 0x20000000) := by decide +kernel
theorem test_fchk_F19 : run (primeState p32 0xFFFFFFFA 0) 0x21010000 (fun t => (t.t, t.err)) = some (true, .none) := by
  decide +kernel
theorem test_fchk_F21 : run { primeState p32 0xFFFFFFFF 0 with t := true } 0x21010000 (fun t => (t.t, t.err, t.ecmd)) =
    some (false, .element, 0x21010000) := by decide +kernel
theorem test_fadd_F1 : run (primeState p32 0xFFFFFFFA 1) 0x22312000 v3 = some (0, 0x55555555, .none) := by decide +kernel
theorem test_fadd_F20 : run (primeState p32 0xFFFFFFFB 0) 0x22311000 v3 = some (0x99, 0x55555555, .element) := by
  decide +kernel
theorem test_fsub_F3 : run (primeState p32 0 0xFFFFFFFA) 0x23312000 v3 = some (1, 0x55555555, .none) := by decide +kernel
theorem test_fsub_R136 : run (primeState p32 1 2) 0x23312000 v3 = some (0xFFFFFFFA, 0x55555555, .none) := by decide +kernel
theorem test_fadd1_F5 : run (primeState p32 0xFFFFFFFA 0) 0x24110000 (fun t => t.val 1 1) = some 0 := by decide +kernel
theorem test_fneg_F6 : run (primeState p32 0 0) 0x25310000 v3 = some (0, 0x55555555, .none) := by decide +kernel
theorem test_fneg_F7 : run (primeState p32 0xFFFFFFFA 0) 0x25310000 v3 = some (1, 0x55555555, .none) := by decide +kernel
theorem test_fhalf_F8 : run (primeState p32 0xFFFFFFF9 0) 0x26310000 v3 = some (0xFFFFFFFA, 0x55555555, .none) := by
  decide +kernel
theorem test_fhalf_F9 : run (primeState p32 0xFFFFFFFA 0) 0x26310000 v3 = some (0x7FFFFFFD, 0x55555555, .none) := by
  decide +kernel
theorem test_ftwice_F10 : run (primeState p32 0xFFFFFFFA 0) 0x27310000 v3 = some (0xFFFFFFF9, 0x55555555, .none) := by
  decide +kernel
theorem test_fmul_F12 : run (primeState p32 0x12345678 0x9ABCDEF0) 0x28312000 v3 = some (0x5B31B406, 0x55555555, .none) := by
  decide +kernel
theorem test_fsqr_F13 : run (primeState p32 0x12345678 0) 0x29110000 (fun t => t.val 1 1) = some 0x246DDA8C := by
  decide +kernel
theorem test_fred_F14 : run (primeState p32 0xFFFFFFFFFFFFFFFF 0) 0x2A310000 v3 = some (0x18, 0x55555555, .none) := by
  decide +kernel
theorem test_fred_F16 : run (primeState p32 0xFFFFFFFF 0) 0x2A310000 v3 = some (4, 0x55555555, .none) := by decide +kernel
theorem test_finv_F18 : run (primeState p32 0x12345678 0) 0x2B310000 v3 = some (0x7B6DB6D5, 0x55555555, .none) := by
  decide +kernel
theorem test_finv_F22 : run (primeState p32 0 0) 0x2B310000 (fun t => (v3 t, t.ecmd, t.statusWord)) =
    some ((0x99, 0x55555555, .invZero), 0x2B310000, 0x2C) := by decide +kernel

/-! ## Binary field (95_test_vectors.md B1 to B28; 42_binary_field.md R161) -/

theorem test_bsetf : run (intState 1 0 0x00000004000000030000000100000008 0) 0x30000000
    (fun t => (t.statusWord, t.fdescWord, t.fpolyWord, t.fn, t.fieldPoly)) = some (0x40, 8, 0x00400C01, 1, 0x11B) := by
  decide +kernel
theorem test_bsetf_order : run (intState 1 0 0x00000004000000010000000300000008 0) 0x30000000
    (fun t => (t.kind, t.err)) = some (.none, .desc) := by decide +kernel
theorem test_bchk_B17 : run (aes 0xFF 0) 0x31010000 (fun t => (t.t, t.err)) = some (true, .none) := by decide +kernel
theorem test_bchk_B18 : run { aes 0x100 0 with t := true } 0x31010000 (fun t => (t.t, t.err, t.ecmd)) =
    some (false, .element, 0x31010000) := by decide +kernel
theorem test_badd_B1 : run (aes 0x57 0x83) 0x32312000 v3 = some (0xD4, 0x55555555, .none) := by decide +kernel
theorem test_bmulx_B3 : run (aes 0xFF 0xFF) 0x3B312000 v3 = some (0x5555, 0, .none) := by decide +kernel
theorem test_bmul_B4 : run (aes 0xFF 0xFF) 0x33312000 v3 = some (0x13, 0x55555555, .none) := by decide +kernel
theorem test_bmul_B19 : run (aes 0x100 1) 0x33312000 v3 = some (0x99, 0x55555555, .element) := by decide +kernel
theorem test_bsqr_B7 : run (aes 0x80 0) 0x34310000 v3 = some (0x9A, 0x55555555, .none) := by decide +kernel
theorem test_bred_B8 : run (aes 0xFFFFFFFFFFFFFFFF 0) 0x37310000 v3 = some (0xCD, 0x55555555, .none) := by decide +kernel
theorem test_bsqrn_R170 : run (aes 0x57 0) 0x35310003 v3 = some (0x48, 0x55555555, .none) := by decide +kernel
theorem test_bsqrn_B10 : run (aes 0x57 0) 0x35310008 v3 = some (0x57, 0x55555555, .none) := by decide +kernel
theorem test_bsqrt_B12 : run (aes 0xA5 0) 0x36310000 v3 = some (0x57, 0x55555555, .none) := by decide +kernel
theorem test_binv_B14 : run (aes 0xFF 0) 0x38310000 v3 = some (0x1C, 0x55555555, .none) := by decide +kernel
theorem test_binv_B20 : run (aes 0 0) 0x38310000 (fun t => (v3 t, t.statusWord)) =
    some ((0x99, 0x55555555, .invZero), 0x4C) := by decide +kernel
theorem test_btrace_B15 : run { aes 0xFF 0 with t := true } 0x39010000 (fun t => t.t) = some false := by decide +kernel
theorem test_btrace_B16 : run (aes 0x80 0) 0x39010000 (fun t => t.t) = some true := by decide +kernel
theorem test_bhtrace_B22 : run (m7 2 0) 0x3A310000 v3 = some (0x14, 0x55555555, .none) := by decide +kernel
theorem test_bhtrace_B21 : run (aes 2 0) 0x3A310000 v3 = some (0x99, 0x55555555, .noField) := by decide +kernel

/-! ## The port (20_memory.md R52 to R56; 10_state.md R32) -/

theorem test_port_read_limb : port (intState 1 0 0x200000001 0) ⟨.read, 0x1004, 4, 0⟩ (fun t => t.outbox) =
    some [⟨.ok, some 2⟩] := by decide +kernel
theorem test_port_write_last_limb : port State.reset ⟨.write, 0x178C, 4, 9⟩ (fun t => (t.limb 7 35, t.outbox)) =
    some (9, [⟨.ok, none⟩]) := by decide +kernel
theorem test_port_unmapped : port State.reset ⟨.read, 0x1790, 4, 0⟩ (fun t => t.outbox) = some [⟨.error, some 0⟩] := by
  decide +kernel
theorem test_port_narrow : port State.reset ⟨.write, 0x0004, 2, 0x03000000⟩ (fun t => (t.err, t.outbox)) =
    some (.none, [⟨.error, none⟩]) := by decide +kernel
theorem test_port_read_only : port State.reset ⟨.write, 0x0144, 4, 1⟩ (fun t => (t.p[17], t.outbox)) =
    some (0, [⟨.error, none⟩]) := by decide +kernel

/-! ## States and operands that meet the hypotheses of the obligations -/

/-- A look that finds something has a next state to look at. -/
theorem next_of_probe {α : Type} {r : Result} {f : State → α} {x : α} (h : probe r f = some x) :
    ∃ t, r = .next t ∧ f t = x := by
  cases r with
  | next t => exact ⟨t, rfl, by simpa [probe] using h⟩
  | fault e => nomatch e
  | refused e => simp [probe] at h

/-- `s` with one host action to come. -/
def hosts (s : State) (h : HostAction) : State :=
  { s with inbox := [h] }

/-- A state with a pending error. -/
def pending (e : ErrCode) : State :=
  { intState 1 0 5 7 with err := e, ecmd := 0x21010000 }

/-- The state invariant, decided part by part. -/
def wfCheck (s : State) : Bool :=
  decide (1 ≤ s.words ∧ s.words ≤ 18) && decide (s.kind = .none → s.noDescriptor) &&
    decide (s.kind = .prime → s.primeDescriptor) && decide (s.kind = .binary → s.binaryDescriptor)

theorem wf_of_check {s : State} (h : wfCheck s = true) : s.wf := by
  simp only [wfCheck, Bool.and_eq_true, decide_eq_true_eq] at h
  exact ⟨h.1.1.1, h.1.1.2, h.1.2, h.2⟩

theorem witness_DecodeOfEncode :
    ∀ i ∈ [Instr.nop, .setn 1, .setn 18, .shln 7 7 true 31, .shrn 0 0 false 1, .bsqrn 7 0 4095, .bsqrn 0 7 1],
      i.wellFormed = true := by decide
theorem witness_AssembleOfDisassemble :
    ∀ i ∈ [Instr.sreset, .setn 18, .shl1 0 7 true, .shln 7 7 true 31, .bsqrn 7 0 4095], i.wellFormed = true := by decide
theorem witness_EncodeOfDecode : decode 0x10201000 = .ok (.add 2 0 1) ∧ decode 0x35700FFF = .ok (.bsqrn 7 0 4095) :=
  ⟨rfl, rfl⟩
theorem witness_DecodeAcceptsTableRows :
    decode 0x01000012 = .ok (.setn 18) ∧ ∃ r ∈ opcodeRows, r.accepts 0x01000012 = true := ⟨rfl, by decide +kernel⟩

theorem witness_StepRunsDecodedCommand :
    (hosts (intState 1 0 5 7) (writeCmd 0x10201000)).inbox = .access ⟨.write, 0x0004, 4, 0x10201000⟩ :: [] ∧
      (hosts (intState 1 0 5 7) (writeCmd 0x10201000)).err = .none ∧ decode 0x10201000 = .ok (.add 2 0 1) :=
  ⟨rfl, rfl, rfl⟩
theorem witness_IllegalWordRaises :
    (hosts State.reset (writeCmd 0x01000013)).inbox = .access ⟨.write, 0x0004, 4, 0x01000013⟩ :: [] ∧
      (hosts State.reset (writeCmd 0x01000013)).err = .none ∧ ∀ r ∈ opcodeRows, r.accepts 0x01000013 = false :=
  ⟨rfl, rfl, by decide +kernel⟩
/-- Each error with each word. -/
theorem witness_ErrorHold_words :
    (∀ e ∈ [ErrCode.illegal, .desc, .element, .invZero, .noField], (pending e).err ≠ .none) ∧
      ∀ (e : ErrCode) (w : Word),
        (hosts (pending e) (writeCmd w)).inbox = .access ⟨.write, 0x0004, 4, w⟩ :: [] := ⟨by decide, fun _ _ => rfl⟩
theorem witness_ErrorHold_accesses :
    (pending .invZero).err ≠ .none ∧ (0x178C : Addr).toNat % 4 = 0 ∧
      (hosts (pending .invZero) (hostRd 0x178C)).inbox = .access ⟨.read, 0x178C, 4, 0⟩ :: [] ∧
      (pending .invZero).readLoc (locate 0x178C) = some 0 ∧
      (hosts (pending .invZero) (hostWr 0x000C 9)).inbox = .access ⟨.write, 0x000C, 4, 9⟩ :: [] ∧
      (hosts (pending .invZero) (hostWr (limbAddr 7 35) 9)).inbox =
        .access ⟨.write, limbAddr 7 (35 : Fin 36).val, 4, 9⟩ :: [] := by decide +kernel
theorem witness_SresetResets :
    (hosts (pending .invZero) (writeCmd 0x03000000)).inbox = .access ⟨.write, 0x0004, 4, 0x03000000⟩ :: [] ∧
      (0x03000001 : Word).toNat / 2 ^ 24 = 3 ∧ (0x03000001 : Word) ≠ 0x03000000 ∧
      (hosts (pending .desc) (writeCmd 0x03000001)).inbox = .access ⟨.write, 0x0004, 4, 0x03000001⟩ :: [] := by
  decide +kernel
theorem witness_PinResets : (hosts (pending .invZero) .rst).inbox = .rst :: [] := rfl
theorem witness_WfKeptByStep :
    (hosts (intState 1 0 p32 0) (writeCmd 0x20000000)).wf ∧
      ∃ t, step (hosts (intState 1 0 p32 0) (writeCmd 0x20000000)) = .next t ∧ t.kind = .prime :=
  ⟨wf_of_check (by decide +kernel), next_of_probe (by decide +kernel)⟩
theorem witness_FatalErrorStays :
    (pending .invZero).err = .invZero ∧ (∃ t, step (hosts (pending .invZero) .rst) = .next t ∧ t.err = .none) ∧
      (∃ t, step (hosts (pending .invZero) (writeCmd 0x03000000)) = .next t ∧ t.err = .none) ∧
      ∃ t, step (hosts (pending .invZero) (writeCmd 0x02000000)) = .next t ∧ t.err = .invZero :=
  ⟨rfl, next_of_probe (by decide +kernel), next_of_probe (by decide +kernel), next_of_probe (by decide +kernel)⟩
theorem witness_ErrorsArePrecise :
    (primeState p32 p32 0).err = .none ∧
      (∃ t, exec (.fadd 3 1 1) (primeState p32 p32 0) = .next t ∧ t.err = .element) ∧
      ∃ t, exec (.fchk 1) { primeState p32 p32 0 with t := true } = .next t ∧ (t.err, t.t) = (.element, false) :=
  ⟨rfl, next_of_probe (by decide +kernel), next_of_probe (by decide +kernel)⟩
theorem witness_FlagWriters :
    (intState 1 7 5 7).err = .none ∧ (∃ t, exec (.add 2 0 1) (intState 1 7 5 7) = .next t ∧ decide (t.cw ≠ 7) = true) ∧
      (∃ t, exec (.gte 1 0) (intState 1 7 5 7) = .next t ∧ decide (t.t ≠ (intState 1 7 5 7).t) = true) ∧
      ∃ t, exec (.fchk 1) { primeState p32 p32 0 with t := true } = .next t ∧ (t.t, t.err) = (false, .element) :=
  ⟨rfl, next_of_probe (by decide +kernel), next_of_probe (by decide +kernel), next_of_probe (by decide +kernel)⟩
theorem witness_ControlWriters :
    (∃ t, exec (.setn 18) State.reset = .next t ∧ t.n = 18) ∧
      (∃ t, exec (.fsetp 0) (intState 1 0 p32 0) = .next t ∧ t.kind = .prime) ∧
      (∃ t, exec .clrerr (pending .desc) = .next t ∧ t.err = .none) ∧
      ∃ t, exec (.fadd 3 1 1) (primeState p32 p32 0) = .next t ∧ (t.err, t.ecmd) = (.element, 0x22311000) :=
  ⟨next_of_probe (by decide +kernel), next_of_probe (by decide +kernel), next_of_probe (by decide +kernel),
    next_of_probe (by decide +kernel)⟩
/-- Two states that differ in a limb above the word count of ADD and in a register it does not name. -/
theorem witness_UnreadLimbsIgnored :
    (intState 1 0 5 7).wf ∧
      (intState 1 0 0x100000005 7).writeReg 6 36 3 =
        { intState 1 0 5 7 with v := ((intState 1 0 0x100000005 7).writeReg 6 36 3).v } ∧
      (intState 1 0 0x100000005 7).writeReg 6 36 3 ≠ intState 1 0 5 7 ∧
      (∀ r ∈ sources (.add 2 0 1), ∀ j < readLen (.add 2 0 1) (intState 1 0 5 7),
        ((intState 1 0 0x100000005 7).writeReg 6 36 3).limb r j = (intState 1 0 5 7).limb r j) ∧
      (∃ t, exec (.add 2 0 1) (intState 1 0 5 7) = .next t ∧ t.val 2 1 = 12) ∧
      ∃ t, exec (.add 2 0 1) ((intState 1 0 0x100000005 7).writeReg 6 36 3) = .next t ∧ t.val 2 1 = 12 :=
  ⟨wf_of_check (by decide +kernel), by decide +kernel, by decide +kernel, by decide +kernel,
    next_of_probe (by decide +kernel), next_of_probe (by decide +kernel)⟩

theorem witness_ReadRegisterMap :
    ∀ a : Addr, (hosts State.reset (hostRd a)).inbox = .access ⟨.read, a, 4, 0⟩ :: [] := fun _ => rfl
theorem witness_ReadRegisterMap_limbs :
    (0x0144 : Addr) = BitVec.ofNat 13 (0x0100 + 4 * (17 : Fin 18).val) ∧ State.reset.p[(17 : Fin 18).val] = 0 ∧
      (0x178C : Addr) = BitVec.ofNat 13 (0x1000 + 0x100 * (7 : VIdx).val + 4 * (35 : Fin 36).val) ∧
      (0 : Word) = State.reset.limb 7 35 := by decide +kernel
theorem witness_WriteRegisterMap :
    (hosts State.reset (hostWr 0x000C 9)).inbox = .access ⟨.write, 0x000C, 4, 9⟩ :: [] ∧
      (hosts State.reset (hostWr 0x178C 9)).inbox =
        .access ⟨.write, BitVec.ofNat 13 (0x1000 + 0x100 * (7 : VIdx).val + 4 * (35 : Fin 36).val), 4, 9⟩ :: [] := by
  decide +kernel
theorem witness_PortErrors_form :
    (hosts State.reset (.access ⟨.write, 0x0004, 2, 0⟩)).inbox = .access ⟨.write, 0x0004, 2, 0⟩ :: [] ∧ (2 : Nat) ≠ 4 ∧
      (hosts State.reset (hostRd 0x0005)).inbox = .access ⟨.read, 0x0005, 4, 0⟩ :: [] ∧ (0x0005 : Addr).toNat % 4 ≠ 0 := by
  decide +kernel
theorem witness_PortErrors_unmapped :
    (∀ a ∈ [0x0020, 0x00FC, 0x0148, 0x0FFC, 0x1090, 0x10FC, 0x1790, 0x17FC, 0x1800, (0x1FFC : Addr)],
      a.toNat % 4 = 0 ∧ (0x0020 ≤ a.toNat ∧ a.toNat ≤ 0x00FC ∨ 0x0148 ≤ a.toNat ∧ a.toNat ≤ 0x0FFC ∨
        0x1000 ≤ a.toNat ∧ a.toNat ≤ 0x17FC ∧ 0x90 ≤ a.toNat % 0x100 ∨ 0x1800 ≤ a.toNat)) ∧
      ∀ a : Addr, (hosts State.reset (hostRd a)).inbox = .access ⟨.read, a, 4, 0⟩ :: [] ∧
        (hosts State.reset (hostWr a 1)).inbox = .access ⟨.write, a, 4, 1⟩ :: [] :=
  ⟨by simp, fun _ => ⟨rfl, rfl⟩⟩
theorem witness_PortErrors_read_only :
    (∀ a ∈ [0x0000, 0x0008, 0x0010, 0x0014, 0x0018, 0x001C, 0x0100, (0x0144 : Addr)],
      a.toNat % 4 = 0 ∧ (a = 0x0000 ∨ a = 0x0008 ∨ a = 0x0010 ∨ a = 0x0014 ∨ a = 0x0018 ∨ a = 0x001C ∨
        0x0100 ≤ a.toNat ∧ a.toNat ≤ 0x0144)) ∧
      ∀ a : Addr, (hosts State.reset (hostWr a 1)).inbox = .access ⟨.write, a, 4, 1⟩ :: [] :=
  ⟨by simp, fun _ => rfl⟩
theorem witness_PortErrors_cmd :
    (0x0004 : Addr).toNat % 4 = 0 ∧ (hosts State.reset (hostRd 0x0004)).inbox = .access ⟨.read, 0x0004, 4, 0⟩ :: [] := by
  decide +kernel
theorem witness_SystemCommandResults_states :
    (1 ≤ (18 : BitVec 5).toNat ∧ (18 : BitVec 5).toNat ≤ 18) ∧ State.reset.err = .none ∧
      (pending .invZero).err = .invZero ∧ (pending .illegal).err = .illegal ∧ (pending .desc).err = .desc ∧
      (pending .element).err = .element ∧ (pending .noField).err = .noField ∧ (pending .noField).err ≠ .none ∧
      (0x10201000 : Word) ≠ 0x02000000 ∧ (0x10201000 : Word) ≠ 0x03000000 := by decide
theorem witness_SystemCommandResults_words :
    ((0x00000001 : Word).toNat / 2 ^ 24 = 0 ∧ (0x00000001 : Word) ≠ 0x00000000) ∧
      (∀ w ∈ [0x01000000, 0x01000013, (0x01FFFFFF : Word)],
        w.toNat / 2 ^ 24 = 1 ∧ ¬ (1 ≤ w.toNat % 2 ^ 24 ∧ w.toNat % 2 ^ 24 ≤ 18)) ∧
      ((0x02000001 : Word).toNat / 2 ^ 24 = 2 ∧ (0x02000001 : Word) ≠ 0x02000000) := by simp

/-- The one hypothesis of AddResult, SubResult and ComparatorVerdicts. -/
theorem witness_AddResult_SubResult_ComparatorVerdicts : (intState 2 0 0xFFFFFFFFFFFFFFFF 1).err = .none := rfl
/-- The hypotheses of IncDecResult and MulSqrResult, at the least and the largest word count. -/
theorem witness_IncDecResult_MulSqrResult :
    (intState 1 0 0xFFFFFFFF 7).wf ∧ (intState 18 0 0xFFFFFFFF 7).wf ∧ (intState 18 0 0xFFFFFFFF 7).err = .none :=
  ⟨wf_of_check (by decide +kernel), wf_of_check (by decide +kernel), rfl⟩
/-- The hypotheses of ShiftUpResult and ShiftDownResult, at the least and the largest distance, with and without `.C`. -/
theorem witness_ShiftUpResult_ShiftDownResult :
    (intState 2 0xFFFFFFFF 5 7).wf ∧ (intState 2 0xFFFFFFFF 5 7).err = .none ∧
      ∀ k ∈ [1, (31 : BitVec 5)], 1 ≤ k.toNat ∧
        2 ^ k.toNat - 1 = (if true then (intState 2 0xFFFFFFFF 5 7).cw.toNat % 2 ^ k.toNat else 0) ∧
        0 = (if false then (intState 2 0xFFFFFFFF 5 7).cw.toNat % 2 ^ k.toNat else 0) ∧
        5 * 2 ^ k.toNat = (((intState 2 0xFFFFFFFF 5 7).srcN 0 <<< k.toNat) ||| 0) :=
  ⟨wf_of_check (by decide +kernel), rfl, by decide +kernel⟩
/-- The hypotheses of ExactResultRebuilt and ShiftsChain. -/
theorem witness_ExactResultRebuilt_ShiftsChain :
    (intState 2 0xFFFFFFFF 5 7).wf ∧ (intState 2 0xFFFFFFFF 5 7).err = .none ∧ (0 : VIdx) ≠ 1 ∧
      1 ≤ (1 : BitVec 5).toNat ∧ 1 ≤ (31 : BitVec 5).toNat :=
  ⟨wf_of_check (by decide +kernel), rfl, by decide⟩

/-- Candidates FSETP accepts: 3 and `2^32 - 5` in one limb. -/
theorem witness_FsetpInstalls_accepted :
    (intState 1 0 3 0).wf ∧ (intState 1 0 p32 0).wf ∧
      ∀ c ∈ [3, p32], (intState 1 0 c 0).err = .none ∧ (intState 1 0 c 0).srcN 0 % 2 = 1 ∧
        3 ≤ (intState 1 0 c 0).srcN 0 ∧ (intState 1 0 c 0).limb 0 ((intState 1 0 c 0).words - 1) ≠ 0 :=
  ⟨wf_of_check (by decide +kernel), wf_of_check (by decide +kernel), by decide +kernel⟩
/-- Candidates FSETP refuses: 1, an even one, and one whose top limb of two is zero. -/
theorem witness_FsetpInstalls_refused :
    ((intState 1 0 1 0).wf ∧ (intState 1 0 4 0).wf ∧ (intState 2 0 3 0).wf) ∧
      ∀ s ∈ [intState 1 0 1 0, intState 1 0 4 0, intState 2 0 3 0],
        s.err = .none ∧ ¬ (s.srcN 0 % 2 = 1 ∧ 3 ≤ s.srcN 0 ∧ s.limb 0 (s.words - 1) ≠ 0) :=
  ⟨⟨wf_of_check (by decide +kernel), wf_of_check (by decide +kernel), wf_of_check (by decide +kernel)⟩,
    by decide +kernel⟩
theorem witness_FchkVerdict :
    (State.reset.err = .none ∧ State.reset.kind ≠ .prime) ∧
      ((primeState p32 0xFFFFFFFA 0).err = .none ∧ (primeState p32 0xFFFFFFFA 0).kind = .prime ∧
        (primeState p32 0xFFFFFFFA 0).srcF 1 < (primeState p32 0xFFFFFFFA 0).modulus) ∧
      (primeState p32 0xFFFFFFFB 0).err = .none ∧ (primeState p32 0xFFFFFFFB 0).kind = .prime ∧
      (primeState p32 0xFFFFFFFB 0).modulus ≤ (primeState p32 0xFFFFFFFB 0).srcF 1 := by decide +kernel
/-- The three cases of PrimeCommand, with one source and with two: FaddFsubResult, Fadd1FnegFtwiceResult, FhalfResult,
FmulFsqrResult, FredResult. The largest element is `p - 1`, the least value that is none is `p`. -/
theorem witness_PrimeCommand :
    (State.reset.wf ∧ State.reset.err = .none ∧ State.reset.kind ≠ .prime) ∧
      ((primeState p32 5 p32).wf ∧ (primeState p32 5 p32).err = .none ∧ (primeState p32 5 p32).kind = .prime ∧
        (∃ r ∈ [1, (2 : VIdx)], (primeState p32 5 p32).modulus ≤ (primeState p32 5 p32).srcF r) ∧
        ∃ r ∈ [(2 : VIdx)], (primeState p32 5 p32).modulus ≤ (primeState p32 5 p32).srcF r) ∧
      (primeState p32 0xFFFFFFFA 0).wf ∧ (primeState p32 0xFFFFFFFA 0).err = .none ∧
      (primeState p32 0xFFFFFFFA 0).kind = .prime ∧
      ∀ r ∈ [1, (2 : VIdx)], (primeState p32 0xFFFFFFFA 0).srcF r < (primeState p32 0xFFFFFFFA 0).modulus :=
  ⟨⟨wf_of_check (by decide +kernel), by decide⟩, ⟨wf_of_check (by decide +kernel), by decide +kernel⟩,
    wf_of_check (by decide +kernel), by decide +kernel⟩
/-- The further hypotheses of Fadd1FnegFtwiceResult, FhalfResult, FmulFsqrResult and PrimeFieldLaws. -/
theorem witness_PrimeFieldLaws :
    (primeState p32 0xFFFFFFFA 3).wf ∧ (primeState p32 0xFFFFFFFA 3).err = .none ∧
      (primeState p32 0xFFFFFFFA 3).kind = .prime ∧
      (primeState p32 0xFFFFFFFA 3).words = (primeState p32 0xFFFFFFFA 3).fieldWords ∧
      (∀ r ∈ [1, 2, (3 : VIdx)], (primeState p32 0xFFFFFFFA 3).srcF r < (primeState p32 0xFFFFFFFA 3).modulus) ∧
      (5 : VIdx) ≠ 1 ∧ (5 : VIdx) ≠ 3 ∧ (6 : VIdx) ≠ 5 :=
  ⟨wf_of_check (by decide +kernel), by decide +kernel⟩
/-- The one canonical half of FhalfResult: `2 * 0x7FFFFFFE = 1 (mod p)`. -/
theorem witness_FhalfResult :
    (primeState p32 1 0).wf ∧ (primeState p32 1 0).kind = .prime ∧ 0x7FFFFFFE < (primeState p32 1 0).modulus ∧
      2 * 0x7FFFFFFE % (primeState p32 1 0).modulus = (primeState p32 1 0).srcF 1 :=
  ⟨wf_of_check (by decide +kernel), by decide +kernel⟩
theorem witness_FinvResult :
    ((primeState p32 0 0).wf ∧ (primeState p32 0 0).err = .none ∧ (primeState p32 0 0).kind = .prime ∧
        (primeState p32 0 0).srcF 1 = 0) ∧
      ((primeState p32 2 0).wf ∧ (primeState p32 2 0).srcF 1 ≠ 0 ∧
        ∀ r ∈ [(1 : VIdx)], (primeState p32 2 0).srcF r < (primeState p32 2 0).modulus) ∧
      ((primeState p32 p32 0).wf ∧ (primeState p32 p32 0).srcF 1 ≠ 0 ∧
        ∃ r ∈ [(1 : VIdx)], (primeState p32 p32 0).modulus ≤ (primeState p32 p32 0).srcF r) ∧
      State.reset.kind ≠ .prime :=
  ⟨⟨wf_of_check (by decide +kernel), by decide +kernel⟩, ⟨wf_of_check (by decide +kernel), by decide +kernel⟩,
    ⟨wf_of_check (by decide +kernel), by decide +kernel⟩, by decide⟩
/-- The modulus 7. -/
theorem witness_FinvIsInverse :
    ((primeState 7 6 0).wf ∧ (primeState 7 6 0).err = .none ∧ (primeState 7 6 0).kind = .prime ∧
        (primeState 7 6 0).srcF 1 < (primeState 7 6 0).modulus ∧ (primeState 7 6 0).srcF 1 ≠ 0) ∧
      (primeState 7 6 0).modulus.Prime := by
  refine ⟨⟨wf_of_check (by decide +kernel), by decide +kernel⟩, ?_⟩
  rw [show (primeState 7 6 0).modulus = 7 by decide +kernel]
  norm_num

theorem witness_ClmulIsPolynomialProduct : (0x57 : Nat) < 2 ^ 7 ∧ (0x83 : Nat) ≠ 0 := by decide
theorem witness_PmodIsRemainder :
    (0x11B : Nat) ≠ 0 ∧ 0x35 < 2 ^ (0x11B : Nat).log2 ∧ 0xFFFF ^^^ 0x35 = clmul 0xF6 0x11B ∧
      2 ^ (0x11B : Nat).log2 ≤ 0xFFFF := by decide +kernel
/-- The hypotheses of BinaryRingLaws and SquareAndMultiplyIsPower. -/
theorem witness_BinaryRingLaws_SquareAndMultiplyIsPower :
    2 ≤ 0x11B ∧ ∀ x ∈ [0x57, 0x83, 0xFF], x < 2 ^ (0x11B : Nat).log2 := by decide +kernel

/-- Descriptors BSETF accepts: the least trinomial, a pentanomial, the largest degree. -/
theorem witness_BsetfInstalls_accepted :
    ∀ x ∈ [(2, 1, 0, 0), (8, 1, 3, 4), (576, 575, 0, 0)],
      (intState 1 0 (x.1 + 2 ^ 32 * (x.2.1 + 2 ^ 32 * (x.2.2.1 + 2 ^ 32 * x.2.2.2))) 0).err = .none ∧
      x = (((intState 1 0 (x.1 + 2 ^ 32 * (x.2.1 + 2 ^ 32 * (x.2.2.1 + 2 ^ 32 * x.2.2.2))) 0).limb 0 0).toNat,
        ((intState 1 0 (x.1 + 2 ^ 32 * (x.2.1 + 2 ^ 32 * (x.2.2.1 + 2 ^ 32 * x.2.2.2))) 0).limb 0 1).toNat,
        ((intState 1 0 (x.1 + 2 ^ 32 * (x.2.1 + 2 ^ 32 * (x.2.2.1 + 2 ^ 32 * x.2.2.2))) 0).limb 0 2).toNat,
        ((intState 1 0 (x.1 + 2 ^ 32 * (x.2.1 + 2 ^ 32 * (x.2.2.1 + 2 ^ 32 * x.2.2.2))) 0).limb 0 3).toNat) ∧
      binaryDescOk x.1 x.2.1 x.2.2.1 x.2.2.2 = true := by decide +kernel
/-- Descriptors BSETF refuses: degree 1, degree 577, exponents out of order, one middle exponent zero. -/
theorem witness_BsetfInstalls_refused :
    ∀ x ∈ [(1, 1, 0, 0), (577, 1, 0, 0), (8, 3, 1, 4), (8, 1, 0, 4), (8, 0, 0, 0), (0x100000008 % 2 ^ 32, 8, 0, 0)],
      ¬ (2 ≤ x.1 ∧ x.1 ≤ 576 ∧ ((x.2.2.1 = 0 ∧ x.2.2.2 = 0 ∧ 1 ≤ x.2.1 ∧ x.2.1 < x.1) ∨
        (1 ≤ x.2.1 ∧ x.2.1 < x.2.2.1 ∧ x.2.2.1 < x.2.2.2 ∧ x.2.2.2 < x.1))) := by decide
theorem witness_BchkVerdict :
    (State.reset.err = .none ∧ State.reset.kind ≠ .binary) ∧
      ((aes 0xFF 0).err = .none ∧ (aes 0xFF 0).kind = .binary ∧ (aes 0xFF 0).srcF 1 < 2 ^ (aes 0xFF 0).degree) ∧
      (aes 0x100 0).err = .none ∧ (aes 0x100 0).kind = .binary ∧ 2 ^ (aes 0x100 0).degree ≤ (aes 0x100 0).srcF 1 := by
  decide +kernel
/-- The three cases of BinaryCommand, with one source and with two: BaddResult, BmulBsqrResult, BmulxResult, BredResult,
BsqrnBsqrtResult, BtraceVerdict. The largest element is `2^8 - 1`, the least value that is none is `2^8`. -/
theorem witness_BinaryCommand :
    (State.reset.wf ∧ State.reset.err = .none ∧ State.reset.kind ≠ .binary) ∧
      ((aes 5 0x100).wf ∧ (aes 5 0x100).err = .none ∧ (aes 5 0x100).kind = .binary ∧
        (∃ r ∈ [1, (2 : VIdx)], 2 ^ (aes 5 0x100).degree ≤ (aes 5 0x100).srcF r) ∧
        ∃ r ∈ [(2 : VIdx)], 2 ^ (aes 5 0x100).degree ≤ (aes 5 0x100).srcF r) ∧
      (aes 0xFF 0x83).wf ∧ (aes 0xFF 0x83).err = .none ∧ (aes 0xFF 0x83).kind = .binary ∧
      (∀ r ∈ [1, (2 : VIdx)], (aes 0xFF 0x83).srcF r < 2 ^ (aes 0xFF 0x83).degree) ∧
      1 ≤ (1 : BitVec 12).toNat ∧ 1 ≤ (4095 : BitVec 12).toNat :=
  ⟨⟨wf_of_check (by decide +kernel), by decide⟩, ⟨wf_of_check (by decide +kernel), by decide +kernel⟩,
    wf_of_check (by decide +kernel), by decide +kernel⟩
theorem witness_BinvResult :
    ((aes 0 0).wf ∧ (aes 0 0).err = .none ∧ (aes 0 0).kind = .binary ∧ (aes 0 0).srcF 1 = 0) ∧
      ((aes 0xFF 0).wf ∧ (aes 0xFF 0).srcF 1 ≠ 0 ∧ ∀ r ∈ [(1 : VIdx)], (aes 0xFF 0).srcF r < 2 ^ (aes 0xFF 0).degree) ∧
      ((aes 0x100 0).wf ∧ (aes 0x100 0).srcF 1 ≠ 0 ∧
        ∃ r ∈ [(1 : VIdx)], 2 ^ (aes 0x100 0).degree ≤ (aes 0x100 0).srcF r) ∧
      State.reset.kind ≠ .binary :=
  ⟨⟨wf_of_check (by decide +kernel), by decide +kernel⟩, ⟨wf_of_check (by decide +kernel), by decide +kernel⟩,
    ⟨wf_of_check (by decide +kernel), by decide +kernel⟩, by decide⟩
theorem witness_BhtraceResult :
    ((aes 2 0).wf ∧ (aes 2 0).err = .none ∧ (aes 2 0).kind = .binary ∧ (aes 2 0).degree % 2 = 0) ∧
      ((m7 2 0).wf ∧ (m7 2 0).err = .none ∧ (m7 2 0).kind = .binary ∧ (m7 2 0).degree % 2 = 1 ∧
        ∀ r ∈ [(1 : VIdx)], (m7 2 0).srcF r < 2 ^ (m7 2 0).degree) ∧
      ((m7 0x80 0).wf ∧ (m7 0x80 0).degree % 2 = 1 ∧
        ∃ r ∈ [(1 : VIdx)], 2 ^ (m7 0x80 0).degree ≤ (m7 0x80 0).srcF r) ∧
      State.reset.kind ≠ .binary :=
  ⟨⟨wf_of_check (by decide +kernel), by decide +kernel⟩, ⟨wf_of_check (by decide +kernel), by decide +kernel⟩,
    ⟨wf_of_check (by decide +kernel), by decide +kernel⟩, by decide⟩

/-- `t^2 + t + 1` is irreducible: its factors have degrees that add up to 2, so both are below 8. -/
theorem polyIrreducible_seven : PolyIrreducible 7 := by
  refine ⟨by decide, fun g h hgh => ?_⟩
  have hg : g ≠ 0 := by
    rintro rfl
    have : ∀ h i, clmulLoop 0 h i = 0 := fun h i => by
      induction i with
      | zero => rfl
      | succ i ih => simp [clmulLoop_succ, ih]
    simp [clmul, this] at hgh
  have hh : h ≠ 0 := by
    rintro rfl
    simp [clmul, clmulLoop] at hgh
  have hdeg : g.log2 + h.log2 ≤ 2 := by
    by_contra hlt
    have := clmul_testBit_log2 hg hh
    rw [hgh, Nat.testBit_lt_two_pow (Nat.lt_of_lt_of_le (show 7 < 2 ^ 3 by decide)
      (Nat.pow_le_pow_right (by omega) (by omega)))] at this
    cases this
  have hg8 : g < 8 := (Nat.log2_lt hg).mp (show g.log2 < 3 by omega)
  have hh8 : h < 8 := (Nat.log2_lt hh).mp (show h.log2 < 3 by omega)
  have key : ∀ a : Fin 8, ∀ b : Fin 8, clmul a.val b.val = 7 → a.val = 1 ∨ b.val = 1 := by decide +kernel
  exact key ⟨g, hg8⟩ ⟨h, hh8⟩ hgh

/-- The hypotheses of BinvIsInverse and BsqrtUndoesBsqr, in the field of four elements. -/
theorem witness_BinvIsInverse_BsqrtUndoesBsqr :
    ((binState 2 1 0 0 3 0).wf ∧ (binState 2 1 0 0 3 0).err = .none ∧ (binState 2 1 0 0 3 0).kind = .binary ∧
        (binState 2 1 0 0 3 0).srcF 1 < 2 ^ (binState 2 1 0 0 3 0).degree ∧ (binState 2 1 0 0 3 0).srcF 1 ≠ 0) ∧
      PolyIrreducible (binState 2 1 0 0 3 0).fieldPoly := by
  refine ⟨⟨wf_of_check (by decide +kernel), by decide +kernel⟩, ?_⟩
  rw [show (binState 2 1 0 0 3 0).fieldPoly = 7 by decide +kernel]
  exact polyIrreducible_seven

end Sys2Proof.Tests
end

section
/-!
PROOF. Polynomials over GF(2) (00_scope.md R11, R12). `polyOf` reads a number as the polynomial of `(ZMod 2)[X]` whose
coefficients are its bits, and `residue f` takes that polynomial modulo `f`. The model's `^^^`, `<<<`, `clmul` and
`gfMul` become sums, powers of `X` and products there, and numbers below `2 ^ f.log2` have different residues; so a law
of the model's arithmetic is a law of a commutative ring.
-/

open Sys2Proof Sys2Proof.Machine

namespace Sys2Proof.Proofs

/-! ## Numbers as polynomials -/

/-- The polynomial over GF(2) that a number is read as (00_scope.md R11). -/
noncomputable def polyOf (a : Nat) : Polynomial (ZMod 2) :=
  ∑ i ∈ Finset.range (a.log2 + 1), if a.testBit i then Polynomial.X ^ i else 0

/-- Only the bits up to `log2` of a number can be set. -/
theorem le_log2_of_testBit {a i : Nat} (h : a.testBit i = true) : i ≤ a.log2 :=
  (Nat.le_log2 (by rintro rfl; simp at h)).mpr (Nat.ge_two_pow_of_testBit h)

@[simp] theorem coeff_polyOf (a i : Nat) : (polyOf a).coeff i = if a.testBit i then 1 else 0 := by
  have hterm : ∀ j, (if a.testBit j then Polynomial.X ^ j else 0 : Polynomial (ZMod 2)).coeff i =
      if i = j then (if a.testBit i then 1 else 0) else 0 := fun j => by
    by_cases hij : i = j
    · subst hij
      cases a.testBit i <;> simp
    · cases a.testBit j <;> simp [Polynomial.coeff_X_pow, hij]
  rw [polyOf, Polynomial.finsetSum_coeff, Finset.sum_congr rfl fun j _ => hterm j, Finset.sum_ite_eq]
  cases h : a.testBit i with
  | false => simp
  | true => simp [Nat.lt_succ_of_le (le_log2_of_testBit h)]

theorem polyOf_injective : Function.Injective polyOf := fun a b h =>
  Nat.eq_of_testBit_eq fun i => by
    have hi := congrArg (·.coeff i) h
    cases ha : a.testBit i <;> cases hb : b.testBit i <;> simp [ha, hb] at hi ⊢

@[simp] theorem polyOf_zero : polyOf 0 = 0 := by
  ext i
  simp

@[simp] theorem polyOf_one : polyOf 1 = 1 := by
  ext i
  cases i <;> simp [Polynomial.coeff_one, Nat.testBit_succ]

/-- Addition of polynomials is exclusive-or (R11). -/
@[simp] theorem polyOf_xor (a b : Nat) : polyOf (a ^^^ b) = polyOf a + polyOf b := by
  ext i
  cases ha : a.testBit i <;> cases hb : b.testBit i <;> simp [ha, hb]
  exact (CharTwo.add_self_eq_zero 1).symm

@[simp] theorem polyOf_shiftLeft (a i : Nat) : polyOf (a <<< i) = polyOf a * Polynomial.X ^ i := by
  ext j
  by_cases hij : i ≤ j <;> simp [Polynomial.coeff_mul_X_pow', Nat.testBit_shiftLeft, hij]

theorem polyOf_two_pow (i : Nat) : polyOf (2 ^ i) = Polynomial.X ^ i := by
  rw [← Nat.one_shiftLeft, polyOf_shiftLeft, polyOf_one, one_mul]

theorem polyOf_clmulLoop (a b i : Nat) :
    polyOf (clmulLoop a b i) =
      polyOf a * ∑ j ∈ Finset.range i, if b.testBit j then Polynomial.X ^ j else 0 := by
  induction i with
  | zero => simp
  | succ i ih =>
    rw [clmulLoop_succ, Finset.sum_range_succ, mul_add]
    cases b.testBit i <;> simp [ih]

/-- `clmul` is the product of polynomials over GF(2) (R11). -/
@[simp] theorem polyOf_clmul (a b : Nat) : polyOf (clmul a b) = polyOf a * polyOf b :=
  polyOf_clmulLoop a b (b.log2 + 1)

theorem degree_polyOf_lt {a n : Nat} (h : a < 2 ^ n) : (polyOf a).degree < n := by
  rw [Polynomial.degree_lt_iff_coeff_zero]
  intro i hi
  simp [Nat.testBit_lt_two_pow (Nat.lt_of_lt_of_le h (Nat.pow_le_pow_right (by omega) hi))]

theorem le_degree_polyOf {f : Nat} (hf : f ≠ 0) : (f.log2 : WithBot Nat) ≤ (polyOf f).degree :=
  Polynomial.le_degree_of_ne_zero (by simp [Nat.testBit_log2 hf])

/-! ## The laws of `clmul` -/

theorem zero_clmul (f : Nat) : clmul 0 f = 0 :=
  polyOf_injective (by simp)

theorem xor_clmul (a b f : Nat) : clmul (a ^^^ b) f = clmul a f ^^^ clmul b f :=
  polyOf_injective (by simp [add_mul])

theorem two_pow_clmul (i f : Nat) : clmul (2 ^ i) f = f <<< i :=
  polyOf_injective (by simp [polyOf_two_pow, mul_comm])

/-- The loop of `clmul` as the fold R11 states, upwards over the bits. -/
theorem clmulLoop_eq_foldl (a b n : Nat) :
    clmulLoop a b n = (List.range n).foldl (fun acc i => if b.testBit i then acc ^^^ (a <<< i) else acc) 0 := by
  induction n with
  | zero => rfl
  | succ n ih => rw [clmulLoop_succ, List.range_succ, List.foldl_concat, ← ih]

theorem clmul_ne_zero {a b : Nat} (ha : a ≠ 0) (hb : b ≠ 0) : clmul a b ≠ 0 := fun h => by
  simpa [h] using clmul_testBit_log2 ha hb

/-- The degree of a product is the sum of the degrees (R11). -/
theorem log2_clmul {a b : Nat} (ha : a ≠ 0) (hb : b ≠ 0) : (clmul a b).log2 = a.log2 + b.log2 :=
  (Nat.log2_eq_iff (clmul_ne_zero ha hb)).mpr
    ⟨Nat.ge_two_pow_of_testBit (clmul_testBit_log2 ha hb), clmulLoop_lt a b (b.log2 + 1)⟩

/-- Settles O44: the count of bits is the bound `n`, and the top bits of the factors give the top bit of the product. -/
theorem clmulIsPolynomialProduct : Obligations.ClmulIsPolynomialProduct := by
  unfold Obligations.ClmulIsPolynomialProduct
  refine ⟨fun a b n hb => ?_, fun a b ha hb => ⟨clmul_ne_zero ha hb, log2_clmul ha hb⟩⟩
  rw [clmul_eq_loop a b n hb, clmulLoop_eq_foldl]

/-! ## Residues modulo `f` -/

/-- The class of a number's polynomial in GF(2)[t]/(f). -/
noncomputable def residue (f a : Nat) : AdjoinRoot (polyOf f) :=
  AdjoinRoot.mk (polyOf f) (polyOf a)

@[simp] theorem residue_one (f : Nat) : residue f 1 = 1 := by
  simp [residue]

@[simp] theorem residue_xor (f a b : Nat) : residue f (a ^^^ b) = residue f a + residue f b := by
  simp [residue]

@[simp] theorem residue_clmul (f a b : Nat) : residue f (clmul a b) = residue f a * residue f b := by
  simp [residue]

/-- Two numbers that differ by a multiple of `f` have the same residue. -/
theorem residue_eq_of_xor_eq_clmul {f a b q : Nat} (h : a ^^^ b = clmul q f) : residue f a = residue f b := by
  have ha : a = clmul q f ^^^ b := by rw [← h, Nat.xor_xor_cancel_right]
  rw [ha, residue_xor, residue_clmul]
  simp [residue]

/-- A residue has one representative of a smaller degree than `f`. -/
theorem residue_injOn {f a b : Nat} (hf : f ≠ 0) (ha : a < 2 ^ f.log2) (hb : b < 2 ^ f.log2)
    (h : residue f a = residue f b) : a = b := by
  have hdvd : polyOf f ∣ polyOf a - polyOf b := AdjoinRoot.mk_eq_mk.mp h
  have hdeg : (polyOf a - polyOf b).degree < (polyOf f).degree :=
    calc (polyOf a - polyOf b).degree
      _ ≤ max (polyOf a).degree (polyOf b).degree := Polynomial.degree_sub_le _ _
      _ < f.log2 := max_lt (degree_polyOf_lt ha) (degree_polyOf_lt hb)
      _ ≤ (polyOf f).degree := le_degree_polyOf hf
  exact polyOf_injective (sub_eq_zero.mp (Polynomial.eq_zero_of_dvd_of_degree_lt hdvd hdeg))

/-! ## The remainder -/

/-- Long division changes `a` by a multiple of `f`. -/
theorem exists_xor_pmodLoop_eq_clmul (f d i a : Nat) : ∃ q, a ^^^ pmodLoop f d i a = clmul q f := by
  induction i generalizing a with
  | zero => exact ⟨0, by simp [zero_clmul]⟩
  | succ i ih =>
    rw [pmodLoop_succ]
    cases a.testBit (d + i) with
    | false => exact ih a
    | true =>
      obtain ⟨q, hq⟩ := ih (a ^^^ (f <<< i))
      refine ⟨2 ^ i ^^^ q, ?_⟩
      rw [if_pos rfl, xor_clmul, two_pow_clmul, ← hq, Nat.xor_comm a (f <<< i), Nat.xor_assoc,
        Nat.xor_xor_cancel_left]

/-- A remainder differs from the dividend by a multiple of the divisor (R11). -/
theorem exists_xor_pmod_eq_clmul (a f : Nat) : ∃ q, a ^^^ pmod a f = clmul q f :=
  exists_xor_pmodLoop_eq_clmul f f.log2 (a.log2 + 1) a

@[simp] theorem residue_pmod (f a : Nat) : residue f (pmod a f) = residue f a := by
  obtain ⟨q, hq⟩ := exists_xor_pmod_eq_clmul a f
  exact (residue_eq_of_xor_eq_clmul hq).symm

/-- The remainder is the only number of a smaller degree than `f` with the residue of `a`. -/
theorem eq_pmod_of_residue_eq {f a r : Nat} (hf : f ≠ 0) (hr : r < 2 ^ f.log2) (h : residue f r = residue f a) :
    r = pmod a f :=
  residue_injOn hf hr (pmod_lt a hf) (by rw [h, residue_pmod])

theorem pmod_eq_self {f a : Nat} (hf : f ≠ 0) (ha : a < 2 ^ f.log2) : pmod a f = a :=
  (eq_pmod_of_residue_eq hf ha rfl).symm

/-- One subtraction of R11's loop, at any position, leaves the remainder as it is. -/
theorem pmod_xor_shiftLeft {f : Nat} (hf : f ≠ 0) (a i : Nat) : pmod (a ^^^ (f <<< i)) f = pmod a f := by
  refine eq_pmod_of_residue_eq hf (pmod_lt _ hf) ?_
  rw [residue_pmod]
  refine residue_eq_of_xor_eq_clmul (q := 2 ^ i) ?_
  rw [two_pow_clmul, Nat.xor_comm a, Nat.xor_xor_cancel_right]

/-- Settles O45: the remainder is the representative of small degree of the residue of `a`. -/
theorem pmodIsRemainder : Obligations.PmodIsRemainder := by
  unfold Obligations.PmodIsRemainder
  intro a f hf
  refine ⟨pmod_lt a hf, exists_xor_pmod_eq_clmul a f, fun r q hr hq => ?_, pmod_eq_self hf,
    fun _ => (pmod_xor_shiftLeft hf a _).symm⟩
  exact eq_pmod_of_residue_eq hf hr (residue_eq_of_xor_eq_clmul hq).symm

/-! ## Products and powers modulo `f` -/

@[simp] theorem residue_gfMul (f x y : Nat) : residue f (gfMul f x y) = residue f x * residue f y := by
  simp [gfMul]

/-- Square-and-multiply over the low `i` bits of `e`. -/
theorem residue_powLoop (f x e i acc : Nat) :
    residue f (powLoop (gfMul f) x e i acc) = residue f acc ^ 2 ^ i * residue f x ^ (e % 2 ^ i) := by
  induction i generalizing acc with
  | zero => simp [powLoop, Nat.mod_one]
  | succ i ih =>
    have hsq : residue f (gfMul f acc acc) ^ 2 ^ i = residue f acc ^ 2 ^ (i + 1) := by
      rw [residue_gfMul, ← pow_two, ← pow_mul, ← pow_succ']
    rw [powLoop, ih, mod_two_pow_succ_eq]
    cases e.testBit i with
    | false => simpa using congrArg (· * residue f x ^ (e % 2 ^ i)) hsq
    | true =>
      rw [if_pos rfl, if_pos rfl, residue_gfMul f (gfMul f acc acc), mul_pow, hsq, mul_assoc, ← pow_add]

theorem residue_gfPow (f x e : Nat) : residue f (gfPow f x e) = residue f x ^ e := by
  simp [gfPow, residue_powLoop, Nat.mod_eq_of_lt Nat.lt_log2_self]

theorem residue_polyPower (f x e : Nat) : residue f (polyPower f x e) = residue f x ^ e := by
  induction e with
  | zero => simp [polyPower]
  | succ e ih => rw [polyPower, residue_gfMul, ih, pow_succ]

theorem gfMul_lt {f : Nat} (hf : f ≠ 0) (x y : Nat) : gfMul f x y < 2 ^ f.log2 :=
  pmod_lt _ hf

theorem powLoop_gfMul_lt {f : Nat} (hf : f ≠ 0) (x e i : Nat) {acc : Nat} (h : acc < 2 ^ f.log2) :
    powLoop (gfMul f) x e i acc < 2 ^ f.log2 := by
  induction i generalizing acc with
  | zero => exact h
  | succ i ih =>
    rw [powLoop]
    apply ih
    split <;> exact gfMul_lt hf _ _

theorem gfPow_lt {f : Nat} (hf : f ≠ 0) (x e : Nat) : gfPow f x e < 2 ^ f.log2 :=
  powLoop_gfMul_lt hf x e _ (pmod_lt 1 hf)

theorem polyPower_lt {f : Nat} (hf : f ≠ 0) (x e : Nat) : polyPower f x e < 2 ^ f.log2 := by
  cases e with
  | zero => exact pmod_lt 1 hf
  | succ e => exact gfMul_lt hf _ _

/-- Settles O47: both powers have the residue `x ^ e`, and both have a smaller degree than `f`. -/
theorem squareAndMultiplyIsPower : Obligations.SquareAndMultiplyIsPower := by
  unfold Obligations.SquareAndMultiplyIsPower
  intro f x e hf _
  have hf0 : f ≠ 0 := by omega
  exact residue_injOn hf0 (gfPow_lt hf0 x e) (polyPower_lt hf0 x e) (by rw [residue_gfPow, residue_polyPower])

end Sys2Proof.Proofs
end

section
/-!
PROOF. The state (10_state.md): what a command can do to it, what every step keeps, and what the port shows of it.

A command ends in one of eleven effects. `exec_endAlike` says once which effect each command can end in, and that two
states which differ only in registers the command does not read end in the same one. Who writes a flag, who writes the
control state, that the invariant is kept and that unread limbs do not matter are all read off from it.
-/

open Sys2Proof Sys2Proof.Machine

namespace Sys2Proof.Proofs

/-! ## The effects of commands -/

/-- The ways a command can end, each with the values it writes. -/
inductive Effect where
  /-- Nothing changes. -/
  | keep
  /-- `N` is written. -/
  | setWords (n : BitVec 5)
  /-- The return from an error. -/
  | clearErr
  /-- Software reset. -/
  | reset
  /-- The low limbs of a register are written. -/
  | result (d : VIdx) (len z : Nat)
  /-- The low limbs of a register and the carry word are written. -/
  | resultCarry (d : VIdx) (len z : Nat) (c : Word)
  /-- `T` is written. -/
  | test (b : Bool)
  /-- A prime descriptor with `N` limbs of modulus is installed. -/
  | installPrime (p : Nat)
  /-- A binary descriptor is installed. -/
  | installBinary (m k1 k2 k3 : Nat)
  /-- An error is raised and nothing else happens. -/
  | raise (e : ErrCode) (w : Word)
  /-- `T` is cleared before E_ELEMENT is raised (90_conflicts.md C6). -/
  | rejectElement (w : Word)

/-- The state an effect leads to. -/
@[simp] def Effect.apply (s : State) : Effect → State
  | .keep => s
  | .setWords n => { s with n := n }
  | .clearErr => s.clearErr
  | .reset => s.resetArch
  | .result d len z => s.writeReg d len z
  | .resultCarry d len z c => (s.writeReg d len z).setCw c
  | .test b => s.setT b
  | .installPrime p =>
    { s with
      p := writeVec (Vector.replicate 18 0#32) s.words p
      kind := .prime, fn := s.n, m := 0, k1 := 0, k2 := 0, k3 := 0 }
  | .installBinary m k1 k2 k3 => s.installBinary m k1 k2 k3
  | .raise e w => s.raise e w
  | .rejectElement w => (s.setT false).raise .element w

/-- Which commands can end in an effect, and with which values. A register result is left to every command: it writes
neither a flag nor control state. -/
@[simp] def Allows (i : Instr) (s : State) : Effect → Prop
  | .keep => i = .nop
  | .setWords n => i = .setn n
  | .clearErr => i = .clrerr
  | .reset => i = .sreset
  | .result _ _ _ => True
  | .resultCarry _ _ _ _ => writesCw i = true
  | .test _ => writesT i = true
  | .installPrime p => ∃ a, i = .fsetp a ∧ p = s.srcN a ∧ s.primeDescOk a = true
  | .installBinary m k1 k2 k3 => (∃ a, i = .bsetf a) ∧ binaryDescOk m k1 k2 k3 = true
  | .raise e w => e ≠ .none ∧ w = encode i
  | .rejectElement w => w = encode i ∧ ∃ a, i = .fchk a ∨ i = .bchk a

/-! ## States that differ in their registers only -/

/-- `s` with other vector registers. -/
def withRegs (s : State) (v : Vector (Vector Limb 36) 8) : State :=
  { s with v := v }

section withRegs
variable (s : State) (v : Vector (Vector Limb 36) 8)

@[simp] theorem withRegs_self : withRegs s s.v = s := rfl
@[simp] theorem kind_withRegs : (withRegs s v).kind = s.kind := rfl
@[simp] theorem words_withRegs : (withRegs s v).words = s.words := rfl
@[simp] theorem base_withRegs : (withRegs s v).base = s.base := rfl
@[simp] theorem shiftIn_withRegs (ci : Bool) (k : Nat) : (withRegs s v).shiftIn ci k = s.shiftIn ci k := rfl
@[simp] theorem fieldWords_withRegs : (withRegs s v).fieldWords = s.fieldWords := rfl
@[simp] theorem modulus_withRegs : (withRegs s v).modulus = s.modulus := rfl
@[simp] theorem degree_withRegs : (withRegs s v).degree = s.degree := rfl
@[simp] theorem fieldPoly_withRegs : (withRegs s v).fieldPoly = s.fieldPoly := rfl

theorem sameControl_withRegs : SameControl s (withRegs s v) := by
  simp [SameControl, withRegs]

/-- No effect looks at a register: outside the registers it does the same to both states. -/
theorem apply_withRegs (e : Effect) : e.apply (withRegs s v) = withRegs (e.apply s) (e.apply (withRegs s v)).v := by
  cases e with
  | clearErr =>
    by_cases he : s.err = .invZero <;> simp [State.clearErr, withRegs, he]
  | _ => rfl

/-- Each limb an effect writes gets the same value in both states; the others stay. -/
theorem limb_apply_withRegs (e : Effect) (r : VIdx) (j : Nat) :
    (e.apply (withRegs s v)).limb r j = (e.apply s).limb r j ∨
      ((e.apply s).limb r j = s.limb r j ∧ (e.apply (withRegs s v)).limb r j = (withRegs s v).limb r j) := by
  cases e with
  | reset => exact .inl rfl
  | result d len z | resultCarry d len z _ =>
    have h (u : State) (c : Word) : ((u.writeReg d len z).setCw c).limb r j = (u.writeReg d len z).limb r j := rfl
    simp only [Effect.apply, h, State.limb_writeReg]
    split
    · exact .inl rfl
    · exact .inr ⟨rfl, rfl⟩
  | clearErr => exact .inr ⟨State.limb_of_v_eq s.clearErr_v r j, State.limb_of_v_eq (State.clearErr_v _) r j⟩
  | _ => exact .inr ⟨rfl, rfl⟩

end withRegs

/-- The registers `v` agree with those of `s` on the limbs that `i` reads (10_state.md R22). FSETP reads the top limb of
its candidate also at `N = 0`, a word count that no run reaches. -/
structure ReadsAlike (i : Instr) (s : State) (v : Vector (Vector Limb 36) 8) : Prop where
  limb : ∀ r ∈ sources i, ∀ j < readLen i s, (withRegs s v).limb r j = s.limb r j
  top : ∀ a, i = .fsetp a → (withRegs s v).limb a (s.words - 1) = s.limb a (s.words - 1)

theorem readsAlike_self (i : Instr) (s : State) : ReadsAlike i s s.v :=
  ⟨fun _ _ _ _ => rfl, fun _ _ => rfl⟩

namespace ReadsAlike
variable {i : Instr} {s : State} {v : Vector (Vector Limb 36) 8}

theorem val (h : ReadsAlike i s v) {len : Nat} (hlen : readLen i s = len) :
    ∀ r ∈ sources i, (withRegs s v).val r len = s.val r len := fun r hr =>
  State.val_congr _ _ _ _ _ fun j hj => h.limb r hr j (by omega)

theorem srcN (h : ReadsAlike i s v) (hlen : readLen i s = s.words) :
    ∀ r ∈ sources i, (withRegs s v).srcN r = s.srcN r :=
  h.val hlen

theorem srcF (h : ReadsAlike i s v) (hlen : readLen i s = s.fieldWords) :
    ∀ r ∈ sources i, (withRegs s v).srcF r = s.srcF r :=
  h.val hlen

theorem srcFF (h : ReadsAlike i s v) (hlen : readLen i s = 2 * s.fieldWords) :
    ∀ r ∈ sources i, (withRegs s v).srcFF r = s.srcFF r :=
  h.val hlen

end ReadsAlike

/-! ## Which effect a command has -/

/-- Two results, of command `i` in `s` and in `s` with registers `v`, come from one effect that `i` can have. -/
def EndAlike (i : Instr) (s : State) (v : Vector (Vector Limb 36) 8) (x y : Result) : Prop :=
  ∃ e : Effect, Allows i s e ∧ x = .next (e.apply s) ∧ y = .next (e.apply (withRegs s v))

section EndAlike
variable {i : Instr} {s : State} {v : Vector (Vector Limb 36) 8} {d : VIdx} {z z' : Nat}

theorem endCarry_endAlike {c c' : Word} (hw : writesCw i = true) (hz : z' = z) (hc : c' = c) :
    EndAlike i s v (endCarry s d z c) (endCarry (withRegs s v) d z' c') := by
  subst hz hc
  exact ⟨.resultCarry d s.words z' c', hw, rfl, rfl⟩

theorem endWide_endAlike (hz : z' = z) : EndAlike i s v (endWide s d z) (endWide (withRegs s v) d z') := by
  subst hz
  exact ⟨.result d (2 * s.words) z', trivial, rfl, rfl⟩

theorem endTest_endAlike {b b' : Bool} (hw : writesT i = true) (hb : b' = b) :
    EndAlike i s v (endTest s b) (endTest (withRegs s v) b') := by
  subst hb
  exact ⟨.test b', hw, rfl, rfl⟩

/-- A failing check is one of the list. -/
theorem firstFailure_mem {l : List (Bool × ErrCode)} {e : ErrCode} (h : firstFailure l = some e) : (true, e) ∈ l := by
  induction l with
  | nil => cases h
  | cons x l ih =>
    obtain ⟨b, f⟩ := x
    cases b with
    | true => simp_all
    | false => exact List.mem_cons_of_mem _ (ih (by simpa using h))

/-- A checked command: the same checks, each of them for an error, and the same effect where they pass. -/
theorem commit_endAlike {l l' : List (Bool × ErrCode)} {t t' : State} (e : Effect) (hl : l' = l)
    (hne : ∀ x ∈ l, x.2 ≠ .none) (he : firstFailure l = none → Allows i s e) (ht : t = e.apply s)
    (ht' : t' = e.apply (withRegs s v)) :
    EndAlike i s v (commit (firstFailure l) (encode i) s t) (commit (firstFailure l') (encode i) (withRegs s v) t') := by
  subst hl ht ht'
  cases hf : firstFailure l' with
  | none => exact ⟨e, he hf, rfl, rfl⟩
  | some err => exact ⟨.raise err (encode i), ⟨hne _ (firstFailure_mem hf), rfl⟩, rfl, rfl⟩

/-- A checked command whose effect is a register result. -/
theorem commit_result_endAlike {len : Nat} {l l' : List (Bool × ErrCode)} (hl : l' = l) (hne : ∀ x ∈ l, x.2 ≠ .none)
    (hz : z' = z) :
    EndAlike i s v (commit (firstFailure l) (encode i) s (s.writeReg d len z))
      (commit (firstFailure l') (encode i) (withRegs s v) ((withRegs s v).writeReg d len z')) := by
  subst hz
  exact commit_endAlike (.result d len z') hl hne (fun _ => trivial) rfl rfl

theorem all_eq_all_of_forall_mem {p q : VIdx → Bool} {rs : List VIdx} (h : ∀ r ∈ rs, p r = q r) :
    rs.all p = rs.all q := by
  rw [Bool.eq_iff_iff, List.all_eq_true, List.all_eq_true]
  exact forall₂_congr fun r hr => by rw [h r hr]

theorem primeChecks_withRegs {srcs : List VIdx} (h : ∀ r ∈ srcs, (withRegs s v).srcF r = s.srcF r) :
    (withRegs s v).primeChecks srcs = s.primeChecks srcs := by
  have hall : srcs.all (withRegs s v).canonP = srcs.all s.canonP :=
    all_eq_all_of_forall_mem fun r hr => by simp [State.canonP, h r hr]
  rw [State.primeChecks, hall, kind_withRegs, State.primeChecks]

theorem binaryChecks_withRegs {srcs : List VIdx} (h : ∀ r ∈ srcs, (withRegs s v).srcF r = s.srcF r) :
    (withRegs s v).binaryChecks srcs = s.binaryChecks srcs := by
  have hall : srcs.all (withRegs s v).canonB = srcs.all s.canonB :=
    all_eq_all_of_forall_mem fun r hr => by simp [State.canonB, h r hr]
  rw [State.binaryChecks, hall, kind_withRegs, State.binaryChecks]

theorem primeChecks_ne_none (s : State) (srcs : List VIdx) : ∀ x ∈ s.primeChecks srcs, x.2 ≠ .none := by
  simp [State.primeChecks]

theorem binaryChecks_ne_none (s : State) (srcs : List VIdx) : ∀ x ∈ s.binaryChecks srcs, x.2 ≠ .none := by
  simp [State.binaryChecks]

theorem endPrime_endAlike {srcs : List VIdx} (hsrcs : ∀ r ∈ srcs, (withRegs s v).srcF r = s.srcF r) (hz : z' = z) :
    EndAlike i s v (endPrime s (encode i) srcs d z) (endPrime (withRegs s v) (encode i) srcs d z') :=
  commit_result_endAlike (primeChecks_withRegs hsrcs) (primeChecks_ne_none s srcs) hz

theorem endBinary_endAlike {srcs : List VIdx} (hsrcs : ∀ r ∈ srcs, (withRegs s v).srcF r = s.srcF r) (hz : z' = z) :
    EndAlike i s v (endBinary s (encode i) srcs d z) (endBinary (withRegs s v) (encode i) srcs d z') :=
  commit_result_endAlike (binaryChecks_withRegs hsrcs) (binaryChecks_ne_none s srcs) hz

theorem endElementCheck_endAlike {kind : Kind} {good good' : Bool} (hi : ∃ a, i = .fchk a ∨ i = .bchk a)
    (hgood : good' = good) :
    EndAlike i s v (endElementCheck s (encode i) kind good) (endElementCheck (withRegs s v) (encode i) kind good') := by
  subst hgood
  have hw : writesT i = true := by
    obtain ⟨a, rfl | rfl⟩ := hi <;> rfl
  by_cases hk : s.kind = kind
  · cases good' with
    | true => exact ⟨.test true, hw, by simp [endElementCheck, hk], by simp [endElementCheck, hk]⟩
    | false => exact ⟨.rejectElement (encode i), ⟨rfl, hi⟩, by simp [endElementCheck, hk], by simp [endElementCheck, hk]⟩
  · exact ⟨.raise .noField (encode i), ⟨by decide, rfl⟩, by simp [endElementCheck, hk], by simp [endElementCheck, hk]⟩

end EndAlike

/-- Every command ends in an effect it can have, and in the same one from a state with other registers that agree on
what it reads. -/
theorem exec_endAlike {i : Instr} {s : State} {v : Vector (Vector Limb 36) 8} (h : ReadsAlike i s v) :
    EndAlike i s v (exec i s) (exec i (withRegs s v)) := by
  cases i with
  | nop => exact ⟨.keep, rfl, rfl, rfl⟩
  | setn n => exact ⟨.setWords n, rfl, rfl, rfl⟩
  | clrerr => exact ⟨.clearErr, rfl, rfl, rfl⟩
  | sreset => exact ⟨.reset, rfl, rfl, rfl⟩
  | add d a b | sub d a b =>
    have ha := h.srcN rfl a (.head _)
    have hb := h.srcN rfl b (.tail _ (.head _))
    exact endCarry_endAlike rfl (by simp [ha, hb]) (by simp [ha, hb])
  | inc d a | dec d a | shl1 d a ci | shr1 d a ci | shln d a ci k | shrn d a ci k =>
    have ha := h.srcN rfl a (.head _)
    exact endCarry_endAlike rfl (by simp [ha]) (by simp [ha])
  | mul d a b =>
    have ha := h.srcN rfl a (.head _)
    have hb := h.srcN rfl b (.tail _ (.head _))
    exact endWide_endAlike (by rw [ha, hb])
  | sqr d a => exact endWide_endAlike (by rw [h.srcN rfl a (.head _)])
  | gte a b =>
    have ha := h.srcN rfl a (.head _)
    have hb := h.srcN rfl b (.tail _ (.head _))
    exact endTest_endAlike rfl (by rw [ha, hb])
  | iszero a | isone a => exact endTest_endAlike rfl (by rw [h.srcN rfl a (.head _)])
  | fsetp a =>
    have ha := h.srcN rfl a (.head _)
    have hok : (withRegs s v).primeDescOk a = s.primeDescOk a := by
      simp [State.primeDescOk, ha, h.top a rfl]
    refine commit_endAlike (.installPrime (s.srcN a)) (by rw [hok]) (by simp) (fun hf => ⟨a, rfl, rfl, ?_⟩) rfl ?_
    · simpa using hf
    · rw [← ha]
      rfl
  | fchk a =>
    exact endElementCheck_endAlike ⟨a, .inl rfl⟩ (by simp [State.canonP, h.srcF rfl a (.head _)])
  | fadd d a b | fsub d a b | fmul d a b =>
    have ha := h.srcF rfl a (.head _)
    have hb := h.srcF rfl b (.tail _ (.head _))
    exact endPrime_endAlike (h.srcF rfl) (by simp [ha, hb])
  | fadd1 d a | fneg d a | fhalf d a | ftwice d a | fsqr d a =>
    exact endPrime_endAlike (h.srcF rfl) (by simp [h.srcF rfl a (.head _)])
  | fred d a => exact endPrime_endAlike (by simp) (by simp [h.srcFF rfl a (.head _)])
  | finv d a =>
    have ha := h.srcF rfl a (.head _)
    refine commit_result_endAlike ?_ ?_ (by simp [ha])
    · rw [primeChecks_withRegs (srcs := [a]) (h.srcF rfl), State.zeroCheck, ha, State.zeroCheck]
    · simp [State.primeChecks, State.zeroCheck]
  | bsetf a =>
    have hl (j : Nat) (hj : j < 4) : (withRegs s v).limb a j = s.limb a j := h.limb a (.head _) j hj
    refine commit_endAlike (.installBinary _ _ _ _) ?_ (by simp) (fun hf => ⟨⟨a, rfl⟩, ?_⟩) rfl ?_
    · simp [hl]
    · simpa using hf
    · simp [hl]
  | bchk a =>
    exact endElementCheck_endAlike ⟨a, .inr rfl⟩ (by simp [State.canonB, h.srcF rfl a (.head _)])
  | badd d a b | bmul d a b =>
    have ha := h.srcF rfl a (.head _)
    have hb := h.srcF rfl b (.tail _ (.head _))
    exact endBinary_endAlike (h.srcF rfl) (by simp [ha, hb])
  | bsqr d a | bsqrn d a k | bsqrt d a =>
    exact endBinary_endAlike (h.srcF rfl) (by simp [h.srcF rfl a (.head _)])
  | bred d a => exact endBinary_endAlike (by simp) (by simp [h.srcFF rfl a (.head _)])
  | binv d a =>
    have ha := h.srcF rfl a (.head _)
    refine commit_result_endAlike ?_ ?_ (by simp [ha])
    · rw [binaryChecks_withRegs (srcs := [a]) (h.srcF rfl), State.zeroCheck, ha, State.zeroCheck]
    · simp [State.binaryChecks, State.zeroCheck]
  | btrace a =>
    exact commit_endAlike (.test _) (binaryChecks_withRegs (h.srcF rfl)) (binaryChecks_ne_none s _) (fun _ => rfl) rfl
      (by simp [h.srcF rfl a (.head _)])
  | bhtrace d a =>
    have ha := h.srcF rfl a (.head _)
    refine commit_result_endAlike ?_ ?_ (by simp [ha])
    · rw [binaryChecks_withRegs (srcs := [a]) (h.srcF rfl), kind_withRegs, degree_withRegs]
    · simp [State.binaryChecks]
  | bmulx d a b =>
    have ha := h.srcF rfl a (.head _)
    have hb := h.srcF rfl b (.tail _ (.head _))
    exact commit_result_endAlike (binaryChecks_withRegs (h.srcF rfl)) (binaryChecks_ne_none s _) (by rw [ha, hb])

/-- Every command ends, in an effect it can have. -/
theorem exec_effect (i : Instr) (s : State) : ∃ e, Allows i s e ∧ exec i s = .next (e.apply s) := by
  obtain ⟨e, he, hs, -⟩ := exec_endAlike (readsAlike_self i s)
  exact ⟨e, he, hs⟩

/-- All that a command can do. -/
theorem exec_cases {i : Instr} {s t : State} (h : exec i s = .next t) : ∃ e, Allows i s e ∧ t = e.apply s := by
  obtain ⟨e, he, hs⟩ := exec_effect i s
  exact ⟨e, he, by simpa [hs] using h.symm⟩

/-! ## Who writes what -/

/-- Settles O17: only `resultCarry` and `reset` write CW, only `test`, `reset` and `rejectElement` write T. -/
theorem flagWriters : Obligations.FlagWriters := by
  unfold Obligations.FlagWriters
  intro i s t herr h
  obtain ⟨e, he, rfl⟩ := exec_cases h
  cases e with
  | reset =>
    obtain rfl : i = .sreset := he
    simp [writesCw, writesT]
  | resultCarry | test => simp_all
  | rejectElement w =>
    obtain ⟨-, a, ha⟩ := he
    refine ⟨by simp, fun _ => ⟨?_, .inr ⟨rfl, a, ha⟩⟩⟩
    obtain rfl | rfl := ha <;> rfl
  | _ => simp

/-- Settles O18, effect by effect. -/
theorem controlWriters : Obligations.ControlWriters := by
  unfold Obligations.ControlWriters
  intro i s t h
  obtain ⟨e, he, rfl⟩ := exec_cases h
  cases e with
  | installPrime p =>
    obtain ⟨a, ha, -, -⟩ := he
    simp [ha]
  | installBinary m k1 k2 k3 =>
    obtain ⟨⟨a, ha⟩, -⟩ := he
    simp [ha]
  | _ => simp_all

/-- The agreement O19 asks for is agreement on all that the command reads. -/
theorem readsAlike_of_wf {i : Instr} {s : State} {v : Vector (Vector Limb 36) 8} (hs : s.wf)
    (h : ∀ r ∈ sources i, ∀ j < readLen i s, (withRegs s v).limb r j = s.limb r j) : ReadsAlike i s v where
  limb := h
  top a ha := by
    obtain ⟨⟨hn, -⟩, -⟩ := hs
    subst ha
    exact h a (.head _) _ (Nat.sub_one_lt_of_le hn le_rfl)

/-- Settles O19: both states end in one effect, which looks at no register. -/
theorem unreadLimbsIgnored : Obligations.UnreadLimbsIgnored := by
  unfold Obligations.UnreadLimbsIgnored
  intro i s s' t t' hs hs' hreads ht ht'
  obtain ⟨v, rfl⟩ : ∃ v, s' = withRegs s v := ⟨s'.v, hs'⟩
  obtain ⟨e, -, he, he'⟩ := exec_endAlike (readsAlike_of_wf hs hreads)
  obtain rfl : t = e.apply s := by simpa [he] using ht.symm
  obtain rfl : t' = e.apply (withRegs s v) := by simpa [he'] using ht'.symm
  have happ := apply_withRegs s v e
  refine ⟨?_, ?_, ?_, limb_apply_withRegs s v e⟩
  · rw [happ]
    rfl
  · rw [happ]
    rfl
  · rw [happ]
    exact sameControl_withRegs _ _

/-! ## The invariant -/

/-- The installed descriptor is the same. -/
abbrev SameDescriptor (s t : State) : Prop :=
  t.kind = s.kind ∧ t.fn = s.fn ∧ t.p = s.p ∧ t.m = s.m ∧ t.k1 = s.k1 ∧ t.k2 = s.k2 ∧ t.k3 = s.k3

/-- The invariant speaks of the word count and the descriptor only (10_state.md R41). -/
theorem wf_of_sameDescriptor {s t : State} (hs : s.wf) (hn : 1 ≤ t.words ∧ t.words ≤ 18) (hd : SameDescriptor s t) :
    t.wf := by
  obtain ⟨hkind, hfn, hp, hm, hk1, hk2, hk3⟩ := hd
  have hfw : t.fieldWords = s.fieldWords := by rw [State.fieldWords, hfn, State.fieldWords]
  have hmod : t.modulus = s.modulus := by rw [State.modulus, hfw, hp, State.modulus]
  have hdeg : t.degree = s.degree := by rw [State.degree, hm, State.degree]
  unfold State.wf State.noDescriptor State.primeDescriptor State.binaryDescriptor at hs ⊢
  rw [hkind, hfn, hp, hm, hk1, hk2, hk3, hfw, hmod, hdeg]
  exact ⟨hn, hs.2⟩

/-- Settles O11: no descriptor is installed at reset, and `N` is 1. -/
theorem wfAtReset : Obligations.WfAtReset := by
  unfold Obligations.WfAtReset State.wf
  exact ⟨by decide, fun _ => ⟨rfl, rfl, rfl, rfl, rfl, rfl⟩, nofun, nofun⟩

theorem wf_resetArch (s : State) : s.resetArch.wf := by
  have h : State.reset.wf := wfAtReset
  exact wf_of_sameDescriptor h h.1 ⟨rfl, rfl, rfl, rfl, rfl, rfl, rfl⟩

/-- The modulus FSETP installs is the candidate's value. -/
theorem modulus_installPrime (s : State) (a : VIdx) (hn : s.words ≤ 18) : (s.installPrime a).modulus = s.srcN a := by
  have h := limbsVal_take_writeLow (Vector.replicate 18 0#32).toList s.words (s.srcN a) (by simpa using hn)
  rw [Nat.mod_eq_of_lt (show s.srcN a < _ from s.val_lt a s.words)] at h
  rw [State.modulus, State.installPrime_p, writeVec_toList]
  exact h

/-- The limbs FSETP installs: the candidate's below `N`, 0 from `N` on. -/
theorem p_installPrime (s : State) (a : VIdx) (j : Nat) (hj : j < 18) :
    (s.installPrime a).p.toList.getD j 0 = if j < s.words then s.limb a j else 0 := by
  rw [State.installPrime_p, writeVec_toList, getD_writeLow _ _ _ _ (by simpa using hj)]
  split
  · exact (s.limb_eq_ofNat_val a s.words j ‹_› (by omega)).symm
  · rw [Vector.toList_replicate]
    exact List.getD_replicate _ hj

/-- A descriptor that FSETP accepts is consistent (10_state.md R28, 41_prime_field.md R131). -/
theorem wf_installPrime {s : State} {a : VIdx} (hn : 1 ≤ s.words ∧ s.words ≤ 18) (hok : s.primeDescOk a = true) :
    (s.installPrime a).wf := by
  obtain ⟨hodd, hthree, htop⟩ := of_decide_eq_true hok
  have hmod := modulus_installPrime s a hn.2
  refine ⟨hn, nofun, fun _ => ⟨hn, ⟨rfl, rfl, rfl, rfl⟩, ?_, fun j hj => ?_, ?_, ?_⟩, nofun⟩
  · have hlimb := p_installPrime s a (s.words - 1) (by omega)
    rw [if_pos (by omega)] at hlimb
    exact fun h => htop (hlimb.symm.trans h)
  · have hlimb := p_installPrime s a j j.isLt
    rw [if_neg (show ¬j.val < s.words from Nat.not_lt.mpr hj)] at hlimb
    rwa [List.getD_eq_getElem _ _ (by rw [Vector.length_toList]; exact j.isLt), Vector.getElem_toList] at hlimb
  · rwa [hmod]
  · rwa [hmod]

/-- A descriptor that BSETF accepts is consistent (10_state.md R29, 42_binary_field.md R161). -/
theorem wf_installBinary {s : State} {m k1 k2 k3 : Nat} (hn : 1 ≤ s.words ∧ s.words ≤ 18)
    (hok : binaryDescOk m k1 k2 k3 = true) : (s.installBinary m k1 k2 k3).wf := by
  obtain ⟨hm, hk⟩ := of_decide_eq_true hok
  simp only [Config.minDegree, Config.maxDegree] at hm
  refine ⟨hn, nofun, nofun, fun _ => ⟨rfl, ?_, ?_, ?_⟩⟩
  · simp [State.degree]
    omega
  · simp [State.degree, State.fieldWords, wordsOfDegree]
    omega
  · rcases hk with ⟨rfl, rfl, h1, h1m⟩ | ⟨h1, h12, h23, h3m⟩
    · refine .inl ⟨rfl, rfl, ?_⟩
      simp [State.degree]
      omega
    · right
      simp [State.degree]
      omega

/-- A legal immediate of SETN is a word count (30_encoding.md R83). -/
theorem setn_wellFormed {n : BitVec 5} (h : (Instr.setn n).wellFormed = true) : 1 ≤ n.toNat ∧ n.toNat ≤ 18 :=
  of_decide_eq_true h

/-- Every legal command keeps the invariant. -/
theorem exec_wf {i : Instr} {s t : State} (hi : i.wellFormed = true) (hs : s.wf) (h : exec i s = .next t) : t.wf := by
  obtain ⟨e, he, rfl⟩ := exec_cases h
  have hn : 1 ≤ s.words ∧ s.words ≤ 18 := hs.1
  cases e with
  | setWords n =>
    obtain rfl : i = .setn n := he
    exact wf_of_sameDescriptor hs (setn_wellFormed hi) ⟨rfl, rfl, rfl, rfl, rfl, rfl, rfl⟩
  | clearErr => exact wf_of_sameDescriptor hs (by simpa [State.words] using hn) (by simp [SameDescriptor])
  | reset => exact wf_resetArch s
  | installPrime p =>
    obtain ⟨a, -, rfl, hok⟩ := he
    exact wf_installPrime hn hok
  | installBinary m k1 k2 k3 => exact wf_installBinary hn he.2
  | _ => exact wf_of_sameDescriptor hs hn ⟨rfl, rfl, rfl, rfl, rfl, rfl, rfl⟩

/-! A word that decodes has a legal immediate (30_encoding.md R83, R85), format by format. -/

section decode
variable {f : Fields} {j : Instr}

theorem decodeZ_wellFormed {i : Instr} (hi : i.wellFormed = true) (h : decodeZ f i = .ok j) : j.wellFormed = true := by
  obtain ⟨rfl, -⟩ := decodeZ_eq_ok h
  exact hi

theorem decodeS1_wellFormed {c : VIdx → Instr} (hc : ∀ a, (c a).wellFormed = true) (h : decodeS1 f c = .ok j) :
    j.wellFormed = true := by
  obtain ⟨a, rfl, -⟩ := decodeS1_eq_ok h
  exact hc a

theorem decodeS2_wellFormed {c : VIdx → VIdx → Instr} (hc : ∀ a b, (c a b).wellFormed = true)
    (h : decodeS2 f c = .ok j) : j.wellFormed = true := by
  obtain ⟨a, b, rfl, -⟩ := decodeS2_eq_ok h
  exact hc a b

theorem decodeD1_wellFormed {c : VIdx → VIdx → Instr} (hc : ∀ d a, (c d a).wellFormed = true)
    (h : decodeD1 f c = .ok j) : j.wellFormed = true := by
  obtain ⟨d, a, rfl, -⟩ := decodeD1_eq_ok h
  exact hc d a

theorem decodeD2_wellFormed {c : VIdx → VIdx → VIdx → Instr} (hc : ∀ d a b, (c d a b).wellFormed = true)
    (h : decodeD2 f c = .ok j) : j.wellFormed = true := by
  obtain ⟨d, a, b, rfl, -⟩ := decodeD2_eq_ok h
  exact hc d a b

theorem decodeDC_wellFormed {c : VIdx → VIdx → Bool → Instr} (hc : ∀ d a ci, (c d a ci).wellFormed = true)
    (h : decodeDC f c = .ok j) : j.wellFormed = true := by
  obtain ⟨d, a, ci, rfl, -⟩ := decodeDC_eq_ok h
  exact hc d a ci

theorem decodeI_wellFormed {c : BitVec 5 → Instr} (h : decodeI f c = .ok j) : j.wellFormed = true := by
  obtain ⟨n, -, hj, -⟩ := decodeI_eq_ok h
  exact hj

theorem decodeDS_wellFormed {c : VIdx → VIdx → Bool → BitVec 5 → Instr} (h : decodeDS f c = .ok j) :
    j.wellFormed = true := by
  obtain ⟨d, a, ci, k, -, hj, -⟩ := decodeDS_eq_ok h
  exact hj

theorem decodeDK_wellFormed {c : VIdx → VIdx → BitVec 12 → Instr} (h : decodeDK f c = .ok j) : j.wellFormed = true := by
  obtain ⟨d, a, k, -, hj, -⟩ := decodeDK_eq_ok h
  exact hj

theorem decodeFields_wellFormed (h : decodeFields f = .ok j) : j.wellFormed = true := by
  unfold decodeFields at h
  split at h
  case h_1 | h_3 | h_4 => exact decodeZ_wellFormed rfl h
  case h_2 => exact decodeI_wellFormed h
  case h_16 | h_17 | h_18 | h_19 | h_30 | h_31 | h_39 => exact decodeS1_wellFormed (fun _ => rfl) h
  case h_15 => exact decodeS2_wellFormed (fun _ _ => rfl) h
  case h_11 | h_12 => exact decodeDC_wellFormed (fun _ _ _ => rfl) h
  case h_13 | h_14 => exact decodeDS_wellFormed h
  case h_35 => exact decodeDK_wellFormed h
  case h_42 => cases h
  case h_5 | h_6 | h_9 | h_20 | h_21 | h_26 | h_32 | h_33 | h_41 => exact decodeD2_wellFormed (fun _ _ _ => rfl) h
  all_goals exact decodeD1_wellFormed (fun _ _ => rfl) h

theorem wellFormed_of_decode {w : Word} (h : decode w = .ok j) : j.wellFormed = true :=
  decodeFields_wellFormed h

end decode

/-- A word written to CMD keeps the invariant, whatever it is. -/
theorem issue_wf {w : Word} {s t : State} (hs : s.wf) (h : issue w s = .next t) : t.wf := by
  have hn : 1 ≤ s.words ∧ s.words ≤ 18 := hs.1
  rcases issue_cases h with ⟨-, rfl | ⟨-, rfl⟩ | ⟨-, -, rfl⟩⟩ | ⟨-, ⟨-, rfl⟩ | ⟨i, hi, hexec⟩⟩
  · exact hs
  · exact wf_resetArch s
  · exact exec_wf (i := .clrerr) rfl hs rfl
  · exact wf_of_sameDescriptor hs hn ⟨rfl, rfl, rfl, rfl, rfl, rfl, rfl⟩
  · exact exec_wf (wellFormed_of_decode hi) hs hexec

/-- Every host action keeps the invariant. -/
theorem perform_wf {a : HostAction} {s t : State} (hs : s.wf) (h : perform a s = .next t) : t.wf := by
  rcases perform_cases h with ⟨-, rfl⟩ | ⟨st, x, rfl⟩ | ⟨w, u, hu, rfl⟩ | ⟨x, rfl⟩ | ⟨i, j, x, rfl⟩
  · exact wf_resetArch s
  · exact hs
  · exact (issue_wf hs hu : u.wf)
  · exact hs
  · exact hs

/-- Settles O12: the first host action is performed on the state without it, which is as well formed. -/
theorem wfKeptByStep : Obligations.WfKeptByStep := by
  unfold Obligations.WfKeptByStep
  intro s t hs h
  rcases step_cases h with ⟨-, rfl⟩ | ⟨a, rest, -, ha⟩
  · exact hs
  · exact perform_wf (s := { s with inbox := rest }) hs ha

/-! ## The register map -/

section locate

/-- The modulus stands at 0x0100, a limb in every four bytes (10_state.md R32). -/
theorem locate_p (j : Fin 18) : locate (BitVec.ofNat 13 (0x0100 + 4 * j.val)) = .p j := by
  have hj := j.isLt
  have ha : (BitVec.ofNat 13 (0x0100 + 4 * j.val)).toNat = 0x0100 + 4 * j.val := by
    rw [BitVec.toNat_ofNat, Nat.mod_eq_of_lt (by omega)]
  have hp : 0x0100 ≤ 0x0100 + 4 * j.val ∧ (0x0100 + 4 * j.val - 0x0100) / 4 < 18 := by omega
  have hfix : ∀ c < 0x0100, 0x0100 + 4 * j.val ≠ c := by omega
  simp only [locate, ha, hfix, Nat.reduceLT, if_false, dif_pos hp, Loc.p.injEq, Fin.ext_iff]
  omega

/-- The limbs of `Vi` stand at 0x1000 + 0x100 i, one in every four bytes (10_state.md R32). -/
theorem locate_limbAddr (i : VIdx) (j : Fin 36) : locate (limbAddr i j.val) = .v i j := by
  have hi := i.isLt
  have hj := j.isLt
  have ha : (limbAddr i j.val).toNat = 0x1000 + 0x100 * i.val + 4 * j.val := by
    rw [limbAddr, BitVec.toNat_ofNat, Nat.mod_eq_of_lt (by omega)]
  have hp : ¬(0x0100 ≤ 0x1000 + 0x100 * i.val + 4 * j.val ∧ (0x1000 + 0x100 * i.val + 4 * j.val - 0x0100) / 4 < 18) := by
    omega
  have hv : 0x1000 ≤ 0x1000 + 0x100 * i.val + 4 * j.val ∧ (0x1000 + 0x100 * i.val + 4 * j.val - 0x1000) / 0x100 < 8 ∧
      (0x1000 + 0x100 * i.val + 4 * j.val) % 0x100 / 4 < 36 := by
    omega
  have hfix : ∀ c < 0x1000, 0x1000 + 0x100 * i.val + 4 * j.val ≠ c := by omega
  simp only [locate, ha, hfix, Nat.reduceLT, if_false, dif_neg hp, dif_pos hv, Loc.v.injEq, Fin.ext_iff]
  omega

theorem p_addr_aligned (j : Fin 18) : (BitVec.ofNat 13 (0x0100 + 4 * j.val)).toNat % 4 = 0 := by
  rw [BitVec.toNat_ofNat]
  omega

theorem limbAddr_aligned (i : VIdx) (j : Nat) : (limbAddr i j).toNat % 4 = 0 := by
  rw [limbAddr, BitVec.toNat_ofNat]
  omega

end locate

/-- Fields side by side, as a number. -/
theorem toNat_append_eq {n m : Nat} (x : BitVec n) (y : BitVec m) : (x ++ y).toNat = x.toNat * 2 ^ m + y.toNat := by
  rw [BitVec.toNat_append, ← Nat.shiftLeft_add_eq_or_of_lt y.isLt, Nat.shiftLeft_eq]

section words
variable (s : State)

theorem code_eq_four_iff {e : ErrCode} : e.code = 4 ↔ e = .invZero := by
  cases e <;> decide

/-- STATUS (10_state.md R31). -/
theorem statusWord_eq : s.statusWord = BitVec.ofNat 32
    (s.err.code.toNat + 8 * (if s.err.code = 4 then 1 else 0) + 16 * s.t.toNat + 32 * s.kind.code.toNat) := by
  have herr := s.err.code.isLt
  have hkind := s.kind.code.isLt
  have ht := s.t.toNat_lt
  apply BitVec.eq_of_toNat_eq
  rw [State.statusWord]
  simp only [toNat_append_eq, BitVec.toNat_ofNat, BitVec.toNat_ofBool, code_eq_four_iff]
  by_cases h : s.err = .invZero <;> simp [h] <;> omega

/-- CFG (10_state.md R35). -/
theorem cfgWord_eq : s.cfgWord = BitVec.ofNat 32 (s.n.toNat + 2 ^ 8 * s.fn.toNat) := by
  have hn := s.n.isLt
  have hfn := s.fn.isLt
  apply BitVec.eq_of_toNat_eq
  rw [State.cfgWord]
  simp only [toNat_append_eq, BitVec.toNat_ofNat]
  omega

/-- FDESC (10_state.md R36). -/
theorem fdescWord_eq : s.fdescWord = BitVec.ofNat 32 s.m.toNat := by
  have hm := s.m.isLt
  apply BitVec.eq_of_toNat_eq
  rw [State.fdescWord]
  simp only [toNat_append_eq, BitVec.toNat_ofNat]
  omega

/-- FPOLY (10_state.md R37). -/
theorem fpolyWord_eq :
    s.fpolyWord = BitVec.ofNat 32 (s.k1.toNat + 2 ^ 10 * s.k2.toNat + 2 ^ 20 * s.k3.toNat) := by
  have hk1 := s.k1.isLt
  have hk2 := s.k2.isLt
  have hk3 := s.k3.isLt
  apply BitVec.eq_of_toNat_eq
  rw [State.fpolyWord]
  simp only [toNat_append_eq, BitVec.toNat_ofNat]
  omega

theorem readLoc_v (i : VIdx) (j : Fin 36) : s.readLoc (.v i j) = some (s.limb i j.val) := by
  rw [State.readLoc, State.limb, List.getD_eq_getElem _ _ (by simp), Vector.getElem_toList]

/-- What a location reads as does not depend on what the host will do next. -/
theorem readLoc_inbox (rest : List HostAction) (l : Loc) : ({ s with inbox := rest } : State).readLoc l = s.readLoc l := by
  cases l <;> rfl

end words

/-! ## Steps that take one access -/

section access
variable {s : State} {addr : Addr} {x : Word} {rest : List HostAction}

/-- A legal read of a readable location answers its word and changes nothing else (20_memory.md R52). -/
theorem step_read {d : Word} (h : s.inbox = .access ⟨.read, addr, 4, d⟩ :: rest) (ha : addr.toNat % 4 = 0)
    (hx : s.readLoc (locate addr) = some x) :
    step s = .next { s with inbox := rest, outbox := s.outbox ++ [⟨.ok, some x⟩] } := by
  rw [← readLoc_inbox s rest] at hx
  rw [step_of_inbox_cons h]
  simp [perform, access, Request.legal, ha, portRead, hx, State.respond]

/-- A legal write acts on its location (20_memory.md R53). -/
theorem step_write (h : s.inbox = .access ⟨.write, addr, 4, x⟩ :: rest) (ha : addr.toNat % 4 = 0) :
    step s = portWrite addr x { s with inbox := rest } := by
  rw [step_of_inbox_cons h]
  simp [perform, access, Request.legal, ha]

/-- A word written to CMD is issued and answered OK (60_exceptions.md R224). -/
theorem step_writeCmd (h : s.inbox = .access ⟨.write, 0x0004, 4, x⟩ :: rest) :
    step s = onNext (State.respond · .ok none) (issue x { s with inbox := rest }) :=
  step_write h rfl

theorem step_writeCw (h : s.inbox = .access ⟨.write, 0x000C, 4, x⟩ :: rest) :
    step s = .next { s with cw := x, inbox := rest, outbox := s.outbox ++ [⟨.ok, none⟩] } :=
  step_write h rfl

theorem step_writeLimb {i : VIdx} {j : Fin 36} (h : s.inbox = .access ⟨.write, limbAddr i j.val, 4, x⟩ :: rest) :
    step s = .next ((({ s with inbox := rest } : State).writeLimb i j x).respond .ok none) := by
  rw [step_write h (limbAddr_aligned i j.val), portWrite, locate_limbAddr]

end access

/-- One limb after a host write of a limb (10_state.md R39). -/
theorem limb_writeLimb (s : State) (i r : VIdx) (j : Fin 36) (x : Limb) (k : Nat) :
    (s.writeLimb i j x).limb r k = if r = i ∧ k = j.val then x else s.limb r k := by
  by_cases hr : r = i
  · subst hr
    by_cases hk : k = j.val
    · subst hk
      simp [State.limb]
    · have hne : j.val ≠ k := fun h => hk h.symm
      simp [State.limb, hk, hne]
  · have hne : i.val ≠ r.val := fun h => hr (Fin.ext h.symm)
    simp [State.limb, hr, Vector.getElem_set_ne _ _ hne]

/-- Settles O21: each address is located, and its location read. -/
theorem readRegisterMap : Obligations.ReadRegisterMap := by
  unfold Obligations.ReadRegisterMap
  rintro s addr d x rest h (⟨rfl, rfl⟩ | ⟨rfl, rfl⟩ | ⟨rfl, rfl⟩ | ⟨rfl, rfl⟩ | ⟨rfl, rfl⟩ | ⟨rfl, rfl⟩ | ⟨rfl, rfl⟩ |
    ⟨rfl, rfl⟩ | ⟨j, rfl, rfl⟩ | ⟨i, j, rfl, rfl⟩)
  · exact step_read h rfl rfl
  · exact step_read h rfl rfl
  · exact step_read h rfl (congrArg some (statusWord_eq s))
  · exact step_read h rfl rfl
  · exact step_read h rfl (congrArg some (cfgWord_eq s))
  · exact step_read h rfl (congrArg some (fdescWord_eq s))
  · exact step_read h rfl (congrArg some (fpolyWord_eq s))
  · exact step_read h rfl rfl
  · exact step_read h (p_addr_aligned j) (by rw [locate_p, State.readLoc])
  · exact step_read h (limbAddr_aligned i j.val) (by rw [← limbAddr, locate_limbAddr, readLoc_v])

/-- Settles O22: the frame of the limb's write, and the port's answer. -/
theorem writeRegisterMap : Obligations.WriteRegisterMap := by
  unfold Obligations.WriteRegisterMap
  refine fun s x rest => ⟨step_writeCw, fun i j h => ⟨_, step_writeLimb h, ?_, fun r k => ?_, rfl⟩⟩
  · exact (limb_writeLimb ..).trans (if_pos ⟨rfl, rfl⟩)
  · by_cases hrk : r = i ∧ k = j.val
    · exact .inl hrk
    · exact .inr ((limb_writeLimb ..).trans (if_neg hrk))

/-- Settles O6: the step issues the word, and the word is a legal command. -/
theorem stepRunsDecodedCommand : Obligations.StepRunsDecodedCommand := by
  unfold Obligations.StepRunsDecodedCommand
  intro s w i rest h herr hw
  rw [step_writeCmd h, issue_of_decode_ok (show ({ s with inbox := rest } : State).err = .none from herr) hw]
  cases exec i { s with inbox := rest } <;> rfl

/-! ## Reset and irq -/

theorem limb_reset (r : VIdx) (j : Nat) : State.reset.limb r j = 0 := by
  rcases Nat.lt_or_ge j 36 with hj | hj
  · rw [State.limb, State.reset, Vector.getElem_replicate, Vector.toList_replicate]
    exact List.getD_replicate _ hj
  · exact State.limb_of_ge _ _ _ hj

theorem p_reset (j : Fin 18) : State.reset.p[j.val] = 0 := by
  simp [State.reset]

/-- Settles O10: every field and every readable word of the reset state. -/
theorem pinResets : Obligations.PinResets := by
  unfold Obligations.PinResets
  refine ⟨fun s rest h => ?_, fun s => rfl, ⟨limb_reset, rfl, rfl, rfl, rfl, rfl, p_reset, ?_⟩, ?_⟩
  · rw [step_of_inbox_cons h]
    rfl
  · exact ⟨rfl, rfl, rfl, rfl, rfl, rfl⟩
  · refine ⟨rfl, rfl, rfl, rfl, rfl, rfl, rfl, fun j => ?_, fun i j => ?_, rfl⟩
    · rw [locate_p, State.readLoc, p_reset]
    · rw [locate_limbAddr, readLoc_v, limb_reset]

/-- Settles O20: no other error has the code 0. -/
theorem irqFollowsErr : Obligations.IrqFollowsErr := by
  unfold Obligations.IrqFollowsErr
  intro s
  rw [State.irq, decide_eq_true_iff]
  cases s.err <;> decide

end Sys2Proof.Proofs
end

section
/-!
PROOF. Accesses the port refuses (20_memory.md R54, R56).

An illegal request never reaches the register map. A legal write is refused by every location but CMD, CW and the limbs
of the vector registers, and a legal read by an unmapped one; so what is left is where `locate` puts each address.
-/

open Sys2Proof Sys2Proof.Machine

namespace Sys2Proof.Proofs

/-! ## Locations that take no write -/

/-- The locations a host write acts on (20_memory.md R53); `portWrite_of_not_writable` says the others refuse it. -/
def writable : Loc → Bool
  | .cmd | .cw | .v _ _ => true
  | .id | .status | .cfg | .fdesc | .fpoly | .ecmd | .p _ | .unmapped => false

theorem portWrite_of_not_writable {addr : Addr} (x : Word) (s : State) (h : writable (locate addr) = false) :
    portWrite addr x s = .next (s.respond .error none) := by
  unfold portWrite
  cases hl : locate addr with
  | cmd | cw | v => simp [hl, writable] at h
  | id | status | cfg | fdesc | fpoly | ecmd | p | unmapped => rfl

/-! ## Where the addresses lie -/

/-- An aligned address in the window of the modulus is the address of one of its limbs (10_state.md R32). -/
theorem exists_locate_eq_p {addr : Addr} (ha : addr.toNat % 4 = 0) (h : 0x0100 ≤ addr.toNat ∧ addr.toNat ≤ 0x0144) :
    ∃ j, locate addr = .p j := by
  have hj : (addr.toNat - 0x0100) / 4 < 18 := by omega
  have haddr : addr = BitVec.ofNat 13 (0x0100 + 4 * ((addr.toNat - 0x0100) / 4)) := by
    apply BitVec.eq_of_toNat_eq
    rw [BitVec.toNat_ofNat]
    omega
  exact ⟨⟨_, hj⟩, (congrArg locate haddr).trans (locate_p ⟨_, hj⟩)⟩

/-- The four gaps of the register map: after ECMD, after the modulus, after the 36 limbs of each vector register, and
above the last vector register (10_state.md R32). -/
theorem locate_eq_unmapped {addr : Addr}
    (h : 0x0020 ≤ addr.toNat ∧ addr.toNat ≤ 0x00FC ∨ 0x0148 ≤ addr.toNat ∧ addr.toNat ≤ 0x0FFC ∨
      0x1000 ≤ addr.toNat ∧ addr.toNat ≤ 0x17FC ∧ 0x90 ≤ addr.toNat % 0x100 ∨ 0x1800 ≤ addr.toNat) :
    locate addr = .unmapped := by
  have hfix : ∀ c < 0x0020, addr.toNat ≠ c := by omega
  have hp : ¬(0x0100 ≤ addr.toNat ∧ (addr.toNat - 0x0100) / 4 < 18) := by omega
  have hv : ¬(0x1000 ≤ addr.toNat ∧ (addr.toNat - 0x1000) / 0x100 < 8 ∧ addr.toNat % 0x100 / 4 < 36) := by omega
  simp only [locate, hfix, Nat.reduceLT, if_false, dif_neg hp, dif_neg hv]

/-! ## Steps that take a refused access -/

section refused
variable {s : State} {addr : Addr} {x : Word} {rest : List HostAction}

/-- An access of another width, or at an address that is no multiple of 4 (20_memory.md R54). -/
theorem step_illegal {r : Request} (h : s.inbox = .access r :: rest) (hr : r.size ≠ 4 ∨ r.addr.toNat % 4 ≠ 0) :
    step s = .next { s with
      inbox := rest, outbox := s.outbox ++ [⟨.error, if r.kind = .read then some 0 else none⟩] } := by
  have hlegal : r.legal = false := decide_eq_false (by omega)
  rw [step_of_inbox_cons h]
  cases hk : r.kind <;> simp [perform, access, hlegal, portReject, hk, State.respond]

/-- A legal read of a location that reads as nothing (20_memory.md R56). -/
theorem step_read_error (h : s.inbox = .access ⟨.read, addr, 4, x⟩ :: rest) (ha : addr.toNat % 4 = 0)
    (hl : s.readLoc (locate addr) = none) :
    step s = .next { s with inbox := rest, outbox := s.outbox ++ [⟨.error, some 0⟩] } := by
  rw [← readLoc_inbox s rest] at hl
  rw [step_of_inbox_cons h]
  simp [perform, access, Request.legal, ha, portRead, hl, State.respond]

/-- A legal write of a location that takes none (20_memory.md R56). -/
theorem step_write_error (h : s.inbox = .access ⟨.write, addr, 4, x⟩ :: rest) (ha : addr.toNat % 4 = 0)
    (hl : writable (locate addr) = false) :
    step s = .next { s with inbox := rest, outbox := s.outbox ++ [⟨.error, none⟩] } :=
  (step_write h ha).trans (portWrite_of_not_writable x _ hl)

end refused

/-- Settles O23: an illegal request is refused as it stands, a legal one by the location of its address. -/
theorem portErrors : Obligations.PortErrors := by
  unfold Obligations.PortErrors
  refine ⟨fun s r rest => step_illegal, fun s addr x rest ha => ⟨fun hgap => ?_, fun hro h => ?_, fun hcmd h => ?_⟩⟩
  · have hl := locate_eq_unmapped hgap
    exact ⟨fun h => step_read_error h ha (by rw [hl, State.readLoc]),
      fun h => step_write_error h ha (by rw [hl, writable])⟩
  · refine step_write_error h ha ?_
    rcases hro with rfl | rfl | rfl | rfl | rfl | rfl | hp
    iterate 6 · rfl
    · obtain ⟨j, hj⟩ := exists_locate_eq_p ha hp
      rw [hj, writable]
  · subst hcmd
    exact step_read h ha rfl

end Sys2Proof.Proofs
end

section
/-!
PROOF. The encoding round trips (30_encoding.md R85, R86, R95): each format's decoder reads back the fields its
commands are encoded in, and no other fields, so that `encode` and `decode` are inverse to each other on legal commands.
The assembler reads a command back from its line in the same way.
-/

open Sys2Proof Sys2Proof.Machine

namespace Sys2Proof.Proofs

/-! ## What each format's decoder makes of the fields of its commands (R82) -/

section formats
variable (op : BitVec 8) (d a b : VIdx)

theorem decodeZ_fields (i : Instr) : decodeZ ⟨op, 0, 0, 0, 0⟩ i = .ok i := by
  simp [decodeZ]

theorem decodeS1_fields (c : VIdx → Instr) : decodeS1 ⟨op, 0, regField a, 0, 0⟩ c = .ok (c a) := by
  simp [decodeS1]

theorem decodeS2_fields (c : VIdx → VIdx → Instr) : decodeS2 ⟨op, 0, regField a, regField b, 0⟩ c = .ok (c a b) := by
  simp [decodeS2]

theorem decodeD1_fields (c : VIdx → VIdx → Instr) : decodeD1 ⟨op, regField d, regField a, 0, 0⟩ c = .ok (c d a) := by
  simp [decodeD1]

theorem decodeD2_fields (c : VIdx → VIdx → VIdx → Instr) :
    decodeD2 ⟨op, regField d, regField a, regField b, 0⟩ c = .ok (c d a b) := by
  simp [decodeD2]

theorem parts_of_imm_I (n : BitVec 5) : (0#7 ++ n).extractLsb' 5 7 = 0 ∧ (0#7 ++ n).extractLsb' 0 5 = n := by
  revert n
  decide

theorem parts_of_imm_DS (ci : Bool) (k : BitVec 5) :
    (0#6 ++ BitVec.ofBool ci ++ k).extractLsb' 6 6 = 0 ∧ (0#6 ++ BitVec.ofBool ci ++ k).getLsbD 5 = ci ∧
      (0#6 ++ BitVec.ofBool ci ++ k).extractLsb' 0 5 = k := by
  revert ci k
  decide

theorem decodeI_fields (c : BitVec 5 → Instr) (n : BitVec 5) : decodeI ⟨op, 0, 0, 0, 0#7 ++ n⟩ c = checked (c n) := by
  obtain ⟨hzero, hn⟩ := parts_of_imm_I n
  simp only [decodeI, hzero, hn, and_self, if_true]

theorem decodeDC_fields (c : VIdx → VIdx → Bool → Instr) (ci : Bool) :
    decodeDC ⟨op, regField d, regField a, 0, 0#6 ++ BitVec.ofBool ci ++ 0#5⟩ c = .ok (c d a ci) := by
  obtain ⟨hzero, hci, hk⟩ := parts_of_imm_DS ci 0#5
  simp only [decodeDC, hzero, hci, hk, regOf_regField, BitVec.ofNat_eq_ofNat, and_self, if_true]

theorem decodeDS_fields (c : VIdx → VIdx → Bool → BitVec 5 → Instr) (ci : Bool) (k : BitVec 5) :
    decodeDS ⟨op, regField d, regField a, 0, 0#6 ++ BitVec.ofBool ci ++ k⟩ c = checked (c d a ci k) := by
  obtain ⟨hzero, hci, hk⟩ := parts_of_imm_DS ci k
  simp only [decodeDS, hzero, hci, hk, regOf_regField, and_self, if_true]

theorem decodeDK_fields (c : VIdx → VIdx → BitVec 12 → Instr) (k : BitVec 12) :
    decodeDK ⟨op, regField d, regField a, 0, k⟩ c = checked (c d a k) := by
  simp [decodeDK]

end formats

/-! ## The round trips -/

/-- Settles O1: a command's fields are those its format's decoder reads, and its immediate passes the check. -/
theorem decodeOfEncode : Obligations.DecodeOfEncode := by
  unfold Obligations.DecodeOfEncode
  intro i hi
  rw [decode_encode_fields]
  cases i with
  | nop | clrerr | sreset => exact decodeZ_fields ..
  | setn n => exact (decodeI_fields ..).trans (checked_of_wellFormed hi)
  | iszero a | isone a | fsetp a | fchk a | bsetf a | bchk a | btrace a => exact decodeS1_fields ..
  | gte a b => exact decodeS2_fields ..
  | inc d a | dec d a | sqr d a | fadd1 d a | fneg d a | fhalf d a | ftwice d a | fsqr d a | fred d a | finv d a
  | bsqr d a | bsqrt d a | bred d a | binv d a | bhtrace d a => exact decodeD1_fields ..
  | add d a b | sub d a b | mul d a b | fadd d a b | fsub d a b | fmul d a b | badd d a b | bmul d a b
  | bmulx d a b => exact decodeD2_fields ..
  | shl1 d a ci | shr1 d a ci => exact decodeDC_fields ..
  | shln d a ci k | shrn d a ci k => exact (decodeDS_fields ..).trans (checked_of_wellFormed hi)
  | bsqrn d a k => exact (decodeDK_fields ..).trans (checked_of_wellFormed hi)

/-- Fields that decode are the fields of their command: each format's decoder accepts no others. -/
theorem encodeFields_of_decodeFields {f : Fields} {i : Instr} (h : decodeFields f = .ok i) : encodeFields i = f := by
  unfold decodeFields at h
  split at h
  case h_1 hop | h_3 hop | h_4 hop =>
    obtain ⟨rfl, hf⟩ := decodeZ_eq_ok h
    exact (hop ▸ hf).symm
  case h_2 hop =>
    obtain ⟨n, rfl, -, hf⟩ := decodeI_eq_ok h
    exact (hop ▸ hf).symm
  case h_16 hop | h_17 hop | h_18 hop | h_19 hop | h_30 hop | h_31 hop | h_39 hop =>
    obtain ⟨a, rfl, hf⟩ := decodeS1_eq_ok h
    exact (hop ▸ hf).symm
  case h_15 hop =>
    obtain ⟨a, b, rfl, hf⟩ := decodeS2_eq_ok h
    exact (hop ▸ hf).symm
  case h_11 hop | h_12 hop =>
    obtain ⟨d, a, ci, rfl, hf⟩ := decodeDC_eq_ok h
    exact (hop ▸ hf).symm
  case h_13 hop | h_14 hop =>
    obtain ⟨d, a, ci, k, rfl, -, hf⟩ := decodeDS_eq_ok h
    exact (hop ▸ hf).symm
  case h_35 hop =>
    obtain ⟨d, a, k, rfl, -, hf⟩ := decodeDK_eq_ok h
    exact (hop ▸ hf).symm
  case h_42 => cases h
  case h_5 hop | h_6 hop | h_9 hop | h_20 hop | h_21 hop | h_26 hop | h_32 hop | h_33 hop | h_41 hop =>
    obtain ⟨d, a, b, rfl, hf⟩ := decodeD2_eq_ok h
    exact (hop ▸ hf).symm
  all_goals
    rename_i hop
    obtain ⟨d, a, rfl, hf⟩ := decodeD1_eq_ok h
    exact (hop ▸ hf).symm

/-- Settles O2: words with the same fields are the same word. -/
theorem encodeOfDecode : Obligations.EncodeOfDecode := by
  unfold Obligations.EncodeOfDecode
  exact fun w i h => ⟨encode_eq_iff.mpr (encodeFields_of_decodeFields h), wellFormed_of_decode h⟩

/-- Settles O4, by decoding each word. -/
theorem knownWordsDecode : Obligations.KnownWordsDecode := by
  unfold Obligations.KnownWordsDecode
  exact ⟨rfl, rfl, rfl, rfl, rfl, rfl, rfl⟩

/-- The assembler reads every command back, legal or not; an immediate fits its field and survives the way through a
number. -/
theorem assembleRaw_of_line (i : Instr) : assembleRaw (mnemonic i) (asmCarry i) (asmOperands i) = some i := by
  cases i with
  | setn n => exact (if_pos n.isLt).trans (by rw [BitVec.ofNat_toNat, BitVec.setWidth_eq])
  | shln d a ci k | shrn d a ci k =>
    exact (if_pos k.isLt).trans (by rw [BitVec.ofNat_toNat, BitVec.setWidth_eq, asmCarry])
  | bsqrn d a k => exact (if_pos k.isLt).trans (by rw [BitVec.ofNat_toNat, BitVec.setWidth_eq])
  | _ => rfl

/-- Settles O5: the assembler's check of the immediate passes a legal command. -/
theorem assembleOfDisassemble : Obligations.AssembleOfDisassemble := by
  unfold Obligations.AssembleOfDisassemble
  intro i hi
  rw [assemble, disassemble, assembleRaw_of_line, Option.filter_some, if_pos hi]

end Sys2Proof.Proofs
end

section
/-!
PROOF. The opcode table of spec/opcode_table.json (30_encoding.md R84 to R86). A row's mask covers the opcode and, of
each other field, the bits that are zero in every value the format lets the field take. So the words that fit the row
are the words of the commands of one mnemonic, which the round trips turn into a statement about the decoder.
-/

open Sys2Proof Sys2Proof.Machine

namespace Sys2Proof.Proofs

/-! ## Masks, field by field -/

theorem fieldsOf_and (w m : Word) : fieldsOf (w &&& m) =
    ⟨(fieldsOf w).op &&& (fieldsOf m).op, (fieldsOf w).rd &&& (fieldsOf m).rd, (fieldsOf w).rs1 &&& (fieldsOf m).rs1,
      (fieldsOf w).rs2 &&& (fieldsOf m).rs2, (fieldsOf w).imm &&& (fieldsOf m).imm⟩ := by
  simp only [fieldsOf, BitVec.extractLsb'_and]

theorem eq_wordOf_iff {w : Word} {f : Fields} : w = wordOf f ↔ fieldsOf w = f :=
  ⟨fun h => h ▸ fieldsOf_wordOf f, fun h => h ▸ (wordOf_fieldsOf w).symm⟩

@[simp] theorem fieldsOf_encode (i : Instr) : fieldsOf (encode i) = encodeFields i :=
  fieldsOf_wordOf _

/-- The values of a field with no bit under the mask are the values `f` takes. -/
def Covers {n : Nat} {α : Type} (mask : BitVec n) (f : α → BitVec n) : Prop :=
  ∀ x, x &&& mask = 0 ↔ ∃ a, f a = x

/-- A field the format says must be zero (R82). -/
def zeroField (n : Nat) (_ : Unit) : BitVec n := 0

/-- The immediate of format I (R82). -/
def countField (n : BitVec 5) : BitVec 12 := 0#7 ++ n

/-- The immediate of format DC (R82). -/
def carryField (ci : Bool) : BitVec 12 := 0#6 ++ BitVec.ofBool ci ++ 0#5

/-- The immediate of format DS (R82). -/
def shiftField (x : Bool × BitVec 5) : BitVec 12 := 0#6 ++ BitVec.ofBool x.1 ++ x.2

theorem covers_regField : Covers 8 regField := by
  unfold Covers
  decide

theorem covers_zeroField (n : Nat) : Covers (BitVec.allOnes n) (zeroField n) := by
  intro x
  rw [BitVec.and_allOnes]
  exact ⟨fun h => ⟨(), h.symm⟩, fun ⟨_, h⟩ => h.symm⟩

theorem covers_id (n : Nat) : Covers 0 (id : BitVec n → BitVec n) := by
  intro x
  simp

theorem extractLsb'_eq_zero_of_and_eq_zero {n start len : Nat} {x m : BitVec n} (h : x &&& m = 0)
    (hm : m.extractLsb' start len = BitVec.allOnes len) : x.extractLsb' start len = 0 := by
  rw [← BitVec.and_allOnes (x := x.extractLsb' start len), ← hm, ← BitVec.extractLsb'_and, h]
  exact BitVec.extractLsb'_zero

theorem covers_countField : Covers 0xFE0 countField := by
  refine fun x => ⟨fun h => ⟨_, (imm_of_format_I (extractLsb'_eq_zero_of_and_eq_zero h rfl)).symm⟩, ?_⟩
  rintro ⟨n, rfl⟩
  revert n
  decide

theorem covers_shiftField : Covers 0xFC0 shiftField := by
  refine fun x => ⟨fun h => ⟨(_, _), (imm_of_format_DS (extractLsb'_eq_zero_of_and_eq_zero h rfl)).symm⟩, ?_⟩
  rintro ⟨⟨ci, k⟩, rfl⟩
  revert ci k
  decide

theorem covers_carryField : Covers 0xFDF carryField := by
  refine fun x => ⟨fun h => ?_, ?_⟩
  · have hk : x.extractLsb' 0 5 = 0#5 := extractLsb'_eq_zero_of_and_eq_zero h rfl
    exact ⟨_, hk ▸ (imm_of_format_DS (extractLsb'_eq_zero_of_and_eq_zero h rfl)).symm⟩
  · rintro ⟨ci, rfl⟩
    revert ci
    decide

/-! ## Rows and the commands they stand for -/

section row
variable {A B C D : Type} {r : OpcodeRow} {i : A → B → C → D → Instr} {w : Word}

/-- The words that fit row `r` are the words of the legal commands `i a b c d`, whose operands stand in the fields RD,
RS1, RS2 and IMM (R81, R85). -/
structure RowFor (r : OpcodeRow) (i : A → B → C → D → Instr) : Prop where
  mnemonic_eq : ∀ a b c d, mnemonic (i a b c d) = r.name
  accepts_iff : ∀ w, r.accepts w = true ↔ ∃ a b c d, (i a b c d).wellFormed = true ∧ encode (i a b c d) = w

/-- A row is for the commands whose fields its mask leaves free, if its constraint is their legality. -/
theorem rowFor_of_covers {name : String} {bits mask : Word} {legal : Word → Bool} {op : BitVec 8}
    {rd : A → BitVec 4} {rs1 : B → BitVec 4} {rs2 : C → BitVec 4} {imm : D → BitVec 12}
    (hrd : Covers (fieldsOf mask).rd rd) (hrs1 : Covers (fieldsOf mask).rs1 rs1)
    (hrs2 : Covers (fieldsOf mask).rs2 rs2) (himm : Covers (fieldsOf mask).imm imm)
    (hop : (fieldsOf mask).op = BitVec.allOnes 8) (hbits : bits = wordOf ⟨op, 0, 0, 0, 0⟩)
    (hi : ∀ a b c d, mnemonic (i a b c d) = name ∧ (i a b c d).wellFormed = legal (encode (i a b c d)) ∧
      encodeFields (i a b c d) = ⟨op, rd a, rs1 b, rs2 c, imm d⟩) :
    RowFor ⟨name, bits, mask, legal⟩ i := by
  refine ⟨fun a b c d => (hi a b c d).1, fun w => ?_⟩
  rw [OpcodeRow.accepts, Bool.and_eq_true, decide_eq_true_iff, hbits, eq_wordOf_iff, fieldsOf_and, Fields.mk.injEq,
    hop, BitVec.and_allOnes, hrd, hrs1, hrs2, himm]
  constructor
  · rintro ⟨⟨rfl, ⟨a, ha⟩, ⟨b, hb⟩, ⟨c, hc⟩, ⟨d, hd⟩⟩, hlegal⟩
    obtain ⟨-, hwf, hfields⟩ := hi a b c d
    have hw : encode (i a b c d) = w := encode_eq_iff.mpr (by rw [hfields, ha, hb, hc, hd])
    exact ⟨a, b, c, d, hwf.trans (hw.symm ▸ hlegal), hw⟩
  · rintro ⟨a, b, c, d, hwf, rfl⟩
    obtain ⟨-, hlegal, hfields⟩ := hi a b c d
    rw [fieldsOf_encode, hfields]
    exact ⟨⟨rfl, ⟨a, rfl⟩, ⟨b, rfl⟩, ⟨c, rfl⟩, ⟨d, rfl⟩⟩, hlegal.symm.trans hwf⟩

/-- A word that fits a row decodes to a command of the row. -/
theorem RowFor.decodes (h : RowFor r i) (hw : r.accepts w = true) :
    ∃ j, decode w = .ok j ∧ mnemonic j = r.name := by
  obtain ⟨a, b, c, d, hi, rfl⟩ := (h.accepts_iff w).mp hw
  exact ⟨_, decodeOfEncode _ hi, h.mnemonic_eq a b c d⟩

/-- The word of a legal command of a row fits the row. -/
theorem RowFor.accepts_encode (h : RowFor r i) (a : A) (b : B) (c : C) (d : D) (hi : (i a b c d).wellFormed = true) :
    r.accepts (encode (i a b c d)) = true :=
  (h.accepts_iff _).mpr ⟨a, b, c, d, hi, rfl⟩

end row

/-! ## The rows of each format (R82, R84) -/

section formats
variable {name : String} {bits : Word} {op : BitVec 8}

theorem rowFor_Z (i : Instr)
    (hi : mnemonic i = name ∧ i.wellFormed = true ∧ encodeFields i = ⟨op, 0, 0, 0, 0⟩ := by exact ⟨rfl, rfl, rfl⟩)
    (hbits : bits = wordOf ⟨op, 0, 0, 0, 0⟩ := by rfl) :
    RowFor ⟨name, bits, 0xFFFFFFFF, fun _ => true⟩ fun (_ _ _ _ : Unit) => i :=
  rowFor_of_covers (covers_zeroField 4) (covers_zeroField 4) (covers_zeroField 4) (covers_zeroField 12) rfl hbits
    fun _ _ _ _ => hi

theorem rowFor_S1 (c : VIdx → Instr)
    (hc : ∀ a, mnemonic (c a) = name ∧ (c a).wellFormed = true ∧ encodeFields (c a) = ⟨op, 0, regField a, 0, 0⟩ := by
      exact fun _ => ⟨rfl, rfl, rfl⟩)
    (hbits : bits = wordOf ⟨op, 0, 0, 0, 0⟩ := by rfl) :
    RowFor ⟨name, bits, 0xFFF8FFFF, fun _ => true⟩ fun (_ : Unit) a (_ _ : Unit) => c a :=
  rowFor_of_covers (covers_zeroField 4) covers_regField (covers_zeroField 4) (covers_zeroField 12) rfl hbits
    fun _ a _ _ => hc a

theorem rowFor_S2 (c : VIdx → VIdx → Instr)
    (hc : ∀ a b, mnemonic (c a b) = name ∧ (c a b).wellFormed = true ∧
      encodeFields (c a b) = ⟨op, 0, regField a, regField b, 0⟩ := by exact fun _ _ => ⟨rfl, rfl, rfl⟩)
    (hbits : bits = wordOf ⟨op, 0, 0, 0, 0⟩ := by rfl) :
    RowFor ⟨name, bits, 0xFFF88FFF, fun _ => true⟩ fun (_ : Unit) a b (_ : Unit) => c a b :=
  rowFor_of_covers (covers_zeroField 4) covers_regField covers_regField (covers_zeroField 12) rfl hbits
    fun _ a b _ => hc a b

theorem rowFor_D1 (c : VIdx → VIdx → Instr)
    (hc : ∀ d a, mnemonic (c d a) = name ∧ (c d a).wellFormed = true ∧
      encodeFields (c d a) = ⟨op, regField d, regField a, 0, 0⟩ := by exact fun _ _ => ⟨rfl, rfl, rfl⟩)
    (hbits : bits = wordOf ⟨op, 0, 0, 0, 0⟩ := by rfl) :
    RowFor ⟨name, bits, 0xFF88FFFF, fun _ => true⟩ fun d a (_ _ : Unit) => c d a :=
  rowFor_of_covers covers_regField covers_regField (covers_zeroField 4) (covers_zeroField 12) rfl hbits
    fun d a _ _ => hc d a

theorem rowFor_D2 (c : VIdx → VIdx → VIdx → Instr)
    (hc : ∀ d a b, mnemonic (c d a b) = name ∧ (c d a b).wellFormed = true ∧
      encodeFields (c d a b) = ⟨op, regField d, regField a, regField b, 0⟩ := by exact fun _ _ _ => ⟨rfl, rfl, rfl⟩)
    (hbits : bits = wordOf ⟨op, 0, 0, 0, 0⟩ := by rfl) :
    RowFor ⟨name, bits, 0xFF888FFF, fun _ => true⟩ fun d a b (_ : Unit) => c d a b :=
  rowFor_of_covers covers_regField covers_regField covers_regField (covers_zeroField 12) rfl hbits
    fun d a b _ => hc d a b

theorem rowFor_DC (c : VIdx → VIdx → Bool → Instr)
    (hc : ∀ d a ci, mnemonic (c d a ci) = name ∧ (c d a ci).wellFormed = true ∧
      encodeFields (c d a ci) = ⟨op, regField d, regField a, 0, carryField ci⟩ := by
        exact fun _ _ _ => ⟨rfl, rfl, rfl⟩)
    (hbits : bits = wordOf ⟨op, 0, 0, 0, 0⟩ := by rfl) :
    RowFor ⟨name, bits, 0xFF88FFDF, fun _ => true⟩ fun d a (_ : Unit) ci => c d a ci :=
  rowFor_of_covers covers_regField covers_regField (covers_zeroField 4) covers_carryField rfl hbits
    fun d a _ ci => hc d a ci

/-! The constraints of the other three formats read the immediate off the word (R83). -/

theorem toNat_append_mod {n m : Nat} (x : BitVec n) (y : BitVec m) : (x ++ y).toNat % 2 ^ m = y.toNat := by
  rw [toNat_append_eq, Nat.mul_add_mod_self_right, Nat.mod_eq_of_lt y.isLt]

theorem toNat_encode_mod_4096 (i : Instr) : (encode i).toNat % 4096 = (encodeFields i).imm.toNat :=
  toNat_append_mod _ _

theorem toNat_encode_mod_32 {i : Instr} {x : BitVec 7} {y : BitVec 5} (h : (encodeFields i).imm = x ++ y) :
    (encode i).toNat % 32 = y.toNat := by
  rw [← Nat.mod_mod_of_dvd _ (by decide : 32 ∣ 4096), toNat_encode_mod_4096, h]
  exact toNat_append_mod x y

theorem rowFor_setn : RowFor ⟨"SETN", 0x01000000, 0xFFFFFFE0, fun w => decide (1 ≤ w.toNat % 32 ∧ w.toNat % 32 ≤ 18)⟩
    fun (_ _ _ : Unit) n => .setn n :=
  rowFor_of_covers (covers_zeroField 4) (covers_zeroField 4) (covers_zeroField 4) covers_countField rfl rfl
    fun _ _ _ n => ⟨rfl, by rw [toNat_encode_mod_32 (y := n) rfl, Instr.wellFormed], rfl⟩

theorem rowFor_DS (c : VIdx → VIdx → Bool → BitVec 5 → Instr)
    (hc : ∀ d a ci k, mnemonic (c d a ci k) = name ∧ (c d a ci k).wellFormed = decide (1 ≤ k.toNat) ∧
      encodeFields (c d a ci k) = ⟨op, regField d, regField a, 0, shiftField (ci, k)⟩ := by
        exact fun _ _ _ _ => ⟨rfl, rfl, rfl⟩)
    (hbits : bits = wordOf ⟨op, 0, 0, 0, 0⟩ := by rfl) :
    RowFor ⟨name, bits, 0xFF88FFC0, fun w => decide (w.toNat % 32 ≠ 0)⟩
      fun d a (_ : Unit) (x : Bool × BitVec 5) => c d a x.1 x.2 := by
  refine rowFor_of_covers covers_regField covers_regField (covers_zeroField 4) covers_shiftField rfl hbits
    fun d a _ x => ?_
  obtain ⟨hname, hwf, hfields⟩ := hc d a x.1 x.2
  have hk : (encode (c d a x.1 x.2)).toNat % 32 = x.2.toNat := toNat_encode_mod_32 (by rw [hfields]; rfl)
  exact ⟨hname, by rw [hwf, hk, decide_eq_decide, Nat.one_le_iff_ne_zero], hfields⟩

theorem rowFor_bsqrn : RowFor ⟨"BSQRN", 0x35000000, 0xFF88F000, fun w => decide (w.toNat % 4096 ≠ 0)⟩
    fun d a (_ : Unit) k => .bsqrn d a k := by
  refine rowFor_of_covers covers_regField covers_regField (covers_zeroField 4) (covers_id 12) rfl rfl
    fun d a _ k => ⟨rfl, ?_, rfl⟩
  have hk : k.toNat ≤ 4095 := Nat.le_of_lt_succ k.isLt
  rw [toNat_encode_mod_4096, encodeFields, Instr.wellFormed, decide_eq_decide, Nat.one_le_iff_ne_zero]
  exact and_iff_left hk

end formats

/-! ## The table -/

/-- The table row by row. -/
theorem decodes_of_accepts {w : Word} :
    ∀ r ∈ opcodeRows, r.accepts w = true → ∃ i, decode w = .ok i ∧ mnemonic i = r.name := by
  simp only [opcodeRows, List.cons_append, List.nil_append, List.forall_mem_cons, List.not_mem_nil, IsEmpty.forall_iff,
    implies_true, and_true]
  exact ⟨(rowFor_Z .nop).decodes, rowFor_setn.decodes, (rowFor_Z .clrerr).decodes, (rowFor_Z .sreset).decodes,
    (rowFor_D2 .add).decodes, (rowFor_D2 .sub).decodes, (rowFor_D1 .inc).decodes, (rowFor_D1 .dec).decodes,
    (rowFor_D2 .mul).decodes, (rowFor_D1 .sqr).decodes, (rowFor_DC .shl1).decodes, (rowFor_DC .shr1).decodes,
    (rowFor_DS .shln).decodes, (rowFor_DS .shrn).decodes, (rowFor_S2 .gte).decodes, (rowFor_S1 .iszero).decodes,
    (rowFor_S1 .isone).decodes, (rowFor_S1 .fsetp).decodes, (rowFor_S1 .fchk).decodes, (rowFor_D2 .fadd).decodes,
    (rowFor_D2 .fsub).decodes, (rowFor_D1 .fadd1).decodes, (rowFor_D1 .fneg).decodes, (rowFor_D1 .fhalf).decodes,
    (rowFor_D1 .ftwice).decodes, (rowFor_D2 .fmul).decodes, (rowFor_D1 .fsqr).decodes, (rowFor_D1 .fred).decodes,
    (rowFor_D1 .finv).decodes, (rowFor_S1 .bsetf).decodes, (rowFor_S1 .bchk).decodes, (rowFor_D2 .badd).decodes,
    (rowFor_D2 .bmul).decodes, (rowFor_D1 .bsqr).decodes, rowFor_bsqrn.decodes, (rowFor_D1 .bsqrt).decodes,
    (rowFor_D1 .bred).decodes, (rowFor_D1 .binv).decodes, (rowFor_S1 .btrace).decodes, (rowFor_D1 .bhtrace).decodes,
    (rowFor_D2 .bmulx).decodes⟩

/-- The table holds one row under each mnemonic. -/
theorem exists_row_of_find {i : Instr} {r : OpcodeRow} (hr : opcodeRows.find? (·.name == mnemonic i) = some r)
    (hw : r.accepts (encode i) = true) : ∃ r ∈ opcodeRows, r.accepts (encode i) = true ∧ r.name = mnemonic i :=
  ⟨r, List.mem_of_find?_eq_some hr, hw, beq_iff_eq.mp (List.find?_some hr :)⟩

/-- The word of a legal command fits a row with its mnemonic, by the command's format. -/
theorem exists_row_of_wellFormed {i : Instr} (hi : i.wellFormed = true) :
    ∃ r ∈ opcodeRows, r.accepts (encode i) = true ∧ r.name = mnemonic i := by
  cases i with
  | nop | clrerr | sreset => exact exists_row_of_find rfl ((rowFor_Z _).accepts_encode () () () () hi)
  | setn n => exact exists_row_of_find rfl (rowFor_setn.accepts_encode () () () n hi)
  | iszero a | isone a | fsetp a | fchk a | bsetf a | bchk a | btrace a =>
    exact exists_row_of_find rfl ((rowFor_S1 _).accepts_encode () a () () hi)
  | gte a b => exact exists_row_of_find rfl ((rowFor_S2 _).accepts_encode () a b () hi)
  | inc d a | dec d a | sqr d a | fadd1 d a | fneg d a | fhalf d a | ftwice d a | fsqr d a | fred d a | finv d a
  | bsqr d a | bsqrt d a | bred d a | binv d a | bhtrace d a =>
    exact exists_row_of_find rfl ((rowFor_D1 _).accepts_encode d a () () hi)
  | add d a b | sub d a b | mul d a b | fadd d a b | fsub d a b | fmul d a b | badd d a b | bmul d a b
  | bmulx d a b => exact exists_row_of_find rfl ((rowFor_D2 _).accepts_encode d a b () hi)
  | shl1 d a ci | shr1 d a ci => exact exists_row_of_find rfl ((rowFor_DC _).accepts_encode d a () ci hi)
  | shln d a ci k | shrn d a ci k => exact exists_row_of_find rfl ((rowFor_DS _).accepts_encode d a () (ci, k) hi)
  | bsqrn d a k => exact exists_row_of_find rfl (rowFor_bsqrn.accepts_encode d a () k hi)

/-- Settles O3: a word that decodes is the word of its command, which is legal. -/
theorem decodeAcceptsTableRows : Obligations.DecodeAcceptsTableRows := by
  unfold Obligations.DecodeAcceptsTableRows
  refine ⟨fun w i h => ?_, fun w => decodes_of_accepts⟩
  obtain ⟨rfl, hi⟩ := encodeOfDecode w i h
  exact exists_row_of_wellFormed hi

/-! ## Illegal words -/

theorem exists_decode_eq_error {w : Word} (h : ∀ r ∈ opcodeRows, r.accepts w = false) : ∃ e, decode w = .error e := by
  cases hd : decode w with
  | error e => exact ⟨e, rfl⟩
  | ok i =>
    obtain ⟨r, hr, hw, -⟩ := decodeAcceptsTableRows.1 w i hd
    exact absurd hw (Bool.eq_false_iff.mp (h r hr))

theorem accepts_eq_false_of_decode_error {w : Word} {e : DecodeError} (h : decode w = .error e) :
    ∀ r ∈ opcodeRows, r.accepts w = false := by
  intro r hr
  rw [Bool.eq_false_iff]
  intro hw
  obtain ⟨i, hi, -⟩ := decodes_of_accepts r hr hw
  rw [h] at hi
  cases hi

/-- Settles O7: such a word does not decode, and a word that does not decode raises E_ILLEGAL. -/
theorem illegalWordRaises : Obligations.IllegalWordRaises := by
  unfold Obligations.IllegalWordRaises
  refine ⟨fun s w rest h herr hrows => ?_, accepts_eq_false_of_decode_error (e := .unassignedOpcode) rfl, rfl⟩
  obtain ⟨e, he⟩ := exists_decode_eq_error hrows
  rw [step_writeCmd h, issue_of_decode_error (show ({ s with inbox := rest } : State).err = .none from herr) he]
  rfl

end Sys2Proof.Proofs
end

section
/-!
PROOF. The fixed-width integer core (40_integer_core.md). A command that writes CW ends in `endCarry`: `EndsCarry` says
what that leaves behind, with the result and the carry as numbers, and each command has one lemma that gives it. What is
left of a statement is then arithmetic on those two numbers.
-/

open Sys2Proof Sys2Proof.Machine

namespace Sys2Proof.Proofs

/-! ## Word counts and operands -/

theorem base_pos (s : State) : 0 < s.base :=
  Nat.two_pow_pos _

theorem one_lt_base {s : State} (hs : s.wf) : 1 < s.base :=
  Nat.one_lt_two_pow (by have := hs.1; omega)

theorem srcN_lt_base (s : State) (r : VIdx) : s.srcN r < s.base :=
  s.val_lt r s.words

/-- A shift distance is less than the width of an operand. -/
theorem toNat_lt_width {s : State} (hs : s.wf) (k : BitVec 5) : k.toNat < 32 * s.words := by
  have := hs.1
  have := k.isLt
  omega

/-! ## Carry words as numbers -/

theorem toNat_flagWord_decide (p : Prop) [Decidable p] : (flagWord (decide p)).toNat = if p then 1 else 0 := by
  rw [flagWord_toNat]
  by_cases h : p <;> simp [h]

theorem toNat_carryOut {full base : Nat} (h : full < 2 ^ 32 * base) : (carryOut full base).toNat = full / base := by
  rw [carryOut, BitVec.toNat_ofNat, Nat.mod_eq_of_lt (Nat.div_lt_of_lt_mul (by rwa [Nat.mul_comm]))]

theorem toNat_shiftDownOut {k : Nat} (hk : k < 32) (x : Nat) : (shiftDownOut x k).toNat = x % 2 ^ k := by
  have hlt : x % 2 ^ k < 2 ^ 32 :=
    Nat.lt_of_lt_of_le (Nat.mod_lt _ (Nat.two_pow_pos k)) (Nat.pow_le_pow_right (by decide) hk.le)
  rw [shiftDownOut, BitVec.toNat_ofNat, Nat.mod_eq_of_lt hlt]

theorem shiftIn_false (s : State) (k : Nat) : s.shiftIn false k = 0 :=
  rfl

/-- Bits that a shift by `k` pushed out are all taken in by the next one (40_integer_core.md R115). -/
theorem shiftIn_of_lt {s : State} {k : Nat} (h : s.cw.toNat < 2 ^ k) : s.shiftIn true k = s.cw.toNat :=
  Nat.mod_eq_of_lt h

/-! ## How a command ends -/

/-- Result `r` from `s` is the end of a command with `N`-limb result `z` in register `d` and carry `c`, and nothing else
changed (40_integer_core.md R100). -/
def EndsCarry (r : Result) (s : State) (d : VIdx) (z c : Nat) : Prop :=
  ∃ t, r = .next t ∧ t.srcN d = z ∧ t.cw.toNat = c ∧ t.t = s.t ∧ OnlyLow s t d s.words ∧ SameControl s t

theorem endCarry_endsCarry {s : State} {d : VIdx} {z : Nat} {c : Word} (hz : z < s.base) :
    EndsCarry (endCarry s d z c) s d z c.toNat := by
  obtain ⟨-, hval, hcw, ht, hlow, hctl⟩ := endCarry_spec (s := s) (d := d) (z := z) (c := c) rfl
  exact ⟨_, rfl, hval.trans (Nat.mod_eq_of_lt hz), congrArg BitVec.toNat hcw, ht, hlow, hctl⟩

/-- A double-width result that fits (R105). -/
theorem endWide_ends {s : State} {d : VIdx} {z : Nat} (hs : s.wf) (hz : z < s.base * s.base) :
    ∃ t, endWide s d z = .next t ∧ t.val d (2 * s.words) = z ∧ OnlyResult s t d (2 * s.words) := by
  obtain ⟨-, hval, hframe⟩ := endWide_spec (d := d) (z := z) hs.1.2 rfl
  have hwidth : s.base * s.base = 2 ^ (32 * (2 * s.words)) := by
    rw [State.base, ← Nat.pow_add]
    congr 1
    omega
  exact ⟨_, rfl, hval.trans (Nat.mod_eq_of_lt (hwidth ▸ hz)), hframe⟩

/-! What the frame of a command on register `d` says of the next command's operands. -/

theorem words_of_sameControl {s t : State} (h : SameControl s t) : t.words = s.words :=
  congrArg BitVec.toNat h.1

theorem base_of_sameControl {s t : State} (h : SameControl s t) : t.base = s.base := by
  rw [State.base, words_of_sameControl h, State.base]

theorem srcN_of_onlyLow_ne {s t : State} {d r : VIdx} {len : Nat} (hlow : OnlyLow s t d len) (hctl : SameControl s t)
    (hr : r ≠ d) : t.srcN r = s.srcN r := by
  rw [State.srcN, words_of_sameControl hctl]
  exact State.val_congr _ _ _ _ _ fun j _ => (hlow r j).resolve_left fun h => hr h.1

/-! ## Sums, differences and products -/

section arithmetic
variable (s : State) (d a b : VIdx)

/-- ADD (R101). -/
theorem add_endsCarry :
    EndsCarry (exec (.add d a b) s) s d ((s.srcN a + s.srcN b) % s.base) ((s.srcN a + s.srcN b) / s.base) := by
  have ha := srcN_lt_base s a
  have hb := srcN_lt_base s b
  rw [← toNat_carryOut (show s.srcN a + s.srcN b < 2 ^ 32 * s.base by omega)]
  exact endCarry_endsCarry (Nat.mod_lt _ (base_pos s))

/-- SUB (R102). -/
theorem sub_endsCarry :
    EndsCarry (exec (.sub d a b) s) s d
      (if s.srcN b ≤ s.srcN a then s.srcN a - s.srcN b else s.srcN a + s.base - s.srcN b)
      (if s.srcN a < s.srcN b then 1 else 0) := by
  rw [← subMod_eq (srcN_lt_base s a) (srcN_lt_base s b), ← toNat_flagWord_decide]
  exact endCarry_endsCarry (subMod_lt (base_pos s))

/-- INC (R103). -/
theorem inc_endsCarry :
    EndsCarry (exec (.inc d a) s) s d ((s.srcN a + 1) % s.base) (if s.srcN a = s.base - 1 then 1 else 0) := by
  rw [← toNat_flagWord_decide]
  exact endCarry_endsCarry (Nat.mod_lt _ (base_pos s))

/-- DEC (R104). -/
theorem dec_endsCarry (hs : s.wf) :
    EndsCarry (exec (.dec d a) s) s d (if s.srcN a = 0 then s.base - 1 else s.srcN a - 1)
      (if s.srcN a = 0 then 1 else 0) := by
  have hz : (if s.srcN a = 0 then s.base - 1 else s.srcN a - 1) = subMod (s.srcN a) 1 s.base := by
    rw [subMod_eq (srcN_lt_base s a) (one_lt_base hs)]
    split <;> split <;> omega
  rw [hz, ← toNat_flagWord_decide]
  exact endCarry_endsCarry (subMod_lt (base_pos s))

/-- The product of two operands fits in twice their width (R105). -/
theorem srcN_mul_srcN_lt : s.srcN a * s.srcN b < s.base * s.base :=
  Nat.mul_lt_mul'' (srcN_lt_base s a) (srcN_lt_base s b)

end arithmetic

/-- Settles O25: the sum of two operands fits below `2 B`, so that its carry is one bit. -/
theorem addResult : Obligations.AddResult := by
  unfold Obligations.AddResult
  exact fun s d a b _ => add_endsCarry s d a b

/-- Settles O26: the difference is below `B` in absolute value, so that one `B` is all it can borrow. -/
theorem subResult : Obligations.SubResult := by
  unfold Obligations.SubResult
  exact fun s d a b _ => sub_endsCarry s d a b

/-- Settles O27: the wraps are the sum and the difference with 1 that leave the range `[0, B)`. -/
theorem incDecResult : Obligations.IncDecResult := by
  unfold Obligations.IncDecResult
  exact fun s d a hs _ => ⟨inc_endsCarry s d a, dec_endsCarry s d a hs⟩

/-- Settles O28: a product of two operands fits in the `2N` limbs that MUL and SQR write. -/
theorem mulSqrResult : Obligations.MulSqrResult := by
  unfold Obligations.MulSqrResult
  exact fun s d a b hs _ => ⟨endWide_ends hs (srcN_mul_srcN_lt s a b), endWide_ends hs (srcN_mul_srcN_lt s a a), rfl⟩

/-! ## Shifts -/

section shiftArithmetic
variable {x k cin n : Nat}

theorem shiftUpFull_lt (hx : x < 2 ^ n) (hcin : cin < 2 ^ k) : shiftUpFull x k cin < 2 ^ k * 2 ^ n :=
  calc shiftUpFull x k cin
    _ = x * 2 ^ k + cin := shiftUpFull_eq hcin
    _ < (x + 1) * 2 ^ k := by rw [Nat.succ_mul x]; omega
    _ ≤ 2 ^ n * 2 ^ k := Nat.mul_le_mul_right _ hx
    _ = 2 ^ k * 2 ^ n := Nat.mul_comm _ _

/-- The bits a shift up pushes out are the top bits of its operand (R109). -/
theorem shiftUpFull_div (hcin : cin < 2 ^ k) (hk : k ≤ n) : shiftUpFull x k cin / 2 ^ n = x >>> (n - k) :=
  calc shiftUpFull x k cin / 2 ^ n
    _ = (x * 2 ^ k + cin) / 2 ^ k / 2 ^ (n - k) := by
      rw [shiftUpFull_eq hcin, Nat.div_div_eq_div_mul, ← Nat.pow_add, Nat.add_sub_cancel' hk]
    _ = x / 2 ^ (n - k) := by
      rw [Nat.mul_comm, Nat.mul_add_div (Nat.two_pow_pos k), Nat.div_eq_of_lt hcin, Nat.add_zero]
    _ = x >>> (n - k) := (Nat.shiftRight_eq_div_pow ..).symm

/-- A shift down loses nothing: its result and the bits it pushes out give its operand and carry-in back (R114). -/
theorem shiftDownFull_rebuilt (hx : x < 2 ^ (32 * n)) (hk : k ≤ 32 * n) :
    x + cin * 2 ^ (32 * n) = shiftDownFull n x k cin * 2 ^ k + x % 2 ^ k := by
  rw [shiftDownFull_eq hx hk, Nat.add_mul, Nat.mul_assoc, ← Nat.pow_add, Nat.sub_add_cancel hk]
  have := Nat.div_add_mod' x (2 ^ k)
  omega

theorem shiftDownFull_lt (hx : x < 2 ^ (32 * n)) (hcin : cin < 2 ^ k) (hk : k ≤ 32 * n) :
    shiftDownFull n x k cin < 2 ^ (32 * n) := by
  have hz : shiftDownFull n x k cin * 2 ^ k < 2 ^ (32 * n) * 2 ^ k :=
    calc shiftDownFull n x k cin * 2 ^ k
      _ ≤ x + cin * 2 ^ (32 * n) := by rw [shiftDownFull_rebuilt hx hk]; exact Nat.le_add_right _ _
      _ < (cin + 1) * 2 ^ (32 * n) := by rw [Nat.succ_mul cin]; omega
      _ ≤ 2 ^ k * 2 ^ (32 * n) := Nat.mul_le_mul_right _ hcin
      _ = 2 ^ (32 * n) * 2 ^ k := Nat.mul_comm _ _
  exact Nat.lt_of_mul_lt_mul_right hz

end shiftArithmetic

section shifts
variable {s : State} {k : Nat} (d a : VIdx) (ci : Bool)

/-- SHL1 and SHLN (R107, R109). -/
theorem shiftUp_endsCarry (hk : k < 32) :
    EndsCarry (shiftUp s d a ci k) s d (shiftUpFull (s.srcN a) k (s.shiftIn ci k) % s.base)
      (shiftUpFull (s.srcN a) k (s.shiftIn ci k) / s.base) := by
  have hfull : shiftUpFull (s.srcN a) k (s.shiftIn ci k) < 2 ^ 32 * s.base :=
    Nat.lt_of_lt_of_le (shiftUpFull_lt (srcN_lt_base s a) (s.shiftIn_lt ci k))
      (Nat.mul_le_mul_right _ (Nat.pow_le_pow_right (by decide) hk.le))
  rw [← toNat_carryOut hfull]
  exact endCarry_endsCarry (Nat.mod_lt _ (base_pos s))

/-- SHR1 and SHRN (R108, R110). -/
theorem shiftDown_endsCarry (hk : k < 32) (hw : k < 32 * s.words) :
    EndsCarry (shiftDown s d a ci k) s d (shiftDownFull s.words (s.srcN a) k (s.shiftIn ci k)) (s.srcN a % 2 ^ k) := by
  rw [← toNat_shiftDownOut hk]
  exact endCarry_endsCarry (shiftDownFull_lt (srcN_lt_base s a) (s.shiftIn_lt ci k) hw.le)

end shifts

/-- Settles O29: the carry-in stays below the bits pushed out, and a distance of 0 is no legal immediate. -/
theorem shiftUpResult : Obligations.ShiftUpResult := by
  unfold Obligations.ShiftUpResult
  refine ⟨?_, ?_, fun d a ci => ⟨.immediateRange, (decode_encode_fields _).trans (decodeDS_fields ..)⟩⟩
  · rintro s d a ci k cin full hs _ _ rfl rfl
    obtain ⟨t, ht, hz, hc, hframe⟩ := shiftUp_endsCarry (s := s) d a ci k.isLt
    exact ⟨t, ht, hz, hc, hc.trans (shiftUpFull_div (s.shiftIn_lt ci _) (toNat_lt_width hs k).le), hframe⟩
  · rintro s d a ci cin hs _ rfl
    obtain ⟨t, ht, hz, hc, hT, hlow, hctl⟩ := shiftUp_endsCarry (s := s) d a ci (k := 1) (by decide)
    exact ⟨t, ht, hz, hc.trans (shiftUpFull_div (s.shiftIn_lt ci 1) (toNat_lt_width hs 1).le), hT, hlow, hctl, rfl⟩

/-- Settles O30: the carry-in fills the bits that the shift leaves free, and a distance of 0 is no legal immediate. -/
theorem shiftDownResult : Obligations.ShiftDownResult := by
  unfold Obligations.ShiftDownResult
  refine ⟨?_, ?_, fun d a ci => ⟨.immediateRange, (decode_encode_fields _).trans (decodeDS_fields ..)⟩⟩
  · rintro s d a ci k cin hs _ _ rfl
    exact shiftDown_endsCarry d a ci k.isLt (toNat_lt_width hs k)
  · rintro s d a ci cin hs _ rfl
    obtain ⟨t, ht, hz, hc, hT, hlow, hctl⟩ := shiftDown_endsCarry d a ci (k := 1) (by decide) (toNat_lt_width hs 1)
    exact ⟨t, ht, hz, hc, hT, hlow, hctl, rfl⟩

/-! ## Comparators -/

theorem limbsVal_take_eq_zero_iff (xs : List Limb) (len : Nat) :
    limbsVal (xs.take len) = 0 ↔ ∀ j < len, xs.getD j 0 = 0 := by
  induction xs generalizing len with
  | nil => simp
  | cons x xs ih =>
    cases len with
    | zero => simp
    | succ len =>
      rw [Nat.forall_lt_succ_left, List.take_succ_cons, limbsVal_cons, Nat.add_eq_zero_iff]
      simp [ih, BitVec.toNat_eq_nat]

/-- The integer in the low limbs is 0 exactly if they all are (R112). -/
theorem val_eq_zero_iff (s : State) (r : VIdx) (len : Nat) : s.val r len = 0 ↔ ∀ j < len, s.limb r j = 0 :=
  limbsVal_take_eq_zero_iff _ len

/-- A comparator's verdict and frame, its verdict as a proposition (R111 to R113). -/
theorem endTest_ends (s : State) (p : Prop) [Decidable p] :
    ∃ t, endTest s (decide p) = .next t ∧ (t.t = true ↔ p) ∧ OnlyT s t := by
  obtain ⟨-, hverdict, hframe⟩ := endTest_spec (s := s) (b := decide p) rfl
  exact ⟨_, rfl, by rw [hverdict, decide_eq_true_iff], hframe⟩

/-- Settles O31: each verdict is the decision of the comparison. -/
theorem comparatorVerdicts : Obligations.ComparatorVerdicts := by
  unfold Obligations.ComparatorVerdicts
  intro s a b _
  obtain ⟨t, ht, hzero, hframe⟩ := endTest_ends s (s.srcN a = 0)
  exact ⟨endTest_ends s _, ⟨t, ht, hzero.trans (val_eq_zero_iff s a s.words), hframe⟩, endTest_ends s _⟩

/-! ## Exact results -/

section rebuilt
variable {s : State} {k : Nat} (d a : VIdx) (ci : Bool)

/-- The exact result of SHL1 and SHLN (R114). -/
theorem shiftUp_rebuilt (hk : k < 32) :
    ∃ t, shiftUp s d a ci k = .next t ∧ s.srcN a * 2 ^ k + s.shiftIn ci k = t.srcN d + t.cw.toNat * s.base ∧
      t.cw.toNat < 2 ^ k ∧ OnlyLow s t d s.words ∧ SameControl s t := by
  obtain ⟨t, ht, hz, hc, -, hframe⟩ := shiftUp_endsCarry (s := s) d a ci hk
  have hcin := s.shiftIn_lt ci k
  refine ⟨t, ht, ?_, ?_, hframe⟩
  · rw [hz, hc, Nat.mod_add_div', shiftUpFull_eq hcin]
  · rw [hc]
    exact Nat.div_lt_of_lt_mul (Nat.mul_comm _ _ ▸ shiftUpFull_lt (srcN_lt_base s a) hcin)

/-- The exact result of SHR1 and SHRN (R114). -/
theorem shiftDown_rebuilt (hk : k < 32) (hw : k < 32 * s.words) :
    ∃ t, shiftDown s d a ci k = .next t ∧ s.srcN a + s.shiftIn ci k * s.base = t.srcN d * 2 ^ k + t.cw.toNat ∧
      t.cw.toNat < 2 ^ k ∧ OnlyLow s t d s.words ∧ SameControl s t := by
  obtain ⟨t, ht, hz, hc, -, hframe⟩ := shiftDown_endsCarry (s := s) d a ci hk hw
  refine ⟨t, ht, ?_, ?_, hframe⟩
  · rw [hz, hc]
    exact shiftDownFull_rebuilt (srcN_lt_base s a) hw.le
  · rw [hc]
    exact Nat.mod_lt _ (Nat.two_pow_pos k)

end rebuilt

/-- Settles O32: each pair of result and carry is the exact result, split at the base or at the shift distance. -/
theorem exactResultRebuilt : Obligations.ExactResultRebuilt := by
  unfold Obligations.ExactResultRebuilt
  intro s d a b ci k hs _ _
  have ha := srcN_lt_base s a
  refine ⟨?add, ?sub, ?inc, ?dec, ?shln, ?shrn⟩
  case add =>
    obtain ⟨t, ht, hz, hc, -⟩ := add_endsCarry s d a b
    exact ⟨t, ht, by rw [hz, hc, Nat.mod_add_div']⟩
  case sub =>
    obtain ⟨t, ht, hz, hc, -⟩ := sub_endsCarry s d a b
    have hb := srcN_lt_base s b
    refine ⟨t, ht, ?_⟩
    rw [hz, hc]
    split <;> split <;> omega
  case inc =>
    obtain ⟨t, ht, hz, hc, -⟩ := inc_endsCarry s d a
    refine ⟨t, ht, ?_⟩
    rw [hz, hc]
    split
    · rw [show s.srcN a + 1 = s.base by omega, Nat.mod_self, Nat.one_mul, Nat.zero_add]
    · rw [Nat.mod_eq_of_lt (by omega), Nat.zero_mul, Nat.add_zero]
  case dec =>
    obtain ⟨t, ht, hz, hc, -⟩ := dec_endsCarry s d a hs
    refine ⟨t, ht, ?_⟩
    rw [hz, hc]
    split <;> omega
  case shln =>
    obtain ⟨t, ht, hexact, -⟩ := shiftUp_rebuilt (s := s) d a ci k.isLt
    exact ⟨t, ht, hexact⟩
  case shrn =>
    obtain ⟨t, ht, hexact, -⟩ := shiftDown_rebuilt d a ci k.isLt (toNat_lt_width hs k)
    exact ⟨t, ht, hexact⟩

/-- Settles O33: what the first shift pushes out is the carry-in of the second, which finds its operand untouched and
leaves the other register alone. -/
theorem shiftsChain : Obligations.ShiftsChain := by
  unfold Obligations.ShiftsChain
  intro s lo hi k hs _ hne _
  have hw := toNat_lt_width hs k
  constructor
  case left =>
    obtain ⟨t, ht, hexact, hcw, hlow, hctl⟩ := shiftUp_rebuilt (s := s) lo lo false k.isLt
    obtain ⟨u, hu, hexact', -, hlow', hctl'⟩ := shiftUp_rebuilt (s := t) hi hi true k.isLt
    refine ⟨t, u, ht, hu, ?_⟩
    rw [shiftIn_false, Nat.add_zero] at hexact
    rw [shiftIn_of_lt hcw, srcN_of_onlyLow_ne hlow hctl hne.symm, base_of_sameControl hctl] at hexact'
    rw [srcN_of_onlyLow_ne hlow' hctl' hne]
    linear_combination hexact + s.base * hexact'
  case right =>
    obtain ⟨t, ht, hexact, hcw, hlow, hctl⟩ := shiftDown_rebuilt hi hi false k.isLt hw
    obtain ⟨u, hu, hexact', -, hlow', hctl'⟩ :=
      shiftDown_rebuilt lo lo true k.isLt (words_of_sameControl hctl ▸ hw)
    refine ⟨t, u, ht, hu, ?_⟩
    rw [shiftIn_false, Nat.zero_mul, Nat.add_zero] at hexact
    rw [shiftIn_of_lt hcw, srcN_of_onlyLow_ne hlow hctl hne, base_of_sameControl hctl] at hexact'
    rw [srcN_of_onlyLow_ne hlow' hctl' hne.symm]
    linear_combination hexact' + s.base * hexact

end Sys2Proof.Proofs
end

section
/-!
PROOF. The prime field (41_prime_field.md). Every command but FSETP, FCHK and FINV at zero ends in `endPrime`, for which
`endPrime_primeCommand` gives the three cases of R130 once; a command's lemma adds the arithmetic of its own formula. In
a sequence of commands a state is known by the elements its registers hold: `Sets` says that a command puts an element
into one register and leaves the others theirs.
-/

open Sys2Proof Sys2Proof.Machine

namespace Sys2Proof.Proofs

/-! ## The installed modulus -/

theorem modulus_lt (s : State) : s.modulus < 2 ^ (32 * s.fieldWords) := by
  refine Nat.lt_of_lt_of_le (limbsVal_lt _) (Nat.pow_le_pow_right (by omega) (Nat.mul_le_mul_left 32 ?_))
  rw [List.length_take]
  exact Nat.min_le_left ..

theorem primeDescriptor_of_wf {s : State} (hs : s.wf) (hk : s.kind = .prime) : s.primeDescriptor := by
  obtain ⟨-, -, hprime, -⟩ := hs
  exact hprime hk

theorem modulus_pos {s : State} (h : s.primeDescriptor) : 0 < s.modulus := by
  obtain ⟨-, -, -, -, -, hthree⟩ := h
  omega

/-! What a command that keeps the control state keeps of the field. -/

section sameControl
variable {s t : State} (h : SameControl s t)
include h

theorem wf_of_sameControl (hs : s.wf) : t.wf := by
  obtain ⟨hn, hkind, hfn, hp, hm, hk1, hk2, hk3, -⟩ := h
  exact wf_of_sameDescriptor hs (by rw [State.words, hn]; exact hs.1) ⟨hkind, hfn, hp, hm, hk1, hk2, hk3⟩

theorem kind_of_sameControl : t.kind = s.kind := by
  obtain ⟨-, hkind, -⟩ := h
  exact hkind

theorem fieldWords_of_sameControl : t.fieldWords = s.fieldWords := by
  obtain ⟨-, -, hfn, -⟩ := h
  exact congrArg BitVec.toNat hfn

theorem modulus_of_sameControl : t.modulus = s.modulus := by
  have hfw := fieldWords_of_sameControl h
  obtain ⟨-, -, -, hp, -⟩ := h
  rw [State.modulus, hfw, hp, State.modulus]

theorem srcF_of_onlyLow_ne {d r : VIdx} {len : Nat} (hlow : OnlyLow s t d len) (hr : r ≠ d) : t.srcF r = s.srcF r := by
  rw [State.srcF, fieldWords_of_sameControl h]
  exact State.val_congr _ _ _ _ _ fun j _ => (hlow r j).resolve_left fun hj => hr hj.1

end sameControl

/-! ## Residues -/

/-- One subtraction of `p` corrects a value in `[0, 2p)` (R135). -/
theorem mod_of_lt_two_mul {x p : Nat} (h : x < 2 * p) : x % p = if x < p then x else x - p := by
  split
  · exact Nat.mod_eq_of_lt ‹_›
  · rw [Nat.mod_eq_sub_mod (by omega), Nat.mod_eq_of_lt (by omega)]

/-- The negative of a residue (R138). -/
theorem sub_mod_eq_neg {x p : Nat} (h : x < p) : (p - x) % p = if x = 0 then 0 else p - x := by
  split
  · rw [‹x = 0›, Nat.sub_zero, Nat.mod_self]
  · exact Nat.mod_eq_of_lt (by omega)

/-- The half of a residue modulo an odd `p` (R139). -/
def halfMod (p x : Nat) : Nat :=
  if x % 2 = 0 then x / 2 else (x + p) / 2

section half
variable {p x : Nat} (hp : p % 2 = 1) (hx : x < p)
include hx

theorem halfMod_lt : halfMod p x < p := by
  unfold halfMod
  split <;> omega

include hp

theorem two_mul_mod_eq_iff {z : Nat} (hz : z < p) : 2 * z % p = x ↔ z = halfMod p x := by
  rw [mod_of_lt_two_mul (by omega), halfMod]
  split <;> split <;> omega

theorem halfMod_two_mul_mod : halfMod p (2 * x % p) = x :=
  ((two_mul_mod_eq_iff hp (Nat.mod_lt _ (by omega)) hx).mp rfl).symm

end half

/-- Fermat's little theorem, as an inverse (R144). -/
theorem mul_pow_sub_two_mod {p x : Nat} (hp : p.Prime) (hx : x < p) (hx0 : x ≠ 0) : x * (x ^ (p - 2) % p) % p = 1 := by
  have htwo := hp.two_le
  have hfermat : x ^ (p - 1) ≡ 1 [MOD p] := by
    have h := Nat.ModEq.pow_totient (Nat.coprime_of_lt_prime hx0 hx hp).symm
    rwa [Nat.totient_prime hp] at h
  calc x * (x ^ (p - 2) % p) % p
    _ = x ^ (p - 1) % p := by rw [Nat.mul_mod_mod, ← Nat.pow_succ', show (p - 2).succ = p - 1 by omega]
    _ = 1 % p := hfermat
    _ = 1 := Nat.mod_eq_of_lt (by omega)

/-! ## How a command ends -/

/-- Without a prime descriptor no later check counts (R130, R223). -/
theorem firstFailure_primeChecks_of_kind {s : State} (rest : List (Bool × ErrCode)) (srcs : List VIdx)
    (hk : s.kind ≠ .prime) : firstFailure (s.primeChecks srcs ++ rest) = some .noField := by
  simp [State.primeChecks, hk]

theorem firstFailure_primeChecks_of_noncanonical {s : State} {srcs : List VIdx} (hk : s.kind = .prime)
    (hc : ∃ r ∈ srcs, s.modulus ≤ s.srcF r) : firstFailure (s.primeChecks srcs) = some .element := by
  simpa [State.primeChecks, hk, State.canonP] using hc

/-- The three cases of R130, for a command that ends in `endPrime` and whose formula agrees with `z` on elements. -/
theorem endPrime_primeCommand {i : Instr} {s : State} {srcs : List VIdx} {d : VIdx} {z z' : Nat} (hs : s.wf)
    (hi : exec i s = endPrime s (encode i) srcs d z')
    (hz : s.primeDescriptor → (∀ r ∈ srcs, s.srcF r < s.modulus) → z' = z ∧ z < s.modulus) :
    PrimeCommand i d srcs z s := by
  refine ⟨fun hk => ?noField, fun hk hc => ?element, fun hk hc => ?result⟩
  case noField =>
    have hf := firstFailure_primeChecks_of_kind [] srcs hk
    rw [List.append_nil] at hf
    rw [Raises, hi, endPrime, hf]
    rfl
  case element =>
    rw [Raises, hi, endPrime, firstFailure_primeChecks_of_noncanonical hk hc]
    rfl
  case result =>
    have hdesc := primeDescriptor_of_wf hs hk
    obtain ⟨rfl, hlt⟩ := hz hdesc hc
    obtain ⟨⟨-, hwords⟩, -⟩ := hdesc
    exact ⟨_, hi.trans (endPrime_pass hk hc),
      s.val_writeReg_of_lt d s.fieldWords z' (by omega) (hlt.trans (modulus_lt s)), hlt, onlyResult_writeReg ..⟩

/-- The same, for a formula that is a residue as it stands. -/
theorem endPrime_mod_primeCommand {i : Instr} {s : State} {srcs : List VIdx} {d : VIdx} {x : Nat} (hs : s.wf)
    (hi : exec i s = endPrime s (encode i) srcs d (x % s.modulus)) : PrimeCommand i d srcs (x % s.modulus) s :=
  endPrime_primeCommand hs hi fun hp _ => ⟨rfl, Nat.mod_lt _ (modulus_pos hp)⟩

/-- Two commands with elements as sources and the same result end in the same state. -/
theorem endPrime_congr {s : State} {w w' : Word} {srcs srcs' : List VIdx} {d : VIdx} {z z' : Nat} (hk : s.kind = .prime)
    (hc : ∀ r ∈ srcs, s.srcF r < s.modulus) (hc' : ∀ r ∈ srcs', s.srcF r < s.modulus) (hz : z = z') :
    endPrime s w srcs d z = endPrime s w' srcs' d z' := by
  rw [endPrime_pass hk hc, endPrime_pass hk hc', hz]

/-! ## The commands -/

section commands
variable {s : State} (hs : s.wf) (d a b : VIdx)
include hs

theorem fadd_primeCommand : PrimeCommand (.fadd d a b) d [a, b] ((s.srcF a + s.srcF b) % s.modulus) s :=
  endPrime_mod_primeCommand hs rfl

theorem fsub_primeCommand : PrimeCommand (.fsub d a b) d [a, b]
    (if s.srcF b ≤ s.srcF a then s.srcF a - s.srcF b else s.srcF a + s.modulus - s.srcF b) s :=
  endPrime_primeCommand hs rfl fun _ hc => by
    have ha := hc a (by simp)
    have hb := hc b (by simp)
    rw [← subMod_eq ha hb]
    exact ⟨rfl, subMod_lt (by omega)⟩

theorem fadd1_primeCommand :
    PrimeCommand (.fadd1 d a) d [a] (if s.srcF a = s.modulus - 1 then 0 else s.srcF a + 1) s :=
  endPrime_primeCommand hs rfl fun _ hc => by
    have ha := hc a (by simp)
    rw [mod_of_lt_two_mul (by omega)]
    split <;> split <;> omega

theorem fneg_primeCommand : PrimeCommand (.fneg d a) d [a] (if s.srcF a = 0 then 0 else s.modulus - s.srcF a) s :=
  endPrime_primeCommand hs rfl fun _ hc => by
    have ha := hc a (by simp)
    rw [← sub_mod_eq_neg ha]
    exact ⟨rfl, Nat.mod_lt _ (by omega)⟩

theorem ftwice_primeCommand : PrimeCommand (.ftwice d a) d [a]
    (if 2 * s.srcF a < s.modulus then 2 * s.srcF a else 2 * s.srcF a - s.modulus) s :=
  endPrime_primeCommand hs rfl fun _ hc => by
    have ha := hc a (by simp)
    rw [← mod_of_lt_two_mul (by omega)]
    exact ⟨rfl, Nat.mod_lt _ (by omega)⟩

theorem fhalf_primeCommand : PrimeCommand (.fhalf d a) d [a] (halfMod s.modulus (s.srcF a)) s :=
  endPrime_primeCommand hs rfl fun _ hc => ⟨by simp [halfMod, Nat.shiftRight_eq_div_pow], halfMod_lt (hc a (by simp))⟩

theorem fmul_primeCommand : PrimeCommand (.fmul d a b) d [a, b] (s.srcF a * s.srcF b % s.modulus) s :=
  endPrime_mod_primeCommand hs rfl

theorem fsqr_primeCommand : PrimeCommand (.fsqr d a) d [a] (s.srcF a * s.srcF a % s.modulus) s :=
  endPrime_mod_primeCommand hs rfl

theorem fred_primeCommand : PrimeCommand (.fred d a) d [] (s.val a (2 * s.fieldWords) % s.modulus) s :=
  endPrime_mod_primeCommand hs rfl

/-- FINV of a value other than 0 passes the check that R130 has for it alone. -/
theorem finv_primeCommand (ha : s.srcF a ≠ 0) :
    PrimeCommand (.finv d a) d [a] (s.srcF a ^ (s.modulus - 2) % s.modulus) s := by
  have hchecks : firstFailure (s.primeChecks [a] ++ s.zeroCheck a) = firstFailure (s.primeChecks [a]) := by
    simp [State.primeChecks, State.zeroCheck, ha]
  have hi : exec (.finv d a) s =
      endPrime s (encode (.finv d a)) [a] d (powMod s.modulus (s.srcF a) (s.modulus - 2)) := by
    rw [endPrime, ← hchecks]
    rfl
  refine endPrime_primeCommand hs hi fun hp _ => ?_
  have hpos := modulus_pos hp
  exact ⟨powMod_eq _ _ _ hpos, Nat.mod_lt _ hpos⟩

end commands

/-! ## Statements about one command -/

/-- Settles O34: the accepted candidate is what `installPrime` writes, any other fails the one check. -/
theorem fsetpInstalls : Obligations.FsetpInstalls := by
  unfold Obligations.FsetpInstalls
  intro s a hs _
  refine ⟨fun hok => ?accepted, fun hok => ?refused⟩
  case accepted =>
    have hok : s.primeDescOk a = true := decide_eq_true hok
    have hi : exec (.fsetp a) s = .next (s.installPrime a) := by
      simp [exec, execFsetp, hok]
    refine ⟨_, hi, rfl, rfl, fun j => ?_, modulus_installPrime s a hs.1.2, rfl⟩
    have hj := p_installPrime s a j j.isLt
    rwa [List.getD_eq_getElem _ _ (by rw [Vector.length_toList]; exact j.isLt), Vector.getElem_toList] at hj
  case refused =>
    have hok : s.primeDescOk a = false := decide_eq_false hok
    simp [Raises, exec, execFsetp, hok, State.raise]

/-- Settles O35, by the three cases of `endElementCheck`. -/
theorem fchkVerdict : Obligations.FchkVerdict := by
  unfold Obligations.FchkVerdict
  intro s a _
  have hi : exec (.fchk a) s = endElementCheck s (encode (.fchk a)) .prime (s.canonP a) := rfl
  refine ⟨fun hk => ?noField, fun hk hx => ?good, fun hk hx => ?bad⟩
  case noField => rw [Raises, hi, endElementCheck, if_pos hk, State.raise]
  case good =>
    have hgood : s.canonP a = true := decide_eq_true hx
    simp [hi, endElementCheck, hk, hgood, State.setT]
  case bad =>
    have hbad : s.canonP a = false := decide_eq_false (Nat.not_lt.mpr hx)
    simp [hi, endElementCheck, hk, hbad, State.setT, State.raise]

/-- Settles O36: the exact difference leaves `[0, p)` only below, where one `p` corrects it. -/
theorem faddFsubResult : Obligations.FaddFsubResult := by
  unfold Obligations.FaddFsubResult
  exact fun s d a b hs _ => ⟨fadd_primeCommand hs d a b, fsub_primeCommand hs d a b⟩

/-- Settles O40: no source is checked, and every residue fits. -/
theorem fredResult : Obligations.FredResult := by
  unfold Obligations.FredResult
  exact fun s d a hs _ => fred_primeCommand hs d a

/-- Settles O41: zero is an element, so that it passes the checks before its own. -/
theorem finvResult : Obligations.FinvResult := by
  unfold Obligations.FinvResult
  intro s d a hs _
  refine ⟨fun hk h0 => ?_, finv_primeCommand hs d a, fun hk => ?_⟩
  · have hpos := modulus_pos (primeDescriptor_of_wf hs hk)
    have hchecks : firstFailure (s.primeChecks [a] ++ s.zeroCheck a) = some .invZero := by
      simp [State.primeChecks, State.zeroCheck, State.canonP, hk, h0, hpos]
    rw [Raises, exec, execFinv, hchecks]
    rfl
  · rw [Raises, exec, execFinv, firstFailure_primeChecks_of_kind _ _ hk]
    rfl

/-- Settles O42, by Fermat's little theorem. -/
theorem finvIsInverse : Obligations.FinvIsInverse := by
  unfold Obligations.FinvIsInverse
  intro s d a hs _ hk hp hlt h0
  obtain ⟨-, -, hresult⟩ := finv_primeCommand hs d a h0
  obtain ⟨t, ht, hz, -⟩ := hresult hk (by simpa using hlt)
  exact ⟨t, ht, by rw [hz, mul_pow_sub_two_mod hp hlt h0]⟩

/-! ## Sequences of commands -/

/-- The field of the installed modulus `p` is in force. -/
structure InPrimeField (s : State) (p : Nat) : Prop where
  wf : s.wf
  kind : s.kind = .prime
  modulus : s.modulus = p

/-- Register `r` holds the element `x` of the field modulo `p`. -/
structure Holds (s : State) (p : Nat) (r : VIdx) (x : Nat) : Prop where
  value : s.srcF r = x
  canonical : x < p

/-- Command `i` leads from `s` to a state `t` under the same modulus, in which `d` holds `z` and the other registers
hold what they held. -/
structure Sets (i : Instr) (s t : State) (p : Nat) (d : VIdx) (z : Nat) : Prop where
  exec_eq : exec i s = .next t
  field : InPrimeField t p
  result : Holds t p d z
  keeps : ∀ {r : VIdx} {x : Nat}, r ≠ d → Holds s p r x → Holds t p r x

theorem InPrimeField.descriptor {s : State} {p : Nat} (h : InPrimeField s p) : s.primeDescriptor :=
  primeDescriptor_of_wf h.wf h.kind

theorem InPrimeField.odd {s : State} {p : Nat} (h : InPrimeField s p) : p % 2 = 1 := by
  obtain ⟨-, -, -, -, hodd, -⟩ := h.descriptor
  rwa [← h.modulus]

/-- What a command on register `d` leaves in force. -/
theorem InPrimeField.of_sameControl {s t : State} {p : Nat} (h : InPrimeField s p) (hctl : SameControl s t) :
    InPrimeField t p where
  wf := wf_of_sameControl hctl h.wf
  kind := (kind_of_sameControl hctl).trans h.kind
  modulus := (modulus_of_sameControl hctl).trans h.modulus

/-- The third case of R130, as a step of a sequence. -/
theorem sets_of_primeCommand {i : Instr} {s : State} {p : Nat} {d : VIdx} {srcs : List VIdx} {z : Nat}
    (hs : InPrimeField s p) (hi : PrimeCommand i d srcs z s) (hc : ∀ r ∈ srcs, s.srcF r < p) :
    ∃ t, Sets i s t p d z := by
  obtain ⟨-, -, hresult⟩ := hi
  obtain ⟨t, ht, hz, hlt, hlow, -, -, hctl⟩ := hresult hs.kind (by rwa [hs.modulus])
  exact ⟨t, ht, hs.of_sameControl hctl, ⟨hz, hs.modulus ▸ hlt⟩,
    fun hr hx => ⟨(srcF_of_onlyLow_ne hctl hlow hr).trans hx.value, hx.canonical⟩⟩

section sequences
variable {s : State} {p x y : Nat} {a b : VIdx}

theorem Holds.forall_mem_singleton (ha : Holds s p a x) : ∀ r ∈ [a], s.srcF r < p := by
  simpa [ha.value] using ha.canonical

theorem Holds.forall_mem_pair (ha : Holds s p a x) (hb : Holds s p b y) : ∀ r ∈ [a, b], s.srcF r < p := by
  simpa [ha.value, hb.value] using ⟨ha.canonical, hb.canonical⟩

variable (d : VIdx) (hs : InPrimeField s p)
include hs

theorem fadd_sets (ha : Holds s p a x) (hb : Holds s p b y) : ∃ t, Sets (.fadd d a b) s t p d ((x + y) % p) := by
  simpa only [hs.modulus, ha.value, hb.value] using
    sets_of_primeCommand hs (fadd_primeCommand hs.wf d a b) (ha.forall_mem_pair hb)

theorem fsub_sets (ha : Holds s p a x) (hb : Holds s p b y) :
    ∃ t, Sets (.fsub d a b) s t p d (if y ≤ x then x - y else x + p - y) := by
  simpa only [hs.modulus, ha.value, hb.value] using
    sets_of_primeCommand hs (fsub_primeCommand hs.wf d a b) (ha.forall_mem_pair hb)

theorem fmul_sets (ha : Holds s p a x) (hb : Holds s p b y) : ∃ t, Sets (.fmul d a b) s t p d (x * y % p) := by
  simpa only [hs.modulus, ha.value, hb.value] using
    sets_of_primeCommand hs (fmul_primeCommand hs.wf d a b) (ha.forall_mem_pair hb)

theorem fneg_sets (ha : Holds s p a x) : ∃ t, Sets (.fneg d a) s t p d (if x = 0 then 0 else p - x) := by
  simpa only [hs.modulus, ha.value] using
    sets_of_primeCommand hs (fneg_primeCommand hs.wf d a) ha.forall_mem_singleton

theorem ftwice_sets (ha : Holds s p a x) :
    ∃ t, Sets (.ftwice d a) s t p d (if 2 * x < p then 2 * x else 2 * x - p) := by
  simpa only [hs.modulus, ha.value] using
    sets_of_primeCommand hs (ftwice_primeCommand hs.wf d a) ha.forall_mem_singleton

theorem fhalf_sets (ha : Holds s p a x) : ∃ t, Sets (.fhalf d a) s t p d (halfMod p x) := by
  simpa only [hs.modulus, ha.value] using
    sets_of_primeCommand hs (fhalf_primeCommand hs.wf d a) ha.forall_mem_singleton

theorem fred_sets : ∃ t, Sets (.fred d a) s t p d (s.val a (2 * s.fieldWords) % p) := by
  simpa only [hs.modulus] using sets_of_primeCommand hs (fred_primeCommand hs.wf d a) (by simp)

/-- With `N = FN`, MUL leaves the exact product of two elements as the double-width operand of FRED (R105, R143). -/
theorem mul_next (hn : s.words = s.fieldWords) (ha : Holds s p a x) (hb : Holds s p b y) :
    ∃ t, exec (.mul d a b) s = .next t ∧ InPrimeField t p ∧ t.val d (2 * t.fieldWords) = x * y := by
  obtain ⟨t, ht, hval, -, -, -, hctl⟩ := endWide_ends (d := d) hs.wf (srcN_mul_srcN_lt s a b)
  refine ⟨t, ht, hs.of_sameControl hctl, ?_⟩
  rw [fieldWords_of_sameControl hctl, ← hn, hval, ← ha.value, ← hb.value]
  simp only [State.srcN, State.srcF, hn]

end sequences

/-- Settles O37: `p - 1` and the values from `p / 2` on are where the exact results leave `[0, p)`. -/
theorem fadd1FnegFtwiceResult : Obligations.Fadd1FnegFtwiceResult := by
  unfold Obligations.Fadd1FnegFtwiceResult
  intro s d e a hs _
  refine ⟨fadd1_primeCommand hs d a, fneg_primeCommand hs d a, ftwice_primeCommand hs d a, fun hk hlt => ?_⟩
  have hF : InPrimeField s s.modulus := ⟨hs, hk, rfl⟩
  have ha : Holds s s.modulus a (s.srcF a) := ⟨rfl, hlt⟩
  obtain ⟨t, ht⟩ := fneg_sets e hF ha
  refine ⟨?_, ?_, fun hea => ?_⟩
  · exact endPrime_congr hk ha.forall_mem_singleton (ha.forall_mem_pair ha) (by rw [Nat.two_mul])
  · obtain ⟨u, hu⟩ := fneg_sets d ht.field ht.result
    refine ⟨t, u, ht.exec_eq, hu.exec_eq, hu.result.value.trans ?_⟩
    split <;> split <;> omega
  · obtain ⟨u, hu⟩ := fadd_sets d ht.field (ht.keeps hea.symm ha) ht.result
    refine ⟨t, u, ht.exec_eq, hu.exec_eq, hu.result.value.trans ?_⟩
    rw [← sub_mod_eq_neg hlt, Nat.add_mod_mod, Nat.add_sub_cancel' hlt.le, Nat.mod_self]

/-- Settles O38: doubling and halving are inverse to each other on the residues of an odd `p`. -/
theorem fhalfResult : Obligations.FhalfResult := by
  unfold Obligations.FhalfResult
  intro s d e a hs _
  refine ⟨fhalf_primeCommand hs d a, fun hk hlt => ?_⟩
  have hF : InPrimeField s s.modulus := ⟨hs, hk, rfl⟩
  have ha : Holds s s.modulus a (s.srcF a) := ⟨rfl, hlt⟩
  have hhalf {z : Nat} (hz : z < s.modulus) := two_mul_mod_eq_iff hF.odd hlt hz
  constructor
  · obtain ⟨t, ht⟩ := fhalf_sets d hF ha
    refine ⟨t, ht.exec_eq, ?_⟩
    rw [ht.result.value]
    exact ⟨(hhalf ht.result.canonical).mpr rfl, fun z hz => (hhalf hz).mp⟩
  · obtain ⟨t, ht⟩ := ftwice_sets e hF ha
    obtain ⟨u, hu⟩ := fhalf_sets d ht.field ht.result
    refine ⟨t, u, ht.exec_eq, hu.exec_eq, ?_⟩
    rw [hu.result.value, ← mod_of_lt_two_mul (by omega), halfMod_two_mul_mod hF.odd hlt]

/-- Settles O39: FRED finds in the scratch register the product whose residue FMUL computes. -/
theorem fmulFsqrResult : Obligations.FmulFsqrResult := by
  unfold Obligations.FmulFsqrResult
  intro s d e a b hs _
  refine ⟨fmul_primeCommand hs d a b, fsqr_primeCommand hs d a, fun hk ha => ?square, fun hk hn ha hb => ?reduce⟩
  case square =>
    have ha : Holds s s.modulus a (s.srcF a) := ⟨rfl, ha⟩
    exact endPrime_congr hk ha.forall_mem_singleton (ha.forall_mem_pair ha) rfl
  case reduce =>
    have hF : InPrimeField s s.modulus := ⟨hs, hk, rfl⟩
    have ha : Holds s s.modulus a (s.srcF a) := ⟨rfl, ha⟩
    have hb : Holds s s.modulus b (s.srcF b) := ⟨rfl, hb⟩
    obtain ⟨t, ht, htF, hprod⟩ := mul_next e hF hn ha hb
    obtain ⟨u, hu⟩ := fred_sets e htF (a := e)
    obtain ⟨w, hw⟩ := fmul_sets d hF ha hb
    exact ⟨t, u, w, ht, hu.exec_eq, hw.exec_eq, by rw [hu.result.value, hw.result.value, hprod]⟩

/-- Settles O43: each pair of sequences computes the two sides of a law of the residues modulo `p`. -/
theorem primeFieldLaws : Obligations.PrimeFieldLaws := by
  unfold Obligations.PrimeFieldLaws
  intro s d e g a b c hs _ hk hlta hltb hltc hea hec hge
  have hF : InPrimeField s s.modulus := ⟨hs, hk, rfl⟩
  have ha : Holds s s.modulus a (s.srcF a) := ⟨rfl, hlta⟩
  have hb : Holds s s.modulus b (s.srcF b) := ⟨rfl, hltb⟩
  have hc : Holds s s.modulus c (s.srcF c) := ⟨rfl, hltc⟩
  refine ⟨⟨?addComm, ?mulComm⟩, ?addAssoc, ?mulAssoc, ?distrib, ?sub⟩
  case addComm => exact endPrime_congr hk (ha.forall_mem_pair hb) (hb.forall_mem_pair ha) (by rw [Nat.add_comm])
  case mulComm => exact endPrime_congr hk (ha.forall_mem_pair hb) (hb.forall_mem_pair ha) (by rw [Nat.mul_comm])
  case addAssoc =>
    obtain ⟨t, ht⟩ := fadd_sets e hF ha hb
    obtain ⟨u, hu⟩ := fadd_sets d ht.field ht.result (ht.keeps hec.symm hc)
    obtain ⟨t', ht'⟩ := fadd_sets e hF hb hc
    obtain ⟨u', hu'⟩ := fadd_sets d ht'.field (ht'.keeps hea.symm ha) ht'.result
    refine ⟨t, u, t', u', ht.exec_eq, hu.exec_eq, ht'.exec_eq, hu'.exec_eq, ?_⟩
    rw [hu.result.value, hu'.result.value, Nat.mod_add_mod, Nat.add_mod_mod, Nat.add_assoc]
  case mulAssoc =>
    obtain ⟨t, ht⟩ := fmul_sets e hF ha hb
    obtain ⟨u, hu⟩ := fmul_sets d ht.field ht.result (ht.keeps hec.symm hc)
    obtain ⟨t', ht'⟩ := fmul_sets e hF hb hc
    obtain ⟨u', hu'⟩ := fmul_sets d ht'.field (ht'.keeps hea.symm ha) ht'.result
    refine ⟨t, u, t', u', ht.exec_eq, hu.exec_eq, ht'.exec_eq, hu'.exec_eq, ?_⟩
    rw [hu.result.value, hu'.result.value, Nat.mod_mul_mod, Nat.mul_mod_mod, Nat.mul_assoc]
  case distrib =>
    obtain ⟨t, ht⟩ := fadd_sets e hF hb hc
    obtain ⟨u, hu⟩ := fmul_sets d ht.field (ht.keeps hea.symm ha) ht.result
    obtain ⟨t', ht'⟩ := fmul_sets e hF ha hb
    obtain ⟨u', hu'⟩ := fmul_sets g ht'.field (ht'.keeps hea.symm ha) (ht'.keeps hec.symm hc)
    obtain ⟨w', hw'⟩ := fadd_sets d hu'.field (hu'.keeps hge.symm ht'.result) hu'.result
    refine ⟨t, u, t', u', w', ht.exec_eq, hu.exec_eq, ht'.exec_eq, hu'.exec_eq, hw'.exec_eq, ?_⟩
    rw [hu.result.value, hw'.result.value, Nat.mul_mod_mod, Nat.mul_add, Nat.add_mod]
  case sub =>
    obtain ⟨t, ht⟩ := fneg_sets e hF hb
    obtain ⟨u, hu⟩ := fadd_sets d ht.field (ht.keeps hea.symm ha) ht.result
    obtain ⟨w, hw⟩ := fsub_sets d hF ha hb
    refine ⟨t, u, w, ht.exec_eq, hu.exec_eq, hw.exec_eq, ?_⟩
    rw [hu.result.value, hw.result.value, ← sub_mod_eq_neg hltb, Nat.add_mod_mod, mod_of_lt_two_mul (by omega)]
    split <;> split <;> omega

end Sys2Proof.Proofs
end

section
/-!
PROOF. The ring GF(2)[t]/(f), and the field it is for an irreducible `f` (42_binary_field.md R175, R178). Each law of
the model's product is one of its residues. Every polynomial over GF(2) is `polyOf` of a number; so the residues modulo
`f` are as many as the numbers below `2 ^ f.log2`, and an irreducible number is an irreducible polynomial. In the field
of that many elements the power `2 ^ f.log2` of an element is the element, which gives the inverse and the square root.
-/

open Sys2Proof Sys2Proof.Machine

namespace Sys2Proof.Proofs

/-! ## Squares and sums -/

theorem testBit_eq_coeff_polyOf (a i : Nat) : a.testBit i = decide ((polyOf a).coeff i = 1) := by
  cases h : a.testBit i <;> simp [h]

/-- The square of a polynomial over GF(2) is the polynomial in `t ^ 2` (R169). -/
theorem polyOf_clmul_self (x : Nat) : polyOf (clmul x x) = Polynomial.expand (ZMod 2) 2 (polyOf x) := by
  rw [polyOf_clmul, ZMod.expand_card, pow_two]

theorem testBit_clmul_self_even (x i : Nat) : (clmul x x).testBit (2 * i) = x.testBit i := by
  simp only [testBit_eq_coeff_polyOf, polyOf_clmul_self, Polynomial.coeff_expand_mul' two_pos]

theorem testBit_clmul_self_odd (x i : Nat) : (clmul x x).testBit (2 * i + 1) = false := by
  have hodd : ¬2 ∣ 2 * i + 1 := by omega
  rw [testBit_eq_coeff_polyOf, polyOf_clmul_self, Polynomial.coeff_expand two_pos, if_neg hodd]
  simp

theorem clmul_self_xor (x y : Nat) : clmul (x ^^^ y) (x ^^^ y) = clmul x x ^^^ clmul y y :=
  polyOf_injective (by simp [CharTwo.add_mul_self])

theorem pmod_xor {f : Nat} (hf : f ≠ 0) (a b : Nat) : pmod (a ^^^ b) f = pmod a f ^^^ pmod b f :=
  residue_injOn hf (pmod_lt _ hf) (Nat.xor_lt_two_pow (pmod_lt a hf) (pmod_lt b hf)) (by simp)

/-- Settles O46: the residues are a commutative ring, and squaring is linear before the reduction already. -/
theorem binaryRingLaws : Obligations.BinaryRingLaws := by
  unfold Obligations.BinaryRingLaws
  intro f x y z hf hx _ _
  have hf0 : f ≠ 0 := by omega
  have hlt := gfMul_lt hf0
  refine ⟨?comm, ?assoc, ?distrib, ?unit, ?square, rfl⟩
  case comm => exact residue_injOn hf0 (hlt _ _) (hlt _ _) (by simp [mul_comm])
  case assoc => exact residue_injOn hf0 (hlt _ _) (hlt _ _) (by simp [mul_assoc])
  case distrib =>
    exact residue_injOn hf0 (hlt _ _) (Nat.xor_lt_two_pow (hlt _ _) (hlt _ _)) (by simp [mul_add])
  case unit => exact residue_injOn hf0 (hlt _ _) hx (by simp)
  case square => rw [gfSqr, clmul_self_xor, pmod_xor hf0, gfSqr, gfSqr]

/-! ## Repeated squarings -/

theorem gfSqrN_eq_iterate (f k y : Nat) : gfSqrN f k y = (gfSqr f)^[k] y := by
  induction k generalizing y with
  | zero => rfl
  | succ k ih => rw [gfSqrN_succ, ih, Function.iterate_succ_apply]

theorem gfSqr_lt {f : Nat} (hf : f ≠ 0) (y : Nat) : gfSqr f y < 2 ^ f.log2 :=
  pmod_lt _ hf

theorem gfSqrN_lt {f y : Nat} (hf : f ≠ 0) (k : Nat) (hy : y < 2 ^ f.log2) : gfSqrN f k y < 2 ^ f.log2 := by
  induction k generalizing y with
  | zero => exact hy
  | succ k ih => exact ih (gfSqr_lt hf y)

@[simp] theorem residue_gfSqr (f x : Nat) : residue f (gfSqr f x) = residue f x ^ 2 := by
  simp [gfSqr, pow_two]

theorem residue_gfSqrN (f k x : Nat) : residue f (gfSqrN f k x) = residue f x ^ 2 ^ k := by
  induction k generalizing x with
  | zero => simp
  | succ k ih => rw [gfSqrN_succ, ih, residue_gfSqr, ← pow_mul, ← pow_succ']

/-- The loop of R173 and R174 as the sum it computes. -/
theorem traceLoop_eq_foldl (sq : Nat → Nat) (k acc y : Nat) :
    traceLoop sq k acc y = (List.range k).foldl (fun acc i => acc ^^^ sq^[i] y) acc := by
  induction k generalizing acc y with
  | zero => rfl
  | succ k ih =>
    rw [traceLoop_succ, ih, List.range_succ_eq_map, List.foldl_cons, List.foldl_map]
    rfl

theorem traceLoop_lt {sq : Nat → Nat} {n : Nat} (hsq : ∀ y, sq y < 2 ^ n) (k : Nat) {acc y : Nat} (hacc : acc < 2 ^ n)
    (hy : y < 2 ^ n) : traceLoop sq k acc y < 2 ^ n := by
  induction k generalizing acc y with
  | zero => exact hacc
  | succ k ih => exact ih (Nat.xor_lt_two_pow hacc hy) (hsq y)

theorem gfTrace_eq_foldl (f m x : Nat) :
    gfTrace f m x = (List.range m).foldl (fun acc i => acc ^^^ (gfSqr f)^[i] x) 0 :=
  traceLoop_eq_foldl _ _ _ _

/-- Two squarings a turn are the even numbers of squarings (R174). -/
theorem gfHalfTrace_eq_foldl (f m x : Nat) :
    gfHalfTrace f m x = (List.range ((m - 1) / 2 + 1)).foldl (fun acc i => acc ^^^ (gfSqr f)^[2 * i] x) 0 := by
  simp only [Function.iterate_mul]
  exact traceLoop_eq_foldl _ _ _ _

theorem gfHalfTrace_lt {f x : Nat} (hf : f ≠ 0) (m : Nat) (hx : x < 2 ^ f.log2) : gfHalfTrace f m x < 2 ^ f.log2 :=
  traceLoop_lt (fun _ => gfSqr_lt hf _) _ (Nat.two_pow_pos _) hx

/-! ## The field of an irreducible polynomial -/

/-- Every polynomial over GF(2) is read off from a number (00_scope.md R11). -/
theorem polyOf_surjective : Function.Surjective polyOf := fun p => by
  induction p using Polynomial.induction_on' with
  | add p q hp hq =>
    obtain ⟨a, rfl⟩ := hp
    obtain ⟨b, rfl⟩ := hq
    exact ⟨a ^^^ b, polyOf_xor a b⟩
  | monomial n c =>
    obtain rfl | rfl : c = 0 ∨ c = 1 := by revert c; decide
    · exact ⟨0, by simp⟩
    · exact ⟨2 ^ n, by rw [polyOf_two_pow, Polynomial.X_pow_eq_monomial]⟩

/-- Every residue has a representative of a smaller degree than `f`. -/
theorem exists_residue_eq {f : Nat} (hf : f ≠ 0) (r : AdjoinRoot (polyOf f)) : ∃ a < 2 ^ f.log2, residue f a = r := by
  obtain ⟨p, rfl⟩ := AdjoinRoot.mk_surjective r
  obtain ⟨a, rfl⟩ := polyOf_surjective p
  exact ⟨pmod a f, pmod_lt a hf, residue_pmod f a⟩

theorem residue_bijective {f : Nat} (hf : f ≠ 0) :
    Function.Bijective fun a : Fin (2 ^ f.log2) => residue f a.val :=
  ⟨fun a b h => Fin.ext (residue_injOn hf a.isLt b.isLt h), fun r => by
    obtain ⟨a, ha, rfl⟩ := exists_residue_eq hf r
    exact ⟨⟨a, ha⟩, rfl⟩⟩

theorem one_le_log2 {f : Nat} (hf : 2 ≤ f) : 1 ≤ f.log2 :=
  (Nat.le_log2 (by omega)).mpr hf

theorem ne_zero_of_polyIrreducible {f : Nat} (hf : PolyIrreducible f) : f ≠ 0 :=
  Nat.ne_zero_of_lt hf.1

theorem irreducible_polyOf {f : Nat} (hf : PolyIrreducible f) : Irreducible (polyOf f) := by
  obtain ⟨htwo, hfactor⟩ := hf
  refine ⟨fun hunit => ?_, fun {p q} h => ?_⟩
  · have hdeg : (f.log2 : WithBot Nat) ≤ 0 :=
      Polynomial.degree_eq_zero_of_isUnit hunit ▸ le_degree_polyOf (by omega)
    have hlog := one_le_log2 htwo
    have hlog0 : f.log2 ≤ 0 := by exact_mod_cast hdeg
    omega
  · obtain ⟨g, rfl⟩ := polyOf_surjective p
    obtain ⟨k, rfl⟩ := polyOf_surjective q
    rcases hfactor g k (polyOf_injective (by rw [polyOf_clmul, h])) with rfl | rfl <;> simp

/-- In the field of `2 ^ f.log2` elements that power of an element is the element itself. -/
theorem residue_pow_two_pow_log2 {f : Nat} (hf : PolyIrreducible f) (x : Nat) :
    residue f x ^ 2 ^ f.log2 = residue f x := by
  have : Fact (Irreducible (polyOf f)) := ⟨irreducible_polyOf hf⟩
  have hbij := residue_bijective (ne_zero_of_polyIrreducible hf)
  let := Fintype.ofBijective _ hbij
  have hcard : Fintype.card (AdjoinRoot (polyOf f)) = 2 ^ f.log2 := by
    rw [← Fintype.card_of_bijective hbij, Fintype.card_fin]
  rw [← hcard, FiniteField.pow_card]

/-- Fermat's little theorem, as an inverse (R172). -/
theorem gfMul_polyPower_sub_two {f x : Nat} (hf : PolyIrreducible f) (hx : x < 2 ^ f.log2) (hx0 : x ≠ 0) :
    gfMul f x (polyPower f x (2 ^ f.log2 - 2)) = 1 := by
  have : Fact (Irreducible (polyOf f)) := ⟨irreducible_polyOf hf⟩
  have hf0 := ne_zero_of_polyIrreducible hf
  have hlog : 2 ^ 1 ≤ 2 ^ f.log2 := Nat.pow_le_pow_right (by decide) (one_le_log2 hf.1)
  have hne : residue f x ≠ 0 := fun h => hx0 (residue_injOn hf0 hx (Nat.two_pow_pos _) (by simpa [residue] using h))
  refine residue_injOn hf0 (gfMul_lt hf0 _ _) (by omega) (mul_right_cancel₀ hne ?_)
  calc residue f (gfMul f x (polyPower f x (2 ^ f.log2 - 2))) * residue f x
    _ = residue f x ^ (2 ^ f.log2 - 2 + 1 + 1) := by
      rw [residue_gfMul, residue_polyPower, ← pow_succ', ← pow_succ]
    _ = residue f x := by
      rw [show 2 ^ f.log2 - 2 + 1 + 1 = 2 ^ f.log2 by omega, residue_pow_two_pow_log2 hf]
    _ = residue f 1 * residue f x := by rw [residue_one, one_mul]

/-- `M - 1` squarings after one are the `2 ^ M`-th power, which is the element itself (R171). -/
theorem gfSqrN_gfSqr {f x : Nat} (hf : PolyIrreducible f) (hx : x < 2 ^ f.log2) :
    gfSqrN f (f.log2 - 1) (gfSqr f x) = x := by
  have hf0 := ne_zero_of_polyIrreducible hf
  refine residue_injOn hf0 (gfSqrN_lt hf0 _ (gfSqr_lt hf0 x)) hx ?_
  rw [← gfSqrN_succ, residue_gfSqrN, Nat.sub_add_cancel (one_le_log2 hf.1), residue_pow_two_pow_log2 hf]

end Sys2Proof.Proofs
end

section
/-!
PROOF. The binary field (42_binary_field.md). `commit_binaryChecks` says once what the checks of R162 do to any command
that ends in `commit`; `endBinary_binaryCommand` adds the result in `FN` limbs. A command's lemma is then its own
formula: that it agrees with the spec's, and that on elements it gives an element.
-/

open Sys2Proof Sys2Proof.Machine

namespace Sys2Proof.Proofs

/-! ## The installed polynomial -/

theorem binaryDescriptor_of_wf {s : State} (hs : s.wf) (hk : s.kind = .binary) : s.binaryDescriptor := by
  obtain ⟨-, -, -, hbinary⟩ := hs
  exact hbinary hk

/-- Different powers of 2 add up to less than the next one. -/
theorem add_two_pow_lt {x i j : Nat} (hx : x < 2 ^ i) (hij : i < j) : 2 ^ i + x < 2 ^ j :=
  calc 2 ^ i + x
    _ < 2 ^ i + 2 ^ i := Nat.add_lt_add_left hx _
    _ = 2 ^ (i + 1) := by rw [Nat.pow_succ, Nat.mul_two]
    _ ≤ 2 ^ j := Nat.pow_le_pow_right (by decide) hij

/-- `f` is the term of degree `M` and terms of smaller degrees (R160). -/
theorem exists_fieldPoly_eq {s : State} (h : s.binaryDescriptor) :
    ∃ g < 2 ^ s.degree, s.fieldPoly = 2 ^ s.degree + g := by
  obtain ⟨-, -, -, ⟨hk2, hk3, hk1, hk1m⟩ | ⟨hk1, hk12, hk23, hk3m⟩⟩ := h
  · refine ⟨2 ^ s.k1.toNat + 1, add_two_pow_lt (Nat.one_lt_two_pow (by omega)) hk1m, ?_⟩
    rw [State.fieldPoly, if_pos ⟨hk2, hk3⟩, Nat.add_assoc]
  · have hne : ¬(s.k2 = 0 ∧ s.k3 = 0) := by
      rintro ⟨hk2, -⟩
      simp [hk2] at hk12
    refine ⟨2 ^ s.k3.toNat + (2 ^ s.k2.toNat + (2 ^ s.k1.toNat + 1)), ?_, ?_⟩
    · exact add_two_pow_lt (add_two_pow_lt (add_two_pow_lt (Nat.one_lt_two_pow (by omega)) hk12) hk23) hk3m
    · simp only [State.fieldPoly, if_neg hne, Nat.add_assoc]

section descriptor
variable {s : State} (h : s.binaryDescriptor)
include h

theorem degree_pos : 0 < s.degree := by
  obtain ⟨-, ⟨htwo, -⟩, -⟩ := h
  omega

theorem two_le_fieldPoly : 2 ≤ s.fieldPoly := by
  obtain ⟨g, -, hg⟩ := exists_fieldPoly_eq h
  have := Nat.one_lt_two_pow (degree_pos h).ne'
  omega

theorem fieldPoly_ne_zero : s.fieldPoly ≠ 0 :=
  Nat.ne_zero_of_lt (two_le_fieldPoly h)

/-- The polynomial has degree `M` (R160). -/
theorem log2_fieldPoly : s.fieldPoly.log2 = s.degree := by
  obtain ⟨g, hlt, hg⟩ := exists_fieldPoly_eq h
  rw [Nat.log2_eq_iff (fieldPoly_ne_zero h), hg, Nat.pow_succ]
  omega

theorem degree_le_width : s.degree ≤ 32 * s.fieldWords ∧ s.fieldWords ≤ 18 := by
  obtain ⟨-, ⟨-, hmax⟩, hwords, -⟩ := h
  omega

theorem pmod_lt_degree (a : Nat) : pmod a s.fieldPoly < 2 ^ s.degree :=
  log2_fieldPoly h ▸ pmod_lt a (fieldPoly_ne_zero h)

/-- Squarings of an element are elements (R170). -/
theorem gfSqrN_lt_degree (k : Nat) {x : Nat} (hx : x < 2 ^ s.degree) :
    gfSqrN s.fieldPoly k x < 2 ^ s.degree := by
  rw [← log2_fieldPoly h] at hx ⊢
  exact gfSqrN_lt (fieldPoly_ne_zero h) k hx

/-- The product of two elements has a degree of at most `2M - 2` (R166). -/
theorem clmul_lt_of_lt {x y : Nat} (hx : x < 2 ^ s.degree) (hy : y < 2 ^ s.degree) :
    clmul x y < 2 ^ (2 * s.degree - 1) := by
  have hM := degree_pos h
  have hlog : x.log2 < s.degree := by
    rcases Nat.eq_zero_or_pos x with rfl | hpos
    · simpa using hM
    · exact (Nat.log2_lt hpos.ne').mpr hx
  rw [clmul_eq_loop x y s.degree hy]
  exact (clmulLoop_lt x y s.degree).trans_le (Nat.pow_le_pow_right (by decide) (by omega))

end descriptor

/-! What a command that keeps the control state keeps of the field. -/

section sameControl
variable {s t : State} (h : SameControl s t)
include h

theorem degree_of_sameControl : t.degree = s.degree := by
  obtain ⟨-, -, -, -, hm, -⟩ := h
  exact congrArg BitVec.toNat hm

theorem fieldPoly_of_sameControl : t.fieldPoly = s.fieldPoly := by
  have hdeg := degree_of_sameControl h
  obtain ⟨-, -, -, -, -, hk1, hk2, hk3, -⟩ := h
  rw [State.fieldPoly, hdeg, hk1, hk2, hk3, State.fieldPoly]

end sameControl

/-! ## How a command ends -/

/-- Without a binary descriptor no later check counts (R162, R223). -/
theorem firstFailure_binaryChecks_of_kind {s : State} (rest : List (Bool × ErrCode)) (srcs : List VIdx)
    (hk : s.kind ≠ .binary) : firstFailure (s.binaryChecks srcs ++ rest) = some .noField := by
  simp [State.binaryChecks, hk]

theorem firstFailure_binaryChecks_of_noncanonical {s : State} {srcs : List VIdx} (hk : s.kind = .binary)
    (hc : ∃ r ∈ srcs, 2 ^ s.degree ≤ s.srcF r) : firstFailure (s.binaryChecks srcs) = some .element := by
  simpa [State.binaryChecks, hk, State.canonB] using hc

/-- The three cases of R162, for a command whose effect after the checks is `t`. -/
theorem commit_binaryChecks {i : Instr} {s t : State} {srcs : List VIdx}
    (hi : exec i s = commit (firstFailure (s.binaryChecks srcs)) (encode i) s t) :
    (s.kind ≠ .binary → Raises i .noField s) ∧
      (s.kind = .binary → (∃ r ∈ srcs, 2 ^ s.degree ≤ s.srcF r) → Raises i .element s) ∧
      (s.kind = .binary → (∀ r ∈ srcs, s.srcF r < 2 ^ s.degree) → exec i s = .next t) := by
  refine ⟨fun hk => ?noField, fun hk hc => ?element, fun hk hc => ?result⟩
  case noField =>
    have hf := firstFailure_binaryChecks_of_kind [] srcs hk
    rw [List.append_nil] at hf
    rw [Raises, hi, hf]
    rfl
  case element =>
    rw [Raises, hi, firstFailure_binaryChecks_of_noncanonical hk hc]
    rfl
  case result => rw [hi, firstFailure_binaryChecks hk hc, commit_none]

/-- The same for a command that ends in `endBinary` and whose formula agrees with `z` on elements. -/
theorem endBinary_binaryCommand {i : Instr} {s : State} {srcs : List VIdx} {d : VIdx} {z z' : Nat} (hs : s.wf)
    (hi : exec i s = endBinary s (encode i) srcs d z')
    (hz : s.binaryDescriptor → (∀ r ∈ srcs, s.srcF r < 2 ^ s.degree) → z' = z ∧ z < 2 ^ s.degree) :
    BinaryCommand i d srcs z s := by
  obtain ⟨hkind, helement, hresult⟩ := commit_binaryChecks hi
  refine ⟨hkind, helement, fun hk hc => ?_⟩
  have hdesc := binaryDescriptor_of_wf hs hk
  obtain ⟨rfl, hlt⟩ := hz hdesc hc
  obtain ⟨hwidth, hwords⟩ := degree_le_width hdesc
  have hfits : z' < 2 ^ (32 * s.fieldWords) := hlt.trans_le (Nat.pow_le_pow_right (by decide) hwidth)
  exact ⟨_, hresult hk hc, s.val_writeReg_of_lt d s.fieldWords z' (by omega) hfits, hlt, onlyResult_writeReg ..⟩

/-- The same, for a formula that is a remainder as it stands. -/
theorem endBinary_pmod_binaryCommand {i : Instr} {s : State} {srcs : List VIdx} {d : VIdx} {x : Nat} (hs : s.wf)
    (hi : exec i s = endBinary s (encode i) srcs d (pmod x s.fieldPoly)) :
    BinaryCommand i d srcs (pmod x s.fieldPoly) s :=
  endBinary_binaryCommand hs hi fun h _ => ⟨rfl, pmod_lt_degree h x⟩

/-- Two commands with elements as sources and the same result end in the same state. -/
theorem endBinary_congr {s : State} {w w' : Word} {srcs srcs' : List VIdx} {d : VIdx} {z : Nat} (hk : s.kind = .binary)
    (hc : ∀ r ∈ srcs, s.srcF r < 2 ^ s.degree) (hc' : ∀ r ∈ srcs', s.srcF r < 2 ^ s.degree) :
    endBinary s w srcs d z = endBinary s w' srcs' d z := by
  rw [endBinary_pass hk hc, endBinary_pass hk hc']

/-! ## The commands -/

section commands
variable {s : State} (hs : s.wf) (d a b : VIdx)
include hs

theorem badd_binaryCommand : BinaryCommand (.badd d a b) d [a, b] (s.srcF a ^^^ s.srcF b) s :=
  endBinary_binaryCommand hs rfl fun _ hc => ⟨rfl, Nat.xor_lt_two_pow (hc a (by simp)) (hc b (by simp))⟩

theorem bmul_binaryCommand : BinaryCommand (.bmul d a b) d [a, b] (gfMul s.fieldPoly (s.srcF a) (s.srcF b)) s :=
  endBinary_pmod_binaryCommand hs rfl

theorem bsqr_binaryCommand : BinaryCommand (.bsqr d a) d [a] (gfSqr s.fieldPoly (s.srcF a)) s :=
  endBinary_pmod_binaryCommand hs rfl

theorem bred_binaryCommand : BinaryCommand (.bred d a) d [] (pmod (s.val a (2 * s.fieldWords)) s.fieldPoly) s :=
  endBinary_pmod_binaryCommand hs rfl

theorem bsqrn_binaryCommand (k : BitVec 12) :
    BinaryCommand (.bsqrn d a k) d [a] (gfSqrN s.fieldPoly k.toNat (s.srcF a)) s :=
  endBinary_binaryCommand hs rfl fun h hc => ⟨rfl, gfSqrN_lt_degree h _ (hc a (by simp))⟩

theorem bsqrt_binaryCommand : BinaryCommand (.bsqrt d a) d [a] (gfSqrN s.fieldPoly (s.degree - 1) (s.srcF a)) s :=
  endBinary_binaryCommand hs rfl fun h hc => ⟨rfl, gfSqrN_lt_degree h _ (hc a (by simp))⟩

/-- BINV of a value other than 0 passes the check that R162 has for it alone. -/
theorem binv_binaryCommand (ha : s.srcF a ≠ 0) :
    BinaryCommand (.binv d a) d [a] (polyPower s.fieldPoly (s.srcF a) (2 ^ s.degree - 2)) s := by
  have hchecks : firstFailure (s.binaryChecks [a] ++ s.zeroCheck a) = firstFailure (s.binaryChecks [a]) := by
    simp [State.binaryChecks, State.zeroCheck, ha]
  refine endBinary_binaryCommand hs (by rw [endBinary, ← hchecks]; rfl) fun h hc => ⟨?_, ?_⟩
  · exact squareAndMultiplyIsPower _ _ _ (two_le_fieldPoly h) ((log2_fieldPoly h).symm ▸ hc a (by simp))
  · exact log2_fieldPoly h ▸ polyPower_lt (fieldPoly_ne_zero h) _ _

/-- BHTRACE in a field of odd degree passes the check that R162 has for it alone. -/
theorem bhtrace_binaryCommand (hodd : s.degree % 2 = 1) :
    BinaryCommand (.bhtrace d a) d [a] (gfHalfTrace s.fieldPoly s.degree (s.srcF a)) s := by
  have hchecks : firstFailure ([(decide (s.kind ≠ .binary), .noField), (decide (s.degree % 2 = 0), .noField)] ++
      s.binaryChecks [a]) = firstFailure (s.binaryChecks [a]) := by
    by_cases hk : s.kind = .binary <;> simp [State.binaryChecks, hk, hodd]
  refine endBinary_binaryCommand hs (by rw [endBinary, ← hchecks]; rfl) fun h hc => ⟨rfl, ?_⟩
  rw [← log2_fieldPoly h] at hc
  exact log2_fieldPoly h ▸ gfHalfTrace_lt (fieldPoly_ne_zero h) _ (hc a (by simp))

end commands

/-! ## The descriptor and the element check -/

theorem toNat_ofNat_of_le_maxDegree {x : Nat} (h : x ≤ 576) : (BitVec.ofNat 10 x).toNat = x :=
  (BitVec.toNat_ofNat ..).trans (Nat.mod_eq_of_lt (by omega))

theorem toNat_ofNat_wordsOfDegree {m : Nat} (h : m ≤ 576) : (BitVec.ofNat 5 (wordsOfDegree m)).toNat = (m + 31) / 32 :=
  (BitVec.toNat_ofNat ..).trans (Nat.mod_eq_of_lt (show (m + 31) / 32 < 2 ^ 5 by omega))

/-- Settles O48: an accepted degree and the exponents below it fit in 10 bits, its word count in 5. -/
theorem bsetfInstalls : Obligations.BsetfInstalls := by
  unfold Obligations.BsetfInstalls
  rintro s a m k1 k2 k3 - rfl rfl rfl rfl
  refine ⟨fun ⟨hmin, hmax, hexps⟩ => ?accepted, fun hbad => ?refused⟩
  case accepted =>
    have hi : exec (.bsetf a) s = .next (s.installBinary (s.limb a 0).toNat (s.limb a 1).toNat (s.limb a 2).toNat
        (s.limb a 3).toNat) := by
      simp [exec, execBsetf, show binaryDescOk _ _ _ _ = true from decide_eq_true ⟨⟨hmin, hmax⟩, hexps⟩]
    refine ⟨_, hi, rfl, toNat_ofNat_of_le_maxDegree hmax, toNat_ofNat_of_le_maxDegree (by omega),
      toNat_ofNat_of_le_maxDegree (by omega), toNat_ofNat_of_le_maxDegree (by omega), ?_, ?_, fun j => ?_, rfl⟩
    · rw [State.installBinary_fn, toNat_ofNat_wordsOfDegree hmax]
      omega
    · rw [State.installBinary_fn, toNat_ofNat_wordsOfDegree hmax]
      omega
    · simp
  case refused =>
    have hbad : binaryDescOk (s.limb a 0).toNat (s.limb a 1).toNat (s.limb a 2).toNat (s.limb a 3).toNat = false :=
      decide_eq_false fun ⟨⟨hmin, hmax⟩, hexps⟩ => hbad ⟨hmin, hmax, hexps⟩
    simp [Raises, exec, execBsetf, hbad, State.raise]

section elementCheck
variable {s : State} {w : Word} {kind : Kind}

theorem endElementCheck_of_kind_ne {good : Bool} (hk : s.kind ≠ kind) :
    endElementCheck s w kind good = .next (s.raise .noField w) :=
  if_pos hk

theorem endElementCheck_true (hk : s.kind = kind) : endElementCheck s w kind true = .next (s.setT true) := by
  simp [endElementCheck, hk]

theorem endElementCheck_false (hk : s.kind = kind) :
    endElementCheck s w kind false = .next ((s.setT false).raise .element w) := by
  simp [endElementCheck, hk]

end elementCheck

/-- Settles O49, by the three cases of `endElementCheck`. -/
theorem bchkVerdict : Obligations.BchkVerdict := by
  unfold Obligations.BchkVerdict
  intro s a _
  refine ⟨endElementCheck_of_kind_ne, fun hk hx => ?good, fun hk hx => ?bad⟩
  case good =>
    have hgood : s.canonB a = true := decide_eq_true hx
    rw [exec, execBchk, hgood, endElementCheck_true hk, State.setT]
  case bad =>
    have hbad : s.canonB a = false := decide_eq_false (Nat.not_lt.mpr hx)
    rw [exec, execBchk, hbad, endElementCheck_false hk]
    rfl

/-! ## Sums, products and remainders -/

/-- One limb of an exclusive-or (R165). -/
theorem ofNat_xor_div (x y j : Nat) :
    BitVec.ofNat 32 ((x ^^^ y) / 2 ^ (32 * j)) =
      BitVec.ofNat 32 (x / 2 ^ (32 * j)) ^^^ BitVec.ofNat 32 (y / 2 ^ (32 * j)) := by
  rw [Nat.xor_div_two_pow, BitVec.ofNat_xor]

/-- Settles O50: a limb of the result is a slice of the exclusive-or of the operands. -/
theorem baddResult : Obligations.BaddResult := by
  unfold Obligations.BaddResult
  intro s d a b hs _
  refine ⟨badd_binaryCommand hs d a b, fun hk ha hb => ⟨_, endBinary_pass hk (by simp [ha, hb]), fun j hj => ?_⟩⟩
  obtain ⟨-, hwords⟩ := degree_le_width (binaryDescriptor_of_wf hs hk)
  have h36 : j < 36 := by omega
  rw [State.limb_writeReg, if_pos ⟨rfl, hj, h36⟩, ofNat_xor_div, s.limb_eq_ofNat_val a _ j hj h36,
    s.limb_eq_ofNat_val b _ j hj h36]
  rfl

/-- BMULX of two elements: the whole product fits in the `2 FN` limbs that it writes (R166). -/
theorem bmulx_next {s : State} (d : VIdx) {a b : VIdx} (hs : s.wf) (hk : s.kind = .binary)
    (ha : s.srcF a < 2 ^ s.degree) (hb : s.srcF b < 2 ^ s.degree) :
    ∃ t, exec (.bmulx d a b) s = .next t ∧ t.val d (2 * s.fieldWords) = clmul (s.srcF a) (s.srcF b) ∧
      clmul (s.srcF a) (s.srcF b) < 2 ^ (2 * s.degree - 1) ∧ OnlyResult s t d (2 * s.fieldWords) := by
  obtain ⟨-, -, hresult⟩ := commit_binaryChecks (i := .bmulx d a b) (s := s) rfl
  have hdesc := binaryDescriptor_of_wf hs hk
  obtain ⟨hwidth, hwords⟩ := degree_le_width hdesc
  have hlt := clmul_lt_of_lt hdesc ha hb
  have hfits := hlt.trans_le (Nat.pow_le_pow_right (by decide) (show _ ≤ 32 * (2 * s.fieldWords) by omega))
  exact ⟨_, hresult hk (by simp [ha, hb]), s.val_writeReg_of_lt d _ _ (by omega) hfits, hlt, onlyResult_writeReg ..⟩

/-- Settles O52: the errors are those of R162. -/
theorem bmulxResult : Obligations.BmulxResult := by
  unfold Obligations.BmulxResult
  intro s d a b hs _
  obtain ⟨hkind, helement, -⟩ := commit_binaryChecks (i := .bmulx d a b) (s := s) rfl
  exact ⟨hkind, fun hk h => helement hk (by simpa using h), bmulx_next d hs⟩

/-- Settles O53: no source is checked, and every remainder fits. -/
theorem bredResult : Obligations.BredResult := by
  unfold Obligations.BredResult
  exact fun s d a hs _ => bred_binaryCommand hs d a

/-- Settles O51: BRED finds in the scratch register the product whose remainder BMUL computes. -/
theorem bmulBsqrResult : Obligations.BmulBsqrResult := by
  unfold Obligations.BmulBsqrResult
  intro s d e a b hs _
  refine ⟨bmul_binaryCommand hs d a b, bsqr_binaryCommand hs d a,
    fun i => ⟨testBit_clmul_self_even _ i, testBit_clmul_self_odd _ i⟩, fun hk ha => ?square, fun hk ha hb => ?reduce⟩
  case square => exact endBinary_congr hk (by simp [ha]) (by simp [ha])
  case reduce =>
    obtain ⟨t, ht, hprod, -, -, -, -, hctl⟩ := bmulx_next e hs hk ha hb
    obtain ⟨-, -, hred⟩ := bred_binaryCommand (wf_of_sameControl hctl hs) e e
    obtain ⟨u, hu, hz, -⟩ := hred ((kind_of_sameControl hctl).trans hk) (by simp)
    obtain ⟨-, -, hmul⟩ := bmul_binaryCommand hs d a b
    obtain ⟨w, hw, hz', -⟩ := hmul hk (by simp [ha, hb])
    refine ⟨t, u, w, ht, hu, hw, ?_⟩
    rw [hz, hz', fieldWords_of_sameControl hctl, hprod, fieldPoly_of_sameControl hctl, gfMul]

/-! ## Squarings, inverses and traces -/

/-- Settles O54: the count is that of the iteration, and 0 is no legal immediate. -/
theorem bsqrnBsqrtResult : Obligations.BsqrnBsqrtResult := by
  unfold Obligations.BsqrnBsqrtResult
  refine ⟨fun s d a k hs _ _ => ⟨?bsqrn, ?bsqrt, fun hk ha => ?once⟩,
    fun d a => ⟨.immediateRange, (decode_encode_fields _).trans (decodeDK_fields ..)⟩⟩
  case bsqrn => exact gfSqrN_eq_iterate s.fieldPoly _ _ ▸ bsqrn_binaryCommand hs d a k
  case bsqrt => exact gfSqrN_eq_iterate s.fieldPoly _ _ ▸ bsqrt_binaryCommand hs d a
  case once => exact endBinary_congr hk (by simp [ha]) (by simp [ha])

/-- Settles O55: zero is an element, so that it passes the checks before its own. -/
theorem binvResult : Obligations.BinvResult := by
  unfold Obligations.BinvResult
  intro s d a hs _
  refine ⟨fun hk h0 => ?zero, binv_binaryCommand hs d a, fun hk => ?noField⟩
  case zero =>
    have hchecks : firstFailure (s.binaryChecks [a] ++ s.zeroCheck a) = some .invZero := by
      simp [State.binaryChecks, State.zeroCheck, State.canonB, hk, h0]
    rw [Raises, exec, execBinv, hchecks]
    rfl
  case noField =>
    rw [Raises, exec, execBinv, firstFailure_binaryChecks_of_kind _ _ hk]
    rfl

/-- Settles O56, by Fermat's little theorem in the field of `2 ^ M` elements. -/
theorem binvIsInverse : Obligations.BinvIsInverse := by
  unfold Obligations.BinvIsInverse
  intro s d a hs _ hk hirr hlt h0
  obtain ⟨-, -, hresult⟩ := binv_binaryCommand hs d a h0
  obtain ⟨t, ht, hz, -⟩ := hresult hk (by simpa using hlt)
  have hdeg := log2_fieldPoly (binaryDescriptor_of_wf hs hk)
  refine ⟨t, ht, ?_⟩
  rw [hz, ← hdeg]
  exact gfMul_polyPower_sub_two hirr (hdeg ▸ hlt) h0

/-- Settles O57: BSQRT finds the square in the scratch register and the polynomial as it was. -/
theorem bsqrtUndoesBsqr : Obligations.BsqrtUndoesBsqr := by
  unfold Obligations.BsqrtUndoesBsqr
  intro s d e a hs _ hk hirr hlt
  obtain ⟨-, -, hsqr⟩ := bsqr_binaryCommand hs e a
  obtain ⟨t, ht, hsq, hcanon, -, -, -, hctl⟩ := hsqr hk (by simpa using hlt)
  obtain ⟨-, -, hsqrt⟩ := bsqrt_binaryCommand (wf_of_sameControl hctl hs) d e
  have hdegt := degree_of_sameControl hctl
  obtain ⟨u, hu, hz, -⟩ := hsqrt ((kind_of_sameControl hctl).trans hk) (by simpa [hdegt, hsq] using hcanon)
  refine ⟨t, u, ht, hu, ?_⟩
  have hdeg := log2_fieldPoly (binaryDescriptor_of_wf hs hk)
  rw [hz, fieldPoly_of_sameControl hctl, hdegt, hsq, ← hdeg]
  exact gfSqrN_gfSqr hirr (hdeg ▸ hlt)

/-- Settles O58: the trace loop is the sum, and only T is written. -/
theorem btraceVerdict : Obligations.BtraceVerdict := by
  unfold Obligations.BtraceVerdict
  intro s a _ _
  obtain ⟨hkind, helement, hresult⟩ := commit_binaryChecks (i := .btrace a) (s := s) (srcs := [a]) rfl
  refine ⟨hkind, fun hk h => helement hk (by simpa using h),
    fun hk h => ⟨_, hresult hk (by simpa using h), ?frame, ?verdict⟩⟩
  case frame => exact ⟨rfl, rfl, by simp [SameControl]⟩
  case verdict => exact congrArg (·.testBit 0) (gfTrace_eq_foldl ..)

/-- Settles O59: the half-trace loop is the sum; an even degree fails the second check. -/
theorem bhtraceResult : Obligations.BhtraceResult := by
  unfold Obligations.BhtraceResult
  intro s d a hs _
  refine ⟨fun _ heven => ?even, fun hodd => ?odd, fun hk => ?noField⟩
  case even => simp [Raises, exec, execBhtrace, heven, State.raise]
  case odd => exact gfHalfTrace_eq_foldl s.fieldPoly _ _ ▸ bhtrace_binaryCommand hs d a hodd
  case noField => simp [Raises, exec, execBhtrace, hk, State.raise]

end Sys2Proof.Proofs
end

section
/-!
PROOF. Runs (43_system_commands.md R207, R208). A step never fails, since every command ends in an effect. No host
action looks at the inbox: it is performed alike with other actions still to come. So the steps of a run do one by one
what the fold of the access rules does.
-/

open Sys2Proof Sys2Proof.Machine

namespace Sys2Proof.Proofs

/-! ## Every step answers a next state -/

theorem hold_next (w : Word) (s : State) : ∃ t, hold w s = .next t := by
  unfold hold
  split
  · exact ⟨_, rfl⟩
  · split <;> exact ⟨_, rfl⟩

/-- A word written to CMD ends in a next state, pending error or not (60_exceptions.md R223, R225). -/
theorem issue_next (w : Word) (s : State) : ∃ t, issue w s = .next t := by
  by_cases herr : s.err = .none
  · cases hw : decode w with
    | error e => exact ⟨_, issue_of_decode_error herr hw⟩
    | ok i =>
      obtain ⟨e, -, he⟩ := exec_effect i s
      exact ⟨_, (issue_of_decode_ok herr hw).trans he⟩
  · obtain ⟨t, ht⟩ := hold_next w s
    exact ⟨t, (issue_of_err herr).trans ht⟩

theorem portRead_next (addr : Addr) (s : State) : ∃ t, portRead addr s = .next t := by
  unfold portRead
  split <;> exact ⟨_, rfl⟩

theorem portWrite_next (addr : Addr) (x : Word) (s : State) : ∃ t, portWrite addr x s = .next t := by
  unfold portWrite
  cases locate addr with
  | cmd =>
    obtain ⟨t, ht⟩ := issue_next x s
    exact ⟨t.respond .ok none, congrArg (onNext _) ht⟩
  | _ => exact ⟨_, rfl⟩

theorem portReject_next (kind : AccessKind) (s : State) : ∃ t, portReject kind s = .next t := by
  cases kind <;> exact ⟨_, rfl⟩

/-- Every host action ends in a next state (43_system_commands.md R208). -/
theorem perform_next (a : HostAction) (s : State) : ∃ t, perform a s = .next t := by
  cases a with
  | rst => exact ⟨_, rfl⟩
  | access r =>
    simp only [perform, access]
    split
    · split
      · exact portRead_next ..
      · exact portWrite_next ..
    · exact portReject_next ..

/-- Settles O13: an idle step keeps the state, any other performs a host action. -/
theorem stepAnswersNext : Obligations.StepAnswersNext := by
  unfold Obligations.StepAnswersNext
  intro s
  cases hs : s.inbox with
  | nil => exact ⟨s, step_of_inbox_nil hs⟩
  | cons a rest => exact step_of_inbox_cons hs ▸ perform_next a _

/-! ## What a host action does to the port's side -/

theorem issue_port {w : Word} {s t : State} (h : issue w s = .next t) : t.inbox = s.inbox ∧ t.outbox = s.outbox := by
  rcases issue_cases h with ⟨-, rfl | ⟨-, rfl⟩ | ⟨-, -, rfl⟩⟩ | ⟨-, ⟨-, rfl⟩ | ⟨i, -, hexec⟩⟩
  · exact ⟨rfl, rfl⟩
  · exact ⟨rfl, rfl⟩
  · exact ⟨State.clearErr_inbox s, State.clearErr_outbox s⟩
  · exact ⟨rfl, rfl⟩
  · obtain ⟨-, -, -, -, hport⟩ := controlWriters i s t hexec
    exact hport

/-- An access gives one response and takes no action from the inbox (20_memory.md R50). -/
theorem access_port {r : Request} {s t : State} (h : perform (.access r) s = .next t) :
    t.inbox = s.inbox ∧ t.outbox.length = s.outbox.length + 1 := by
  rcases perform_cases h with ⟨hr, -⟩ | ⟨st, x, rfl⟩ | ⟨w, u, hu, rfl⟩ | ⟨x, rfl⟩ | ⟨i, j, x, rfl⟩
  · cases hr
  · simp
  · obtain ⟨hin, hout⟩ := issue_port hu
    simp [hin, hout]
  · simp
  · simp

theorem runProgram_cons {a : HostAction} {s t : State} (rest : List HostAction) (h : perform a s = .next t) :
    runProgram (a :: rest) s = runProgram rest t := by
  simp only [runProgram, h]

/-- The fold of the access rules ends, with one response for each access (43_system_commands.md R207). -/
theorem runProgram_ends (actions : List HostAction) (s : State) :
    ∃ t, runProgram actions s = .next t ∧ t.inbox = s.inbox ∧
      t.outbox.length = s.outbox.length + (actions.filter (fun h => decide (h ≠ .rst))).length := by
  induction actions generalizing s with
  | nil => exact ⟨s, rfl, rfl, rfl⟩
  | cons a rest ih =>
    obtain ⟨t, ht⟩ := perform_next a s
    obtain ⟨u, hu, hin, hout⟩ := ih t
    refine ⟨u, (runProgram_cons rest ht).trans hu, ?_⟩
    cases a with
    | rst =>
      obtain rfl : s.resetArch = t := by simpa [perform] using ht
      exact ⟨hin, hout⟩
    | access r =>
      obtain ⟨htin, htout⟩ := access_port ht
      refine ⟨hin.trans htin, ?_⟩
      rw [hout, htout]
      simp
      omega

/-! ## No host action looks at the inbox -/

/-- `s` with other host actions still to come. -/
def withInbox (l : List HostAction) (s : State) : State :=
  { s with inbox := l }

section withInbox
variable (l : List HostAction)

theorem commit_withInbox {f : Option ErrCode} {w : Word} {s t t' : State} (ht : t' = withInbox l t) :
    commit f w (withInbox l s) t' = onNext (withInbox l) (commit f w s t) := by
  subst ht
  cases f <;> rfl

theorem clearErr_withInbox (s : State) : (withInbox l s).clearErr = withInbox l s.clearErr := by
  by_cases hs : s.err = .invZero <;> simp [State.clearErr, withInbox, hs]

theorem endElementCheck_withInbox (s : State) (w : Word) (kind : Kind) (good : Bool) :
    endElementCheck (withInbox l s) w kind good = onNext (withInbox l) (endElementCheck s w kind good) := by
  by_cases hk : s.kind = kind
  · cases good <;> simp [endElementCheck, withInbox, hk, State.raise, State.setT]
  · simp [endElementCheck, withInbox, hk, State.raise]

/-- No command looks at the inbox: its checks and results are those of the state without it. -/
theorem exec_withInbox (i : Instr) (s : State) : exec i (withInbox l s) = onNext (withInbox l) (exec i s) := by
  cases i with
  | nop | setn | sreset | add | sub | inc | dec | mul | sqr | shl1 | shr1 | shln | shrn | gte | iszero | isone => rfl
  | clrerr => exact congrArg Host.Outcome.next (clearErr_withInbox l s)
  | fchk | bchk => exact endElementCheck_withInbox l s _ _ _
  | _ => exact commit_withInbox l rfl

theorem hold_withInbox (w : Word) (s : State) : hold w (withInbox l s) = onNext (withInbox l) (hold w s) := by
  unfold hold
  rw [exec_withInbox, exec_withInbox, apply_ite (onNext (withInbox l)), apply_ite (onNext (withInbox l))]
  rfl

theorem issue_withInbox (w : Word) (s : State) : issue w (withInbox l s) = onNext (withInbox l) (issue w s) := by
  by_cases herr : s.err = .none
  · cases hw : decode w with
    | error e => rw [issue_of_decode_error herr hw, issue_of_decode_error (s := withInbox l s) herr hw]; rfl
    | ok i => rw [issue_of_decode_ok herr hw, issue_of_decode_ok (s := withInbox l s) herr hw, exec_withInbox]
  · rw [issue_of_err herr, issue_of_err (s := withInbox l s) herr, hold_withInbox]

theorem portRead_withInbox (addr : Addr) (s : State) :
    portRead addr (withInbox l s) = onNext (withInbox l) (portRead addr s) := by
  rw [portRead, portRead, withInbox, readLoc_inbox]
  cases s.readLoc (locate addr) <;> rfl

theorem portWrite_withInbox (addr : Addr) (x : Word) (s : State) :
    portWrite addr x (withInbox l s) = onNext (withInbox l) (portWrite addr x s) := by
  unfold portWrite
  cases locate addr with
  | cmd =>
    simp only [issue_withInbox]
    cases issue x s <;> rfl
  | _ => rfl

theorem portReject_withInbox (kind : AccessKind) (s : State) :
    portReject kind (withInbox l s) = onNext (withInbox l) (portReject kind s) := by
  cases kind <;> rfl

/-- A host action does the same whatever is to come after it. -/
theorem perform_withInbox (a : HostAction) (s : State) :
    perform a (withInbox l s) = onNext (withInbox l) (perform a s) := by
  cases a with
  | rst => rfl
  | access r =>
    simp only [perform, access]
    split
    · split
      · exact portRead_withInbox ..
      · exact portWrite_withInbox ..
    · exact portReject_withInbox ..

end withInbox

/-! ## Runs -/

theorem run_succ {s t : State} (k : Nat) (h : step s = .next t) :
    Sys2Proof.core.run (k + 1) s = Sys2Proof.core.run k t := by
  have hcore : Sys2Proof.core.step s = .next t := h
  simp only [Host.Core.run, hcore]

/-- One step takes the first action and leaves the others to come. -/
theorem step_withInbox_cons {a : HostAction} {s t : State} (rest : List HostAction) (h : perform a s = .next t) :
    step (withInbox (a :: rest) s) = .next (withInbox rest t) := by
  have hstep : step (withInbox (a :: rest) s) = perform a (withInbox rest s) := step_of_inbox_cons rfl
  rw [hstep, perform_withInbox, h, onNext_next]

/-- As many steps as there are host actions perform them all (43_system_commands.md R207). -/
theorem run_withInbox (actions : List HostAction) (s : State) :
    Sys2Proof.core.run actions.length (withInbox actions s) = onNext (withInbox []) (runProgram actions s) := by
  induction actions generalizing s with
  | nil => rfl
  | cons a rest ih =>
    obtain ⟨t, ht⟩ := perform_next a s
    rw [runProgram_cons rest ht]
    exact (run_succ _ (step_withInbox_cons rest ht)).trans (ih t)

/-- Settles O14: the fold ends with the inbox it began with, which is empty. -/
theorem runIsFoldOfActions : Obligations.RunIsFoldOfActions := by
  unfold Obligations.RunIsFoldOfActions
  intro s
  obtain ⟨t, ht, hin, hout⟩ := runProgram_ends s.inbox (withInbox [] s)
  have hempty : withInbox [] t = t := by
    rw [withInbox, ← show t.inbox = [] from hin]
  have hfold : onNext (withInbox []) (runProgram s.inbox (withInbox [] s)) = .next t := by
    rw [ht, onNext_next, hempty]
  have hrun : Sys2Proof.core.run s.inbox.length s = .next t :=
    (run_withInbox s.inbox (withInbox [] s)).trans hfold
  exact ⟨hrun.trans ht.symm, t, hrun, hin, hout⟩

end Sys2Proof.Proofs
end

section
/-!
PROOF. The system commands (43_system_commands.md R200 to R203). Their opcodes leave one word each to NOP, CLRERR and
SRESET and 18 to SETN; every other word with one of these opcodes does not decode, which settles what it does with and
without an error pending.
-/

open Sys2Proof Sys2Proof.Machine

namespace Sys2Proof.Proofs

/-! ## The words of the system opcodes -/

section words
variable {w : Word}

/-- The opcode of a word is its top byte (30_encoding.md R81), and the format it decodes in depends on nothing else. -/
theorem decode_of_op {op : BitVec 8} (hop : w.toNat / 2 ^ 24 = op.toNat) :
    decode w = decodeFields { fieldsOf w with op := op } := by
  have hfield : (fieldsOf w).op = op := by
    apply BitVec.eq_of_toNat_eq
    rw [fieldsOf, BitVec.extractLsb'_toNat, Nat.shiftRight_eq_div_pow, hop, Nat.mod_eq_of_lt op.isLt]
  rw [← hfield, decode]

/-- A command of format Z has one word (R82); any other word of its opcode does not decode. -/
theorem decode_error_of_formatZ {op : BitVec 8} (i : Instr) (hop : w.toNat / 2 ^ 24 = op.toNat)
    (hdec : ∀ f : Fields, decodeFields { f with op := op } = decodeZ f i) (hw : w ≠ encode i) :
    ∃ e, decode w = .error e := by
  cases hd : decode w with
  | error e => exact ⟨e, rfl⟩
  | ok j =>
    have hj : decodeZ (fieldsOf w) i = .ok j := by rw [← hdec, ← decode_of_op hop, hd]
    obtain ⟨rfl, -⟩ := decodeZ_eq_ok hj
    obtain ⟨henc, -⟩ := encodeOfDecode w j hd
    exact absurd henc.symm hw

/-- SETN's word: its opcode and the count (30_encoding.md R95). -/
theorem encode_setn (n : BitVec 5) : encode (.setn n) = 0x01000000 + n.setWidth 32 := by
  revert n
  decide

theorem toNat_encode_setn_mod (n : BitVec 5) : (encode (.setn n)).toNat % 2 ^ 24 = n.toNat := by
  revert n
  decide

/-- Below SETN's opcode stands nothing but a legal count (R83). -/
theorem decode_setn_error (hop : w.toNat / 2 ^ 24 = 1) (hw : ¬ (1 ≤ w.toNat % 2 ^ 24 ∧ w.toNat % 2 ^ 24 ≤ 18)) :
    ∃ e, decode w = .error e := by
  have hdec : decode w = decodeI (fieldsOf w) .setn := decode_of_op (op := 0x01) hop
  cases hd : decode w with
  | error e => exact ⟨e, rfl⟩
  | ok j =>
    obtain ⟨n, rfl, hn, -⟩ := decodeI_eq_ok (hdec.symm.trans hd)
    obtain ⟨rfl, -⟩ := encodeOfDecode w _ hd
    rw [toNat_encode_setn_mod] at hw
    exact absurd (setn_wellFormed hn) hw

theorem decode_setn {n : BitVec 5} (h1 : 1 ≤ n.toNat) (h18 : n.toNat ≤ 18) :
    decode (0x01000000 + n.setWidth 32) = .ok (.setn n) := by
  rw [← encode_setn]
  exact decodeOfEncode _ (decide_eq_true ⟨h1, h18⟩)

end words

/-! ## What the words do -/

section issue
variable {s : State} {w : Word}

/-- In an error hold every word but those of SRESET and CLRERR is dropped (60_exceptions.md R225). -/
theorem issue_dropped (herr : s.err ≠ .none) (hc : w ≠ clrerrWord) (hs : w ≠ sresetWord) : issue w s = .next s := by
  rw [issue_of_err herr, hold, if_neg hs, if_neg (fun h => hc h.1)]

/-- An illegal word raises E_ILLEGAL, or is dropped while an error is pending (30_encoding.md R86, R225). -/
theorem issue_illegal (hw : ∃ e, decode w = .error e) (s : State) :
    issue w s = .next (if s.err = .none then s.raise .illegal w else s) := by
  obtain ⟨e, he⟩ := hw
  by_cases herr : s.err = .none
  · rw [issue_of_decode_error herr he, if_pos herr]
  · have hc : w ≠ clrerrWord := by
      rintro rfl
      cases he
    have hs : w ≠ sresetWord := by
      rintro rfl
      cases he
    rw [issue_dropped herr hc hs, if_neg herr]

/-- SRESET's word acts in every state (70_reset_and_hazards.md R262). -/
theorem issue_sreset (s : State) : issue sresetWord s = .next s.resetArch := by
  by_cases herr : s.err = .none
  · exact issue_of_decode_ok (i := .sreset) herr rfl
  · rw [issue_of_err herr, hold, if_pos rfl]
    rfl

/-- The return from an error that is neither absent nor fatal (60_exceptions.md R226, R227). -/
theorem clearErr_of_ne (h : s.err ≠ .invZero) : s.clearErr = { s with err := .none } :=
  if_neg h

theorem clearErr_of_none_or_fatal (h : s.err = .none ∨ s.err = .invZero) : s.clearErr = s := by
  rcases h with h | h
  · rw [clearErr_of_ne (by simp [h]), ← h]
  · exact if_pos h

end issue

/-- Settles O9: SRESET's word is the one that decodes under its opcode, and it acts in the error hold too. -/
theorem sresetResets : Obligations.SresetResets := by
  unfold Obligations.SresetResets
  intro s
  refine ⟨⟨s.resetArch, rfl, ?fields⟩, fun rest h => ?word, fun w rest hop hw h => ?illegal⟩
  case fields =>
    exact ⟨limb_reset, rfl, rfl, rfl, rfl, rfl, p_reset, rfl, rfl, rfl, rfl, rfl, rfl, rfl, rfl⟩
  case word => exact (step_writeCmd h).trans (congrArg (onNext _) (issue_sreset _))
  case illegal =>
    have hdec : ∃ e, decode w = .error e := decode_error_of_formatZ (op := 0x03) .sreset hop (fun _ => rfl) hw
    rw [step_writeCmd h, issue_illegal hdec, onNext_next]
    exact congrArg Host.Outcome.next (apply_ite (State.respond · .ok none) ..)

/-- Settles O24: what each command does, and the words of its opcode that are not its own. -/
theorem systemCommandResults : Obligations.SystemCommandResults := by
  unfold Obligations.SystemCommandResults
  refine ⟨fun s => ⟨rfl, fun n _ _ => rfl, fun h => ?idle, fun h => ?cleared, fun herr w => issue_dropped herr⟩,
    fun w => ⟨fun h => issue_illegal ?illegal, fun n => decode_setn, rfl, rfl⟩⟩
  case idle => exact congrArg Host.Outcome.next (clearErr_of_none_or_fatal h)
  case cleared =>
    have hne : s.err ≠ .invZero := by
      rcases h with h | h | h | h <;> simp [h]
    exact congrArg Host.Outcome.next (clearErr_of_ne hne)
  case illegal =>
    rcases h with ⟨hop, hw⟩ | ⟨hop, hw⟩ | ⟨hop, hw⟩
    · exact decode_error_of_formatZ (op := 0x00) .nop hop (fun _ => rfl) hw
    · exact decode_setn_error hop hw
    · exact decode_error_of_formatZ (op := 0x02) .clrerr hop (fun _ => rfl) hw

end Sys2Proof.Proofs
end

section
/-!
PROOF. Errors (60_exceptions.md R224 to R229): what a command that raises one has written, what still acts while one is
pending, and how the fatal one ends. No access but a word for CMD writes ERR, and the error hold says what that word
does.
-/

open Sys2Proof Sys2Proof.Machine

namespace Sys2Proof.Proofs

/-- Settles O16: only `raise` and `rejectElement` leave an error pending where none was. -/
theorem errorsArePrecise : Obligations.ErrorsArePrecise := by
  unfold Obligations.ErrorsArePrecise
  intro i s t herr h hne
  obtain ⟨e, he, rfl⟩ := exec_cases h
  cases e with
  | raise e w =>
    obtain ⟨-, rfl⟩ := he
    exact .inl rfl
  | rejectElement w =>
    obtain ⟨rfl, hi⟩ := he
    exact .inr ⟨rfl, hi⟩
  | _ => simp [herr] at hne

/-! ## The error hold -/

/-- In an error hold SRESET resets, CLRERR clears an error that is not fatal, and every other word is dropped
(60_exceptions.md R225). -/
theorem hold_eq (w : Word) (s : State) :
    hold w s = .next
      (if w = sresetWord then s.resetArch
      else if w = clrerrWord ∧ s.err ≠ .invZero then { s with err := .none }
      else s) := by
  unfold hold
  split
  · rfl
  · split
    next hw => exact congrArg Host.Outcome.next (clearErr_of_ne hw.2)
    next => rfl

/-- Settles O8: words go through the error hold, reads and writes of CW and V limbs go past it. -/
theorem errorHold : Obligations.ErrorHold := by
  unfold Obligations.ErrorHold
  refine fun s rest herr => ⟨fun w h => ?word, fun addr d x ha h hx => step_read h ha hx, fun x => step_writeCw,
    fun i j x h => ⟨_, step_writeLimb h, (limb_writeLimb ..).trans (if_pos ⟨rfl, rfl⟩), rfl⟩⟩
  case word =>
    have hhold : issue w { s with inbox := rest } = hold w { s with inbox := rest } := issue_of_err herr
    rw [step_writeCmd h, hhold, hold_eq, onNext_next, apply_ite (State.respond · .ok none),
      apply_ite (State.respond · .ok none)]
    rfl

/-! ## The fatal error -/

/-- While the fatal error is pending a word resets or is dropped, CLRERR's too (60_exceptions.md R227). -/
theorem issue_of_fatal {w : Word} {s t : State} (herr : s.err = .invZero) (h : issue w s = .next t) :
    (w = sresetWord ∧ t = s.resetArch) ∨ t = s := by
  rcases issue_cases h with ⟨-, rfl | hreset | ⟨-, hne, -⟩⟩ | ⟨hnone, -⟩
  · exact .inr rfl
  · exact .inl hreset
  · exact absurd herr hne
  · simp [herr] at hnone

/-- CMD stands at 0x0004 and nowhere else (10_state.md R32). -/
theorem eq_of_locate_eq_cmd {addr : Addr} (h : locate addr = .cmd) : addr = 0x0004 := by
  apply BitVec.eq_of_toNat_eq
  simp only [locate] at h
  split_ifs at h with h0 h4
  exact h4

/-- No access but a word written to CMD writes ERR (10_state.md R30, 20_memory.md R53). -/
theorem access_err_cases {r : Request} {s t : State} (h : perform (.access r) s = .next t) :
    (∃ w u, r = ⟨.write, 0x0004, 4, w⟩ ∧ issue w s = .next u ∧ t = u.respond .ok none) ∨ t.err = s.err := by
  obtain ⟨kind, addr, size, w⟩ := r
  simp only [perform, access] at h
  split at h
  next hlegal =>
    obtain ⟨rfl, -⟩ : size = 4 ∧ addr.toNat % 4 = 0 := of_decide_eq_true hlegal
    cases kind with
    | read =>
      obtain ⟨st, x, rfl⟩ := portRead_cases h
      exact .inr rfl
    | write =>
      rcases portWrite_cases h with ⟨hcmd, u, hu, rfl⟩ | ⟨-, rfl⟩ | ⟨i, j, -, rfl⟩ | rfl
      · obtain rfl := eq_of_locate_eq_cmd hcmd
        exact .inl ⟨w, u, rfl, hu, rfl⟩
      all_goals exact .inr rfl
  next =>
    cases kind <;> (cases h; exact .inr rfl)

/-- Settles O15: the pin resets, and no access but SRESET's word changes a fatal ERR. -/
theorem fatalErrorStays : Obligations.FatalErrorStays := by
  unfold Obligations.FatalErrorStays
  intro s t herr h
  rcases step_cases h with ⟨-, rfl⟩ | ⟨a, rest, hs, ha⟩
  · exact .inl herr
  cases a with
  | rst =>
    cases ha
    exact .inr ⟨rest, .inl hs, rfl⟩
  | access r =>
    rcases access_err_cases ha with ⟨w, u, rfl, hu, rfl⟩ | hkept
    · rcases issue_of_fatal (s := { s with inbox := rest }) herr hu with ⟨rfl, rfl⟩ | rfl
      · exact .inr ⟨rest, .inr hs, rfl⟩
      · exact .inl herr
    · exact .inl (hkept.trans herr)

end Sys2Proof.Proofs
end
